-- ==== Sys2Proof/Word.lean ====
section
/-! DEFINITION. The unit of exchange, the two banks, the two levels of a line (spec/00_scope.md section 5). -/

namespace Sys2Proof

/-- `u8` (spec/00_scope.md R10 `BYTE`): every exchanged unit is one byte. -/
abbrev Byte := BitVec 8

/-- A register bank of the device (spec/20_memory.md R27): 0 or 1. -/
inductive Bank where
  | b0
  | b1
deriving DecidableEq, Repr, Inhabited

/-- The abstract level of the chip-enable line (spec/00_scope.md R6; the polarity is not in the source, N14). -/
inductive Level where
  | low
  | high
deriving DecidableEq, Repr, Inhabited

end Sys2Proof
end

