-- ==== Sys2Proof/Config.lean ====
section
/-! DEFINITION. What the spec leaves open: the OPEN parameters of spec/00_scope.md R10 (`INIT_BLOB`, whose entries are
bounded by the register widths, is in Machine/Blob.lean), the draws, the world outside the block, and the device as it
stands at session construction. Every `opaque` here has no body: nothing can be proved of its value. -/

namespace Sys2Proof

/-- The bytes of the device's registers, keyed by `la * 16 + i` (notes/assumptions/19.md), addresses strictly
rising. An unlisted byte has not been written since construction. -/
abbrev Memory := List Host.Cell

/-- The device-side state (spec/10_state.md R19, spec/20_memory.md R47). -/
structure Device where
  /-- `device_bank` (R19, R42). -/
  bank : Bank
  /-- Both register banks (R27, R47). -/
  regs : Memory
  /-- The TX FIFO, oldest payload first (R27, R47). -/
  tx : List (List Byte)
  /-- The RX FIFO, oldest payload first (R27, R47). -/
  rx : List (List Byte)
  /-- The ACK payload of each pipe 0 to 5 (R27, R47). -/
  ack : Vector (List Byte) 6
  /-- The bytes received in the chip-select frame in progress (R48). -/
  frame : List Byte
deriving DecidableEq, Repr, Inhabited

/-- What the exchange primitive returns at one exchange that it does not report as a fault (spec/00_scope.md R6). -/
inductive Wire where
  /-- It returns the byte the reference emulation answers (R48). -/
  | asDevice
  /-- It returns this byte: a device that is not the emulation, or a corruption the primitive does not report
  (spec/70_reset_and_hazards.md R133; spec/93 U3, U15, U16, U17). -/
  | byte (b : Byte)
deriving DecidableEq, Repr

/-- What the outside world does during one transaction. -/
structure Move where
  /-- Per exchange of the transaction, in order; past the end, `Wire.asDevice`. -/
  wire : List Wire
  /-- What outside events make of the device by the end of the transaction (R127, R132, R133, R134, U9);
  `none`: nothing but the emulation's own change. -/
  after : Option Device
deriving DecidableEq, Repr

/-- The session configuration (spec/10_state.md R17): fixed at construction, not state; no rule reads the
interrupt-pin reference (spec/60_exceptions.md R119). -/
structure SessionConfig where
  chipSelect : Nat
  chipEnable : Nat
  interruptPin : Nat
deriving DecidableEq, Repr, Inhabited

namespace Config

/-- The handles bound at construction (R17). -/
opaque session : SessionConfig

/-- `CE_INIT` (R10, D14): OPEN. -/
opaque ceInit : Level

/-- `POWER_LEVELS` (R10, spec/44_power_level.md R106): OPEN. -/
opaque powerLevels : Nat

/-- `power_fold` (R10, R106): OPEN, a total function. -/
opaque powerFold : Byte → Nat → Byte

/-- `filler` (R10, spec/41_transaction_executor.md R77): the draw of each device-to-host payload exchange. -/
opaque filler : Nat → Byte

/-- `device_bank` at session construction (spec/10_state.md R26): unknown. -/
opaque deviceBank : Bank

/-- The byte at each register-byte address at session construction (R26): unknown, but for what
spec/20_memory.md R47 fixes (`Device.storedByte`). -/
opaque deviceByte : Nat → Byte

/-- The TX FIFO at session construction (R26): unknown. -/
opaque deviceTx : List (List Byte)

/-- The RX FIFO at session construction (R26): unknown. -/
opaque deviceRx : List (List Byte)

/-- The ACK payloads at session construction (R26): unknown. -/
opaque deviceAck : Vector (List Byte) 6

/-- Byte `i` read from a register number that names no register of the selected bank
(notes/assumptions/18.md): the spec gives none. -/
opaque undefinedByte : Byte → Nat → Byte

/-- What the world outside the block does, from construction on: unknown (notes/assumptions/16.md). -/
opaque outside : List Move

end Config

end Sys2Proof
end

