-- ==== Sys2Proof/Syntax.lean ====
section
/-! DEFINITION. The requests of the block (spec/30_encoding.md R64), one constructor per row of
spec/opcode_table.json, and the twelve command opcodes (R58). -/

namespace Sys2Proof

/-- A request: a typed value (R64), with its operands unchecked. -/
inductive Instr where
  /-- `RREG la, n` (spec/42_commands.md R84). -/
  | readRegister (la : Byte) (n : Nat)
  /-- `WREG la, v` (R85). -/
  | writeRegister (la : Byte) (v : List Byte)
  /-- `RPL n` (R86). -/
  | readRxPayload (n : Nat)
  /-- `WPL v` (R87). -/
  | writeTxPayload (v : List Byte)
  /-- `WPLNA v` (R88). -/
  | writeTxPayloadNoAck (v : List Byte)
  /-- `WACK p, v` (R89). -/
  | writeAckPayload (p : Nat) (v : List Byte)
  /-- `FLUSHTX` (R90). -/
  | flushTx
  /-- `FLUSHRX` (R91). -/
  | flushRx
  /-- `REUSE` (R92). -/
  | reuseTxPayload
  /-- `ACT b` (R93). -/
  | activate (b : Byte)
  /-- `RPLW` (R94). -/
  | readRxPayloadWidth
  /-- `NOP` (R95). -/
  | nop
  /-- `MODE PD` (spec/43_mode_controller.md R98). -/
  | modePD
  /-- `MODE SB` (R99). -/
  | modeSB
  /-- `MODE RX` (R100). -/
  | modeRX
  /-- `MODE TX` (R101). -/
  | modeTX
  /-- `SETPWR level` (spec/44_power_level.md R104). -/
  | setPwr (level : Nat)
  /-- `INIT` (spec/45_init_sequencer.md R108). -/
  | init
  /-- `RESET` (spec/70_reset_and_hazards.md R126). -/
  | reset
deriving DecidableEq, Repr

/-- The closed set of twelve commands (spec/42_commands.md; R58). -/
inductive Opcode where
  | readRegister
  | writeRegister
  | readRxPayload
  | writeTxPayload
  | writeTxPayloadNoAck
  | writeAckPayload
  | flushTx
  | flushRx
  | reuseTxPayload
  | activate
  | readRxPayloadWidth
  | nop
deriving DecidableEq, Repr

/-- The three command byte formats (R55, R56, R57). -/
inductive Format where
  /-- The register number is OR'd in. -/
  | R
  /-- The pipe id is OR'd in. -/
  | P
  /-- No operand is embedded. -/
  | N
deriving DecidableEq, Repr

/-- The direction of a transaction's payload (spec/00_scope.md section 5). -/
inductive Direction where
  | h2d
  | d2h
  | none
deriving DecidableEq, Repr

/-- What the CommandEncoder answers (R59): the command byte, the direction, and the bank of the target, which is
defined only for the two register commands. -/
structure CommandWord where
  byte : Byte
  dir : Direction
  bank : Option Bank
deriving DecidableEq, Repr

end Sys2Proof
end

