-- ==== Sys2Proof/Machine/State.lean ====
section
/-! DEFINITION. The state: the block's own fields (spec/10_state.md R12 to R18), its ports (spec/00_scope.md R6), the
device beside it (R19), and what the outside will do. Plain data. -/

namespace Sys2Proof.Machine

/-- `current_bank` (R12): the block's belief of the device's selected bank. -/
inductive BankBelief where
  | unknown
  | known (b : Bank)
deriving DecidableEq, Repr

/-- The level of chip-select (R14). -/
inductive Select where
  | deasserted
  | asserted
deriving DecidableEq, Repr

/-- The four modes (spec/43_mode_controller.md R96); `mode_track` is an `Option` of one (R15). -/
inductive Mode where
  | powerDown
  | standbyI
  | rx
  | tx
deriving DecidableEq, Repr

/-- The sequencer's position (R16). -/
inductive Phase where
  | idle
  /-- The block executes primitive action `k` of the request. -/
  | busy (request : Instr) (k : Nat)
deriving DecidableEq, Repr

/-- An event of the bus trace (R18). -/
inductive Event where
  /-- `CSA`: chip-select asserted. -/
  | csa
  /-- `X(out, in)`: one exchange. -/
  | x (out inn : Byte)
  /-- `XF(out)`: an exchange whose primitive reported a fault. -/
  | xf (out : Byte)
  /-- `CSD`: chip-select deasserted. -/
  | csd
  /-- `DLY(ms)`: one delay. -/
  | dly (ms : Nat)
  /-- `CE(level)`: one drive of chip-enable. -/
  | ce (level : Level)
deriving DecidableEq, Repr

/-- The three errors (spec/60_exceptions.md R112). They are results of a request, not stops of the machine. -/
inductive Err where
  | invalidOperand
  | payloadTooLarge
  | transportFailure
deriving DecidableEq, Repr

/-- What the block returns at the result port (R112). -/
inductive Result where
  | ok (status : Option Byte) (data : List Byte)
  | err (e : Err)
deriving DecidableEq, Repr

/-- What comes next at the request port, or from outside between two requests. -/
inductive Input where
  /-- The caller presents a request (spec/30_encoding.md R64). -/
  | request (i : Instr)
  /-- An external event the block cannot see: the device is now this one (spec/70_reset_and_hazards.md R127, R132). -/
  | external (d : Device)
deriving DecidableEq, Repr

/-- Everything the spec gives the machine, and the outside it is attached to. -/
structure State where
  /-- `current_bank` (R12). -/
  currentBank : BankBelief
  /-- `ce` (R13). -/
  ce : Level
  /-- `cs` (R14). -/
  cs : Select
  /-- `mode_track` (R15); `none` is the spec's `None`. -/
  modeTrack : Option Mode
  /-- `phase` (R16). -/
  phase : Phase
  /-- The bus trace (R18), in issue order. -/
  trace : List Event
  /-- What is still to come at the request port, in order (spec/00_scope.md R6, R8). -/
  port : List Input
  /-- The results returned at the result port, oldest first (R6, R112). -/
  results : List Result
  /-- The device (R19). -/
  dev : Device
  /-- `F` of this session: the ordinals of the exchanges that report a fault (spec/20_memory.md R53), as a list of which
  only the members are looked at. -/
  faultSet : List Nat
  /-- How many exchanges there have been since the session was constructed (R53): the ordinal of the next one. -/
  exchanges : Nat
  /-- `F` of the sessions still to be constructed, in order; past the end, empty (R53, spec/95_test_vectors.md P4;
  notes/assumptions/32.md). -/
  sessionFaults : List (List Nat)
  /-- The model's own: what the outside does at the coming transactions, in order; past the end, nothing but the
  reference emulation (notes/assumptions/16.md). -/
  world : List Move
  /-- The model's own: how many filler draws have been made (notes/assumptions/7.md). -/
  draws : Nat
deriving DecidableEq, Repr

/-- Where the model stops. -/
inductive Fault where
  /-- Raised by `step` alone, at a state whose sequencer is Busy: such a state has no step at a request boundary
  (spec/00_scope.md R8, spec/93 U13 `stuck`). No run from an Idle state reaches one. Safe. -/
  | sequencerBusy
deriving DecidableEq, Repr

/-- What the model gives no meaning. -/
inductive Refusal where
  /-- An instruction that has no meaning yet. Raised by `exec`'s arm of that instruction alone; no arm does. Safe. -/
  | notModelled (mnemonic : String)
deriving DecidableEq, Repr

/-- The machine after session construction (spec/70_reset_and_hazards.md R126), beside a device of which nothing is
known (R26) and an outside of which nothing is known. -/
def State.reset : State where
  currentBank := .unknown
  ce := Config.ceInit
  cs := .deasserted
  modeTrack := none
  phase := .idle
  trace := []
  port := []
  results := []
  dev :=
    { bank := Config.deviceBank, regs := [], tx := Config.deviceTx, rx := Config.deviceRx,
      ack := Config.deviceAck, frame := [] }
  faultSet := []
  exchanges := 0
  sessionFaults := []
  world := Config.outside
  draws := 0

end Sys2Proof.Machine
end

