-- ==== Sys2Proof/Machine/Flags.lean ====
section
/-! DEFINITION. The block has no flags (spec/10_state.md R25). Here are the fields of the device's CONFIG, STATUS,
FIFO_STATUS and RF_SETUP registers (R21 to R24), the bank bit, and the write-1-to-clear of the latched flags
(spec/20_memory.md R44, R50). The bit positions are PRESUMED (the family's, spec/93 G1 to G4, G8;
notes/assumptions/13.md). -/

namespace Sys2Proof.Machine

/-- `PWR_UP`: CONFIG bit 1 (R21). -/
def pwrUp : Byte := 0x02

/-- `PRIM_RX`: CONFIG bit 0 (R21). -/
def primRx : Byte := 0x01

/-- CONFIG bit 6, MASK_RX_DR (R21). -/
def configMaskRxDr (config : Byte) : Bool := config.getLsbD 6

/-- CONFIG bit 5, MASK_TX_DS (R21). -/
def configMaskTxDs (config : Byte) : Bool := config.getLsbD 5

/-- CONFIG bit 4, MASK_MAX_RT (R21). -/
def configMaskMaxRt (config : Byte) : Bool := config.getLsbD 4

/-- CONFIG bit 3, EN_CRC (R21). -/
def configEnCrc (config : Byte) : Bool := config.getLsbD 3

/-- CONFIG bit 2, CRCO (R21). -/
def configCrco (config : Byte) : Bool := config.getLsbD 2

/-- CONFIG bit 1, PWR_UP (R21). -/
def configPwrUp (config : Byte) : Bool := config.getLsbD 1

/-- CONFIG bit 0, PRIM_RX (R21). -/
def configPrimRx (config : Byte) : Bool := config.getLsbD 0

/-- `STATUS_BANK_BIT` (spec/00_scope.md R10, R22). -/
def statusBankBit : Nat := 7

/-- STATUS bit 7, RBANK, as a bank (R22, spec/40_bank_tracker.md R68). -/
def statusBank (status : Byte) : Bank := if status.getLsbD statusBankBit then .b1 else .b0

/-- STATUS bit 6, RX_DR (R22). -/
def statusRxDr (status : Byte) : Bool := status.getLsbD 6

/-- STATUS bit 5, TX_DS (R22). -/
def statusTxDs (status : Byte) : Bool := status.getLsbD 5

/-- STATUS bit 4, MAX_RT (R22). -/
def statusMaxRt (status : Byte) : Bool := status.getLsbD 4

/-- STATUS bits 3:1, RX_P_NO (R22). -/
def statusRxPNo (status : Byte) : BitVec 3 := status.extractLsb' 1 3

/-- STATUS bit 0, TX_FULL (R22). -/
def statusTxFull (status : Byte) : Bool := status.getLsbD 0

/-- FIFO_STATUS bit 6, TX_REUSE (R23). -/
def fifoTxReuse (fifo : Byte) : Bool := fifo.getLsbD 6

/-- FIFO_STATUS bit 5, TX_FULL (R23). -/
def fifoTxFull (fifo : Byte) : Bool := fifo.getLsbD 5

/-- FIFO_STATUS bit 4, TX_EMPTY (R23). -/
def fifoTxEmpty (fifo : Byte) : Bool := fifo.getLsbD 4

/-- FIFO_STATUS bit 1, RX_FULL (R23). -/
def fifoRxFull (fifo : Byte) : Bool := fifo.getLsbD 1

/-- FIFO_STATUS bit 0, RX_EMPTY (R23). -/
def fifoRxEmpty (fifo : Byte) : Bool := fifo.getLsbD 0

/-- RF_SETUP bits 2:1, RF_PWR (R24): no rule of the block reads it. -/
def rfSetupPwr (rfSetup : Byte) : BitVec 2 := rfSetup.extractLsb' 1 2

/-- The three latched interrupt flags RX_DR, TX_DS, MAX_RT (R22, R25). -/
def latchedFlags : Byte := 0x70

/-- STATUS as it is seen: the stored byte with the selected bank in its bank bit (spec/20_memory.md R48). -/
def statusSeen (stored : Byte) (b : Bank) : Byte :=
  (stored &&& 0x7F) ||| (match b with | .b0 => 0x00 | .b1 => 0x80)

/-- The stored STATUS byte after `s` is written to it: each latched flag with its bit set in `s` is cleared, and
nothing else changes (R44, R50). -/
def clearLatched (stored s : Byte) : Byte := stored &&& ~~~(s &&& latchedFlags)

end Sys2Proof.Machine
end

