-- ==== Sys2Proof/WellFormed.lean ====
section
/-! DEFINITION. Which requests the model's byte record can carry (notes/assumptions/1.md). It is no check of the
block: the block's own operand checks are in Machine/Operands.lean, and every request has a meaning. -/

namespace Sys2Proof

/-- A length fits the record's count byte. -/
abbrev fitsCount (n : Nat) : Prop := n < 256

/-- A pipe id fits the three-bit field of format P (spec/30_encoding.md R56). -/
abbrev fitsPipe (p : Nat) : Prop := p < 8

/-- A power level fits the record's one level byte. -/
abbrev fitsLevel (l : Nat) : Prop := l < 256

/-- The request can be written as a byte record. -/
def WellFormed (i : Instr) : Bool :=
  match i with
  | .readRegister _ n => fitsCount n
  | .writeRegister _ v => fitsCount v.length
  | .readRxPayload n => fitsCount n
  | .writeTxPayload v => fitsCount v.length
  | .writeTxPayloadNoAck v => fitsCount v.length
  | .writeAckPayload p v => fitsPipe p && fitsCount v.length
  | .flushTx => true
  | .flushRx => true
  | .reuseTxPayload => true
  | .activate _ => true
  | .readRxPayloadWidth => true
  | .nop => true
  | .modePD => true
  | .modeSB => true
  | .modeRX => true
  | .modeTX => true
  | .setPwr level => fitsLevel level
  | .init => true
  | .reset => true

end Sys2Proof
end

