-- ==== Sys2Proof/Decode.lean ====
section
/-! DEFINITION. The command byte patterns (spec/30_encoding.md R54 to R58), the CommandEncoder (R59), and the byte
record by which a request is written as words: its decoder and its encoder (notes/assumptions/1.md: requests are
typed values in the spec, R64; the record is the model's carrier). -/

namespace Sys2Proof

/-- The twelve opcodes, in the order of R58. -/
def Opcode.all : List Opcode :=
  [.readRegister, .writeRegister, .readRxPayload, .writeTxPayload, .writeTxPayloadNoAck, .writeAckPayload,
   .flushTx, .flushRx, .reuseTxPayload, .activate, .readRxPayloadWidth, .nop]

/-- The base value of R58. Six are the source's; ReadRxPayload, FlushTx, FlushRx, ReuseTxPayload,
ReadRxPayloadWidth and Nop are PRESUMED (the family's, spec/93 G6, notes/assumptions/12.md). -/
def Opcode.base : Opcode → Byte
  | .readRegister => 0x00
  | .writeRegister => 0x20
  | .readRxPayload => 0x61
  | .writeTxPayload => 0xA0
  | .writeTxPayloadNoAck => 0xB0
  | .writeAckPayload => 0xA8
  | .flushTx => 0xE1
  | .flushRx => 0xE2
  | .reuseTxPayload => 0xE3
  | .activate => 0x50
  | .readRxPayloadWidth => 0x60
  | .nop => 0xFF

/-- The format of each command (R55, R56, R57). -/
def Opcode.format : Opcode → Format
  | .readRegister => .R
  | .writeRegister => .R
  | .writeAckPayload => .P
  | .readRxPayload => .N
  | .writeTxPayload => .N
  | .writeTxPayloadNoAck => .N
  | .flushTx => .N
  | .flushRx => .N
  | .reuseTxPayload => .N
  | .activate => .N
  | .readRxPayloadWidth => .N
  | .nop => .N

/-- The mask of each command (R58): the bits its format fixes. -/
def Opcode.mask (o : Opcode) : Byte :=
  match o.format with
  | .R => 0xE0
  | .P => 0xF8
  | .N => 0xFF

/-- The direction of each command (R58, R60). -/
def Opcode.direction : Opcode → Direction
  | .readRegister => .d2h
  | .writeRegister => .h2d
  | .readRxPayload => .d2h
  | .writeTxPayload => .h2d
  | .writeTxPayloadNoAck => .h2d
  | .writeAckPayload => .h2d
  | .flushTx => .none
  | .flushRx => .none
  | .reuseTxPayload => .none
  | .activate => .h2d
  | .readRxPayloadWidth => .d2h
  | .nop => .d2h

/-- A command byte matches a row of R58. -/
def Opcode.matchesByte (o : Opcode) (b : Byte) : Bool := b &&& o.mask == o.base

/-- The row of R58 that a command byte matches. -/
def opcodeOf (b : Byte) : Option Opcode := Opcode.all.find? fun o => o.matchesByte b

/-- The register number of a logical address, or of a command byte of format R: bits 4:0 (R54, R55). -/
def regNumber (la : Byte) : BitVec 5 := la.extractLsb' 0 5

/-- The bank of a logical address: bit 7 (R54, spec/40_bank_tracker.md R66). -/
def bankOf (la : Byte) : Bank := if la.getLsbD 7 then .b1 else .b0

/-- The CommandEncoder (R59), a pure function. The operand is the logical address for format R, the pipe id for
format P, and is not looked at for format N. -/
def commandEncoder (o : Opcode) (operand : Byte) : CommandWord :=
  match o.format with
  | .R => { byte := o.base ||| (regNumber operand).zeroExtend 8, dir := o.direction, bank := some (bankOf operand) }
  | .P => { byte := o.base ||| (operand.extractLsb' 0 3).zeroExtend 8, dir := o.direction, bank := none }
  | .N => { byte := o.base, dir := o.direction, bank := none }

/-! ### The byte record of a request -/

/-- Why a byte record is no request. -/
inductive Reject where
  /-- There is no byte to read. -/
  | empty
  /-- The first byte is the code of no request. -/
  | unknownCode (b : Byte)
  /-- The record ends before its operands do. -/
  | truncated
  /-- A bit that the record fixes at zero is set. -/
  | reservedBits (b : Byte)
deriving DecidableEq, Repr

/-- The record's codes of the composite requests, which have no command byte of their own: values the block never
emits (R62). -/
def compositeOf (b : Byte) : Option Instr :=
  if b = 0x40 then some .modePD
  else if b = 0x41 then some .modeSB
  else if b = 0x42 then some .modeRX
  else if b = 0x43 then some .modeTX
  else if b = 0x45 then some .init
  else if b = 0x46 then some .reset
  else none

/-- The code of SETPWR, the one composite request with an operand. -/
def setPwrCode : Byte := 0x44

/-- The count byte holds the length less one, so that a record of zero operand bytes moves one byte; length 0 is
written 0xFF. -/
def countByte (n : Nat) : Byte := BitVec.ofNat 8 (n + 255)

/-- The length a count byte stands for. -/
def countOf (b : Byte) : Nat := (b.toNat + 1) % 256

/-- A count byte and that many payload bytes. -/
def takePayload : List Byte → Except Reject (List Byte × List Byte)
  | [] => .error .truncated
  | c :: bs => if bs.length < countOf c then .error .truncated else .ok (bs.take (countOf c), bs.drop (countOf c))

/-- A count byte alone. -/
def takeCount : List Byte → Except Reject (Nat × List Byte)
  | [] => .error .truncated
  | c :: bs => .ok (countOf c, bs)

/-- The logical address of a format R request: bits 4:0 from the command byte, bits 7:5 from the next byte, whose
bits 4:0 are zero. -/
def takeAddress (cmd : Byte) : List Byte → Except Reject (Byte × List Byte)
  | [] => .error .truncated
  | h :: bs => if h &&& 0x1F = 0 then .ok (h ||| (cmd &&& 0x1F), bs) else .error (.reservedBits h)

/-- The operands of a command request, after its command byte. -/
def decodeOperands (o : Opcode) (cmd : Byte) (bs : List Byte) : Except Reject (Instr × List Byte) :=
  match o with
  | .readRegister => do
    let (la, bs) ← takeAddress cmd bs
    let (n, bs) ← takeCount bs
    return (.readRegister la n, bs)
  | .writeRegister => do
    let (la, bs) ← takeAddress cmd bs
    let (v, bs) ← takePayload bs
    return (.writeRegister la v, bs)
  | .readRxPayload => do
    let (n, bs) ← takeCount bs
    return (.readRxPayload n, bs)
  | .writeTxPayload => do
    let (v, bs) ← takePayload bs
    return (.writeTxPayload v, bs)
  | .writeTxPayloadNoAck => do
    let (v, bs) ← takePayload bs
    return (.writeTxPayloadNoAck v, bs)
  | .writeAckPayload => do
    let (v, bs) ← takePayload bs
    return (.writeAckPayload (cmd &&& 0x07).toNat v, bs)
  | .flushTx => return (.flushTx, bs)
  | .flushRx => return (.flushRx, bs)
  | .reuseTxPayload => return (.reuseTxPayload, bs)
  | .activate =>
    match bs with
    | [] => .error .truncated
    | b :: bs => return (.activate b, bs)
  | .readRxPayloadWidth => return (.readRxPayloadWidth, bs)
  | .nop => return (.nop, bs)

/-- The decoder: the request at the head of a byte list, and the bytes after it. -/
def decode : List Byte → Except Reject (Instr × List Byte)
  | [] => .error .empty
  | b :: bs =>
    match opcodeOf b with
    | some o => decodeOperands o b bs
    | none =>
      if b = setPwrCode then
        match bs with
        | [] => .error .truncated
        | l :: bs => .ok (.setPwr l.toNat, bs)
      else
        match compositeOf b with
        | some i => .ok (i, bs)
        | none => .error (.unknownCode b)

/-- A payload with its count byte before it. -/
def payloadBytes (v : List Byte) : List Byte := countByte v.length :: v

/-- The command byte of a format R request and the byte of its address bits 7:5. -/
def addressBytes (o : Opcode) (la : Byte) : List Byte := [(commandEncoder o la).byte, la &&& 0xE0]

/-- The encoder: the byte record of a well-formed request. -/
def encode : Instr → List Byte
  | .readRegister la n => addressBytes .readRegister la ++ [countByte n]
  | .writeRegister la v => addressBytes .writeRegister la ++ payloadBytes v
  | .readRxPayload n => [Opcode.readRxPayload.base, countByte n]
  | .writeTxPayload v => Opcode.writeTxPayload.base :: payloadBytes v
  | .writeTxPayloadNoAck v => Opcode.writeTxPayloadNoAck.base :: payloadBytes v
  | .writeAckPayload p v => (commandEncoder .writeAckPayload (BitVec.ofNat 8 p)).byte :: payloadBytes v
  | .flushTx => [Opcode.flushTx.base]
  | .flushRx => [Opcode.flushRx.base]
  | .reuseTxPayload => [Opcode.reuseTxPayload.base]
  | .activate b => [Opcode.activate.base, b]
  | .readRxPayloadWidth => [Opcode.readRxPayloadWidth.base]
  | .nop => [Opcode.nop.base]
  | .modePD => [0x40]
  | .modeSB => [0x41]
  | .modeRX => [0x42]
  | .modeTX => [0x43]
  | .setPwr level => [setPwrCode, BitVec.ofNat 8 level]
  | .init => [0x45]
  | .reset => [0x46]

/-- The longest byte record: WriteRegister with 255 bytes. -/
def maxRecord : Nat := 258

/-- The first `k` bytes of a word, its least significant byte first. -/
def wordBytes : Nat → Nat → List Byte
  | 0, _ => []
  | k + 1, w => BitVec.ofNat 8 w :: wordBytes k (w / 256)

/-- The request that the decoder reads from the table's bits `w` (bit 0 the least significant bit of the first
byte), every byte after them zero; `none` where it refuses, or where there are no bits. -/
def decodeTableWord (nbits w : Nat) : Option Instr :=
  if nbits = 0 then none
  else
    match decode (wordBytes ((nbits + 7) / 8) w ++ List.replicate maxRecord 0) with
    | .ok (i, _) => some i
    | .error _ => none

end Sys2Proof
end

