-- ==== Sys2Proof/Machine/Operands.lean ====
section
/-! DEFINITION. Addresses, widths and lengths (spec/20_memory.md R28 to R31), byte order (R33), and the numeric
parameters of spec/00_scope.md R10. -/

namespace Sys2Proof.Machine

/-- `TOGGLE` (R10): the Activate sub-command that flips the bank. -/
def toggleCode : Byte := 0x53

/-- `STATUS_ADDR` (R10, spec/10_state.md R22). -/
def statusAddr : Byte := 0x07

/-- `CONFIG_ADDR` (R10, R21). PRESUMED (spec/93 G9, notes/assumptions/13.md). -/
def configAddr : Byte := 0x00

/-- `RF_SETUP_ADDR` (R10, R24). PRESUMED (G9, notes/assumptions/13.md). -/
def rfSetupAddr : Byte := 0x06

/-- `FIFO_STATUS_ADDR` (R10, R23). PRESUMED (G9, notes/assumptions/13.md). -/
def fifoStatusAddr : Byte := 0x17

/-- `SETTLE_MS` (R10, spec/41_transaction_executor.md R79). -/
def settleMs : Nat := 20

/-- `MAX_PAYLOAD` (R10, R31). -/
def maxPayload : Nat := 32

/-- `NUM_PIPES` (R10, spec/30_encoding.md R56). -/
def numPipes : Nat := 6

/-- A logical address names a register (R28). -/
def definedAddr (la : Byte) : Bool := la.toNat ≤ 0x1D || (0x80 ≤ la.toNat && la.toNat ≤ 0x8E)

/-- `REG_WIDTH(la)` (R29): the default table, PRESUMED but for the ramp (spec/93 G5, notes/assumptions/11.md); 0 for an
address that names no register. -/
def regWidth (la : Byte) : Nat :=
  if !definedAddr la then 0
  else if la = 0x0A || la = 0x0B || la = 0x10 then 5
  else if la.toNat ≤ 0x1D then 1
  else if la = 0x8E then 11
  else 4

/-- The logical address of register number `a` of a bank (R54). -/
def logicalAddr (b : Bank) (a : BitVec 5) : Byte :=
  match b with
  | .b0 => a.zeroExtend 8
  | .b1 => 0x80 ||| a.zeroExtend 8

/-- The key of byte `i` of a register (notes/assumptions/19.md). -/
def cellAddr (la : Byte) (i : Nat) : Nat := la.toNat * 16 + i

/-- The low `w` bytes of a value, least significant first. -/
def lsbFirst : Nat → Nat → List Byte
  | _, 0 => []
  | v, w + 1 => BitVec.ofNat 8 v :: lsbFirst (v / 256) w

/-- The value of bytes given least significant first. -/
def ofLsbFirst : List Byte → Nat
  | [] => 0
  | b :: bs => b.toNat + 256 * ofLsbFirst bs

/-- The registers sent most significant byte first (R33). -/
def msbFirstAddr (la : Byte) : Bool := 0x80 ≤ la.toNat && la.toNat ≤ 0x87

/-- `serialise` (R33). -/
def serialise (la : Byte) (v w : Nat) : List Byte :=
  if msbFirstAddr la then (lsbFirst v w).reverse else lsbFirst v w

/-- `deserialise`, the inverse of `serialise` (R33). -/
def deserialise (la : Byte) (bs : List Byte) : Nat :=
  if msbFirstAddr la then ofLsbFirst bs.reverse else ofLsbFirst bs

/-- The checks of a register request, in the order of spec/60_exceptions.md R116 (R30, R113, R114). -/
def registerCheck (la : Byte) (n : Nat) : Option Err :=
  if !definedAddr la then some .invalidOperand
  else if n = 0 then some .invalidOperand
  else if regWidth la < n then some .payloadTooLarge
  else none

/-- The checks of a FIFO payload length (R31, R113, R114). -/
def lengthCheck (n : Nat) : Option Err :=
  if n = 0 then some .invalidOperand
  else if maxPayload < n then some .payloadTooLarge
  else none

/-- The checks of a WriteAckPayload request (R61, R113, R114, R116). -/
def ackCheck (p n : Nat) : Option Err :=
  if numPipes ≤ p then some .invalidOperand else lengthCheck n

/-- The numeric code of an error (R112, D12). -/
def Err.code : Err → Nat
  | .invalidOperand => 1
  | .payloadTooLarge => 2
  | .transportFailure => 3

end Sys2Proof.Machine
end

