-- ==== Sys2Proof/Machine/Emulation.lean ====
section
/-! DEFINITION. The device agent: the reference emulation of spec/20_memory.md R47 to R53, which has the properties
R41 to R44 the block relies on. -/

namespace Sys2Proof

open Sys2Proof.Machine

/-- What a register-byte address holds of a byte given for it: STATUS has its bit 7 stored as 0 (R47). -/
def Device.storedByte (a : Nat) (v : Byte) : Byte := if a = cellAddr statusAddr 0 then v &&& 0x7F else v

/-- The byte at a register-byte address: the one written last, else the byte the device held at construction, of which
nothing is known but R47 (spec/10_state.md R26). -/
def Device.cell (d : Device) (a : Nat) : Byte :=
  (Memory.read? d.regs a).getD (Device.storedByte a (Config.deviceByte a))

/-- `status_view` (R48): what the device echoes first in every frame (R41). -/
def Device.statusView (d : Device) : Byte := statusSeen (d.cell (cellAddr statusAddr 0)) d.bank

/-- Byte `i` of register number `a` of the selected bank (R49). Register number 7 shows the status view first in either
bank (R43). A number that names no register gives a free byte (notes/assumptions/18.md). -/
def Device.registerByte (d : Device) (a : BitVec 5) (i : Nat) : Byte :=
  let la := logicalAddr d.bank a
  if a = 7 && i = 0 then d.statusView
  else if !definedAddr la then Config.undefinedByte la i
  else if i < regWidth la then d.cell (cellAddr la i)
  else 0x00

/-- The answer to payload exchange `i` of a frame whose command byte is `cmd` (R48, R49, R51). -/
def Device.dataByte (d : Device) (cmd : Byte) (i : Nat) : Byte :=
  match opcodeOf cmd with
  | some .readRegister => d.registerByte (regNumber cmd) i
  | some .readRxPayload => (d.rx.headD []).getD i 0x00
  | some .readRxPayloadWidth => if i = 0 then BitVec.ofNat 8 (d.rx.headD []).length else 0x00
  | _ => 0x00

/-- The answer to the next exchange of the frame in progress (R48). It does not look at the byte sent (R52). -/
def Device.answer (d : Device) : Byte :=
  match d.frame with
  | [] => d.statusView
  | cmd :: sent => d.dataByte cmd sent.length

/-- The device has received one byte of the frame. -/
def Device.receive (d : Device) (out : Byte) : Device := { d with frame := d.frame ++ [out] }

/-- The frame in progress is forgotten (R53: the device state is unchanged by a frame whose exchange faulted). -/
def Device.dropFrame (d : Device) : Device := { d with frame := [] }

/-- `device_bank` flipped (R42). -/
def Bank.other : Bank → Bank
  | .b0 => .b1
  | .b1 => .b0

/-- The effect of a WriteRegister frame (R49, R50): a write of bank-0 register 7 clears latched flags; any other stores
the bytes that fit the register. -/
def Device.writeRegister (d : Device) (a : BitVec 5) (data : List Byte) : Device :=
  let la := logicalAddr d.bank a
  if la = statusAddr then
    match data with
    | [] => d
    | s :: _ =>
      let at0 := cellAddr statusAddr 0
      { d with regs := Memory.write d.regs at0 (clearLatched (d.cell at0) s) }
  else { d with regs := Memory.writeBytes d.regs (cellAddr la 0) (data.take (regWidth la)) }

/-- The effect of a complete frame of command byte `cmd` and payload `data` (R49, R50, R51). -/
def Device.perform (d : Device) (cmd : Byte) (data : List Byte) : Device :=
  match opcodeOf cmd with
  | some .readRegister => d
  | some .writeRegister => d.writeRegister (regNumber cmd) data
  | some .readRxPayload => { d with rx := d.rx.tail }
  | some .writeTxPayload => { d with tx := d.tx ++ [data] }
  | some .writeTxPayloadNoAck => { d with tx := d.tx ++ [data] }
  | some .writeAckPayload => { d with ack := d.ack.setIfInBounds (cmd &&& 0x07).toNat data }
  | some .flushTx => { d with tx := [] }
  | some .flushRx => { d with rx := [] }
  | some .reuseTxPayload => d
  | some .activate => if data = [toggleCode] then { d with bank := d.bank.other } else d
  | some .readRxPayloadWidth => d
  | some .nop => d
  | none => d

/-- Chip-select is deasserted: the frame takes effect (R48). A frame with no exchange changes nothing. -/
def Device.endFrame (d : Device) : Device :=
  match d.frame with
  | [] => d
  | cmd :: data => { d.perform cmd data with frame := [] }

/-- A device an outside event leaves: its registers as R47 stores them, in the canonical form, and at no frame. -/
def Device.settled (d : Device) : Device :=
  { d with regs := Memory.ofCells (d.regs.map fun c => (c.1, Device.storedByte c.1 c.2)), frame := [] }

end Sys2Proof
end

