-- ==== Sys2Proof/Machine/Ops.lean ====
section
/-! DEFINITION. The primitive actions of the block and the operations over them: the TransactionExecutor
(spec/41_transaction_executor.md), the BankTracker (spec/40_bank_tracker.md), the register requests the composite
requests are built from, and the ending of a request (spec/60_exceptions.md R112, R117), which is all there is of
taking an exception and returning from one (R117, R118). -/

namespace Sys2Proof.Machine

/-- An operation of the block: it changes the state and answers, or ends the request with an error (`?` and `raise` of
the spec's pseudocode), keeping the state it has reached. -/
abbrev Op (α : Type) := EStateM Err State α

/-- What a request that completes returns: `Ok(status, data)` (R112). -/
abbrev Answer := Option Byte × List Byte

/-! ### Updates of the state -/

/-- A primitive action advances `k` (spec/10_state.md R16). -/
def Phase.advance : Phase → Phase
  | .idle => .idle
  | .busy i k => .busy i (k + 1)

/-- A primitive action appends its event to the bus trace (R18) and advances the sequencer (R16). -/
def State.note (s : State) (e : Event) : State := { s with trace := s.trace ++ [e], phase := s.phase.advance }

/-- Writing `current_bank`: the BankTracker alone (R12). -/
def State.setBank (s : State) (b : BankBelief) : State := { s with currentBank := b }

/-- Writing `ce`: the ModeController alone (R13). -/
def State.setCe (s : State) (l : Level) : State := { s with ce := l }

/-- Writing `cs`: the TransactionExecutor alone (R14). -/
def State.setCs (s : State) (c : Select) : State := { s with cs := c }

/-- Writing `mode_track`: a completed transition alone (R15). -/
def State.setMode (s : State) (m : Mode) : State := { s with modeTrack := some m }

/-- Writing `phase`. -/
def State.setPhase (s : State) (p : Phase) : State := { s with phase := p }

/-- The device as it now stands. -/
def State.setDev (s : State) (d : Device) : State := { s with dev := d }

/-- What the outside will still do. -/
def State.setWorld (s : State) (w : List Move) : State := { s with world := w }

/-- What is still to come at the request port. -/
def State.setPort (s : State) (p : List Input) : State := { s with port := p }

/-- A result appears at the result port (R112). -/
def State.putResult (s : State) (r : Result) : State := { s with results := s.results ++ [r] }

/-- One filler draw has been made. -/
def State.countDraw (s : State) : State := { s with draws := s.draws + 1 }

/-- One more exchange of the session (spec/20_memory.md R53). -/
def State.countExchange (s : State) : State := { s with exchanges := s.exchanges + 1 }

/-- Session construction (spec/70_reset_and_hazards.md R126): every field of the block at its reset value; the exchanges
counted from 0 and the set `F` the new session's own, empty where none is given (spec/20_memory.md R53,
spec/95_test_vectors.md P4); the device, the ports and the rest of the outside untouched. -/
def State.construct (s : State) : State :=
  { s with
    currentBank := .unknown
    ce := Config.ceInit
    cs := .deasserted
    modeTrack := none
    phase := .idle
    trace := []
    faultSet := s.sessionFaults.headD []
    exchanges := 0
    sessionFaults := s.sessionFaults.tail }

/-! ### The outside -/

/-- What the outside does at the next exchange. -/
def wireOf : List Move → Wire
  | [] => .asDevice
  | m :: _ => m.wire.headD .asDevice

/-- The outside after one exchange. -/
def afterExchange : List Move → List Move
  | [] => []
  | m :: ms => { m with wire := m.wire.tail } :: ms

/-- What an outside event has made of the device by the end of the transaction. -/
def afterFrame : List Move → Option Device
  | [] => none
  | m :: _ => m.after

/-- The device at the end of a frame: the emulation's, unless an outside event has made another of it. -/
def frameEnd (w : List Move) (d : Device) : Device :=
  match afterFrame w with
  | some e => e.settled
  | none => d.endFrame

/-! ### The primitive actions (spec/10_state.md R16, R18) -/

/-- `CS_assert()`. -/
def csAssert : Op Unit := fun s => .ok () ((s.setCs .asserted).note .csa)

/-- `CS_deassert()`: the device's frame ends. -/
def csDeassert : Op Unit := fun s =>
  .ok () ((((s.setCs .deasserted).setDev (frameEnd s.world s.dev)).setWorld s.world.tail).note .csd)

/-- `Delay(ms)`. -/
def delay (ms : Nat) : Op Unit := fun s => .ok () (s.note (.dly ms))

/-- `CE <- level`: an event even if the level does not change (R13). -/
def driveCe (l : Level) : Op Unit := fun s => .ok () ((s.setCe l).note (.ce l))

/-- The state after an exchange that returned a byte. -/
def State.exchanged (s : State) (out inn : Byte) : State :=
  (((s.setDev (s.dev.receive out)).setWorld (afterExchange s.world)).countExchange).note (.x out inn)

/-- The state after an exchange whose primitive reported a fault. -/
def State.exchangeFaulted (s : State) (out : Byte) : State :=
  (((s.setDev s.dev.dropFrame).setWorld (afterExchange s.world)).countExchange).note (.xf out)

/-- The byte the device's side returns at the next exchange: the emulation's answer, or what the outside puts in its
place. -/
def inbound (s : State) : Byte :=
  match wireOf s.world with
  | .asDevice => s.dev.answer
  | .byte b => b

/-- `in <- Exchange(out)` (spec/00_scope.md R6): the byte received, or `none` where the primitive reports a fault, which
it does at the exchanges whose ordinal is in `F` (spec/20_memory.md R53, spec/41_transaction_executor.md R80). -/
def exchange (out : Byte) : Op (Option Byte) := fun s =>
  if s.exchanges ∈ s.faultSet then .ok none (s.exchangeFaulted out)
  else .ok (some (inbound s)) (s.exchanged out (inbound s))

/-- The filler draw of one device-to-host payload exchange (R77). -/
def drawFiller : Op Byte := fun s => .ok (Config.filler s.draws) s.countDraw

/-! ### The TransactionExecutor -/

/-- `Abort()` (R74): deassert, delay, `TransportFailure`. -/
def abort {α : Type} : Op α := do
  csDeassert
  delay settleMs
  throw .transportFailure

/-- One exchange of a transaction: a fault aborts the transaction (R80). -/
def exchangeOrAbort (out : Byte) : Op Byte := do
  match ← exchange out with
  | some r => return r
  | none => abort

/-- The payload exchanges of a host-to-device transfer: the inbound bytes are discarded (R77). -/
def sendBytes : List Byte → Op Unit
  | [] => return ()
  | b :: bs => do
    let _ ← exchangeOrAbort b
    sendBytes bs

/-- The payload exchanges of a device-to-host transfer: each sends a filler draw (R77); the bytes received, in order
(spec/20_memory.md R32). -/
def receiveBytes : Nat → Op (List Byte)
  | 0 => return []
  | n + 1 => do
    let f ← drawFiller
    let r ← exchangeOrAbort f
    let rs ← receiveBytes n
    return r :: rs

/-- The payload exchanges of a transaction (R74). -/
def payload (buf : List Byte) (n : Nat) (dir : Direction) : Op (List Byte) :=
  match dir with
  | .h2d => do
    sendBytes buf
    return []
  | .d2h => receiveBytes n
  | .none => return []

/-- `Execute(cmd, buf, n, dir)` (R74), where `len(buf) = n` if `dir = H2D` (R81). -/
def execute (cmd : Byte) (buf : List Byte) (n : Nat) (dir : Direction) : Op (Byte × List Byte) := do
  csAssert
  let s ← exchangeOrAbort cmd
  let d ← payload buf n dir
  csDeassert
  delay settleMs
  return (s, d)

/-- The one byte of a one-byte read; the default is never reached, as a device-to-host transaction that completes
returns as many bytes as it asked for. -/
def firstByte (d : List Byte) : Byte := d.headD 0x00

/-! ### The BankTracker -/

/-- Writing the belief (spec/10_state.md R12). -/
def believe (b : BankBelief) : Op Unit := fun s => .ok () (s.setBank b)

/-- `Resolve()` (R68): the unguarded read of STATUS. -/
def resolve : Op Unit := do
  let (_, d) ← execute (commandEncoder .readRegister statusAddr).byte [] 1 .d2h
  believe (.known (statusBank (firstByte d)))

/-- `Toggle()` (R69). -/
def toggle : Op Unit := do
  let _ ← execute (commandEncoder .activate 0).byte [toggleCode] 1 .h2d
  return ()

/-- `current_bank`, read by the BankTracker (R12). -/
def belief : Op BankBelief := fun s => .ok s.currentBank s

/-- `EnsureBank(t)` (R70). -/
def ensureBank (t : Bank) : Op Unit := do
  if (← belief) = .unknown then resolve
  if (← belief) ≠ .known t then
    toggle
    believe (.known t)

/-- The guard of a command (R67): register-targeted commands alone have a target bank. -/
def guardBank : Option Bank → Op Unit
  | some t => ensureBank t
  | none => return ()

/-! ### Requests -/

/-- A check before any bus access (spec/60_exceptions.md R116): an error ends the request. -/
def check : Option Err → Op Unit
  | some e => throw e
  | none => return ()

/-- One command: encoded (spec/30_encoding.md R59), bank-guarded (R67), executed (R74). -/
def issue (o : Opcode) (operand : Byte) (buf : List Byte) (n : Nat) : Op (Byte × List Byte) := do
  let w := commandEncoder o operand
  guardBank w.bank
  execute w.byte buf n w.dir

/-- `RREG(la, n)` (spec/42_commands.md R84). -/
def rreg (la : Byte) (n : Nat) : Op (Byte × List Byte) := do
  check (registerCheck la n)
  issue .readRegister la [] n

/-- `WREG(la, v)` (R85). -/
def wreg (la : Byte) (v : List Byte) : Op (Byte × List Byte) := do
  check (registerCheck la v.length)
  issue .writeRegister la v v.length

/-- `Ok(s, d)` of a command request (R83). -/
def answerOf (r : Byte × List Byte) : Answer := (some r.1, r.2)

/-- The block accepts a request (spec/10_state.md R16). -/
def State.accept (s : State) (i : Instr) : State := s.setPhase (.busy i 0)

/-- A request ends, completed or with an error: its result appears at the result port and the sequencer returns to Idle
(R16, R112, R117). Nothing is saved, no handler is entered, and there is nothing to return from (R117, R118). -/
def conclude : EStateM.Result Err State Answer → State
  | .ok a s => (s.putResult (.ok a.1 a.2)).setPhase .idle
  | .error e s => (s.putResult (.err e)).setPhase .idle

/-- A request from its acceptance to its result. -/
def request (i : Instr) (body : Op Answer) (s : State) : Host.Outcome State Fault Refusal :=
  .next (conclude (body.run (s.accept i)))

end Sys2Proof.Machine
end

