-- ==== Sys2Proof/Machine/Commands.lean ====
section
/-! DEFINITION. The twelve command requests (spec/42_commands.md R83 to R95). -/

namespace Sys2Proof.Machine

/-- ReadRegister (R84). -/
def execReadRegister (la : Byte) (n : Nat) (s : State) : Host.Outcome State Fault Refusal :=
  request (.readRegister la n) (answerOf <$> rreg la n) s

/-- WriteRegister (R85). -/
def execWriteRegister (la : Byte) (v : List Byte) (s : State) : Host.Outcome State Fault Refusal :=
  request (.writeRegister la v) (answerOf <$> wreg la v) s

/-- ReadRxPayload (R86). -/
def execReadRxPayload (n : Nat) (s : State) : Host.Outcome State Fault Refusal :=
  request (.readRxPayload n)
    (do check (lengthCheck n)
        answerOf <$> issue .readRxPayload 0 [] n) s

/-- WriteTxPayload (R87). -/
def execWriteTxPayload (v : List Byte) (s : State) : Host.Outcome State Fault Refusal :=
  request (.writeTxPayload v)
    (do check (lengthCheck v.length)
        answerOf <$> issue .writeTxPayload 0 v v.length) s

/-- WriteTxPayloadNoAck (R88). -/
def execWriteTxPayloadNoAck (v : List Byte) (s : State) : Host.Outcome State Fault Refusal :=
  request (.writeTxPayloadNoAck v)
    (do check (lengthCheck v.length)
        answerOf <$> issue .writeTxPayloadNoAck 0 v v.length) s

/-- WriteAckPayload (R89). -/
def execWriteAckPayload (p : Nat) (v : List Byte) (s : State) : Host.Outcome State Fault Refusal :=
  request (.writeAckPayload p v)
    (do check (ackCheck p v.length)
        answerOf <$> issue .writeAckPayload (BitVec.ofNat 8 p) v v.length) s

/-- FlushTx (R90). -/
def execFlushTx (s : State) : Host.Outcome State Fault Refusal :=
  request .flushTx (answerOf <$> issue .flushTx 0 [] 0) s

/-- FlushRx (R91). -/
def execFlushRx (s : State) : Host.Outcome State Fault Refusal :=
  request .flushRx (answerOf <$> issue .flushRx 0 [] 0) s

/-- ReuseTxPayload (R92). -/
def execReuseTxPayload (s : State) : Host.Outcome State Fault Refusal :=
  request .reuseTxPayload (answerOf <$> issue .reuseTxPayload 0 [] 0) s

/-- Activate (R93): any sub-command passes through, and `current_bank` is not written (D22). -/
def execActivate (b : Byte) (s : State) : Host.Outcome State Fault Refusal :=
  request (.activate b) (answerOf <$> issue .activate 0 [b] 1) s

/-- ReadRxPayloadWidth (R94). -/
def execReadRxPayloadWidth (s : State) : Host.Outcome State Fault Refusal :=
  request .readRxPayloadWidth (answerOf <$> issue .readRxPayloadWidth 0 [] 1) s

/-- Nop (R95). -/
def execNop (s : State) : Host.Outcome State Fault Refusal :=
  request .nop (answerOf <$> issue .nop 0 [] 0) s

end Sys2Proof.Machine
end

