-- ==== Sys2Proof/Machine/Modes.lean ====
section
/-! DEFINITION. The ModeController (spec/43_mode_controller.md R96 to R103): four read-modify-writes of CONFIG with
chip-enable drives. No transition looks at the mode it leaves (R96). -/

namespace Sys2Proof.Machine

/-- `mode_track <- m`, when every step of the transition has succeeded (R96, R103). -/
def enterMode (m : Mode) : Op Unit := fun s => .ok () (s.setMode m)

/-- Read a one-byte register and write back a function of the byte read; the status byte of the write. -/
def modifyRegister (la : Byte) (f : Byte → Byte) : Op Byte := do
  let (_, d) ← rreg la 1
  let (s, _) ← wreg la [f (firstByte d)]
  return s

/-- PowerDown (R98). -/
def powerDownBody : Op Answer := do
  driveCe .low
  let s ← modifyRegister configAddr fun c => c &&& ~~~pwrUp
  enterMode .powerDown
  return (some s, [])

/-- StandbyI (R99). -/
def standbyBody : Op Answer := do
  driveCe .low
  let s ← modifyRegister configAddr fun c => c ||| pwrUp
  enterMode .standbyI
  return (some s, [])

/-- RX (R100): STATUS is written back to itself first. -/
def rxBody : Op Answer := do
  let _ ← modifyRegister statusAddr fun s => s
  driveCe .low
  let s ← modifyRegister configAddr fun c => c ||| pwrUp ||| primRx
  driveCe .high
  enterMode .rx
  return (some s, [])

/-- TX (R101, D29): the formula as the source gives it. -/
def txBody : Op Answer := do
  driveCe .low
  let s ← modifyRegister configAddr fun c => (c &&& pwrUp) &&& ~~~primRx
  driveCe .high
  enterMode .tx
  return (some s, [])

/-- MODE_PD (R98). -/
def execModePD (s : State) : Host.Outcome State Fault Refusal := request .modePD powerDownBody s

/-- MODE_SB (R99). -/
def execModeSB (s : State) : Host.Outcome State Fault Refusal := request .modeSB standbyBody s

/-- MODE_RX (R100). -/
def execModeRX (s : State) : Host.Outcome State Fault Refusal := request .modeRX rxBody s

/-- MODE_TX (R101). -/
def execModeTX (s : State) : Host.Outcome State Fault Refusal := request .modeTX txBody s

end Sys2Proof.Machine
end

