-- ==== Sys2Proof/Machine/Blob.lean ====
section
/-! DEFINITION. The initialisation blob (spec/45_init_sequencer.md R107, R109, R110): the OPEN parameter `INIT_BLOB` as
opaque constants, the form of its entries, and the bytes an entry is sent as. -/

namespace Sys2Proof

open Sys2Proof.Machine

/-- The logical address of a bank-1 register of the blob: 0x80 to 0x8E (R107). -/
def blobAddr (reg : Fin 15) : Byte := BitVec.ofNat 8 (0x80 + reg.val)

/-- The width of a blob register in bits. -/
def blobBits (reg : Fin 15) : Nat := 8 * regWidth (blobAddr reg)

/-- One entry of the blob (R107): a bank-1 register and a value below `256 ^ REG_WIDTH`. -/
structure InitEntry where
  reg : Fin 15
  value : BitVec (blobBits reg)
deriving DecidableEq, Repr

namespace Config

/-- The entries of `INIT_BLOB` before its final toggle pulse (R107, D20): OPEN. -/
opaque initBody : List InitEntry

/-- The register of the final toggle pulse (R110): not in source. -/
opaque pulseReg : Fin 15

/-- The value of the final toggle pulse but for its two bits (R110): not in source. -/
opaque pulseValue : BitVec (blobBits pulseReg)

/-- The first of the two bits of the high byte that the pulse sets and clears (R110): not in source. -/
opaque pulseBit : Fin 8

/-- How far above the first (cyclically, less one) the second bit of the pulse lies (R110): the two differ. -/
opaque pulseGap : Fin 7

end Config

namespace Machine

/-- The logical address of a blob entry (R107). -/
def entryAddr (e : InitEntry) : Byte := blobAddr e.reg

/-- The bytes a blob entry is sent as (R109). -/
def entryBytes (e : InitEntry) : List Byte := serialise (entryAddr e) e.value.toNat (regWidth (entryAddr e))

/-- Bit `b` of the high byte of a register's value (R110: the most significant byte, whatever the byte order). -/
def highByteBit (reg : Fin 15) (b : Nat) : BitVec (blobBits reg) := BitVec.twoPow _ (blobBits reg - 8 + b)

/-- The two bits of the final toggle pulse (R110), at two different places of the high byte. -/
def pulseMask (reg : Fin 15) (bit : Fin 8) (gap : Fin 7) : BitVec (blobBits reg) :=
  highByteBit reg bit.val ||| highByteBit reg ((bit.val + 1 + gap.val) % 8)

/-- The final toggle pulse (R110): one register twice, first with the two bits of its high byte set, then with the same
two bits cleared. -/
def pulseEntries (reg : Fin 15) (value : BitVec (blobBits reg)) (bit : Fin 8) (gap : Fin 7) : List InitEntry :=
  let mask := pulseMask reg bit gap
  [⟨reg, value ||| mask⟩, ⟨reg, (value ||| mask) &&& ~~~mask⟩]

/-- `INIT_BLOB` (R107, R110): OPEN entries, then the toggle pulse. -/
def initBlob : List InitEntry :=
  Config.initBody ++ pulseEntries Config.pulseReg Config.pulseValue Config.pulseBit Config.pulseGap

end Machine

end Sys2Proof
end

