-- ==== Sys2Proof/Machine/Sequences.lean ====
section
/-! DEFINITION. The PowerLevelSetter (spec/44_power_level.md), the InitSequencer (spec/45_init_sequencer.md) and session
construction (spec/70_reset_and_hazards.md R126). -/

namespace Sys2Proof.Machine

/-- `set_power_level(level)` for given `POWER_LEVELS` and `power_fold` (R104, R105). -/
def powerBody (levels : Nat) (fold : Byte → Nat → Byte) (level : Nat) : Op Answer := do
  if levels ≤ level then
    return (none, [])
  else
    let s ← modifyRegister rfSetupAddr fun r => fold r level
    return (some s, [])

/-- SETPWR (R104). -/
def execSetPwr (level : Nat) (s : State) : Host.Outcome State Fault Refusal :=
  request (.setPwr level) (powerBody Config.powerLevels Config.powerFold level) s

/-- The replay of a blob (R108): one WriteRegister per entry, in order; the status byte of the last. -/
def replay : List InitEntry → Option Byte → Op Answer
  | [], last => return (last, [])
  | e :: es, _ => do
    let (s, _) ← wreg (entryAddr e) (entryBytes e)
    replay es (some s)

/-- INIT (R108). -/
def execInit (s : State) : Host.Outcome State Fault Refusal := request .init (replay initBlob none) s

/-- RESET (R126): session construction; no bus event, the device untouched. Its result is that of a request that issued no
transaction (spec/60_exceptions.md R112; notes/assumptions/5.md). -/
def execReset (s : State) : Host.Outcome State Fault Refusal :=
  request .reset (fun s => .ok (none, []) s.construct) s

end Sys2Proof.Machine
end

