-- ==== Sys2Proof/Machine/Dispatch.lean ====
section
/-! DEFINITION. One arm per request, each one call of its meaning. -/

namespace Sys2Proof.Machine

def exec (i : Instr) (s : State) : Host.Outcome State Fault Refusal :=
  match i with
  -- the twelve commands (spec/42_commands.md)
  | .readRegister la n => Sys2Proof.Machine.execReadRegister la n s
  | .writeRegister la v => Sys2Proof.Machine.execWriteRegister la v s
  | .readRxPayload n => Sys2Proof.Machine.execReadRxPayload n s
  | .writeTxPayload v => Sys2Proof.Machine.execWriteTxPayload v s
  | .writeTxPayloadNoAck v => Sys2Proof.Machine.execWriteTxPayloadNoAck v s
  | .writeAckPayload p v => Sys2Proof.Machine.execWriteAckPayload p v s
  | .flushTx => Sys2Proof.Machine.execFlushTx s
  | .flushRx => Sys2Proof.Machine.execFlushRx s
  | .reuseTxPayload => Sys2Proof.Machine.execReuseTxPayload s
  | .activate b => Sys2Proof.Machine.execActivate b s
  | .readRxPayloadWidth => Sys2Proof.Machine.execReadRxPayloadWidth s
  | .nop => Sys2Proof.Machine.execNop s
  -- the composite requests
  | .modePD => Sys2Proof.Machine.execModePD s
  | .modeSB => Sys2Proof.Machine.execModeSB s
  | .modeRX => Sys2Proof.Machine.execModeRX s
  | .modeTX => Sys2Proof.Machine.execModeTX s
  | .setPwr level => Sys2Proof.Machine.execSetPwr level s
  | .init => Sys2Proof.Machine.execInit s
  | .reset => Sys2Proof.Machine.execReset s

end Sys2Proof.Machine
end

