-- ==== Sys2Proof/Machine/Port.lean ====
section
/-! DEFINITION. The request port (spec/00_scope.md R6, R8; spec/30_encoding.md R64): presenting a request, and what the
step does with the port's other input. -/

namespace Sys2Proof.Machine

/-- The caller presents a request next, to an Idle block. -/
def State.present (s : State) (i : Instr) : State := (s.setPort (.request i :: s.port)).setPhase .idle

/-- An external event (spec/70_reset_and_hazards.md R127, R132): the device is another, the block is as it was. -/
def State.externalEvent (s : State) (d : Device) : State := s.setDev d.settled

end Sys2Proof.Machine
end

