-- ==== Sys2Proof/Machine/Step.lean ====
section
/-! DEFINITION. One step: an Idle block takes what is next at the request port and runs it to its result
(spec/00_scope.md R7, R8). -/

namespace Sys2Proof.Machine

/-- The step. With nothing at the port an Idle block waits (spec/60_exceptions.md R124); a Busy block has no step at a
request boundary (R8). -/
def step (s : State) : Host.Outcome State Fault Refusal :=
  match s.phase with
  | .busy _ _ => .fault .sequencerBusy
  | .idle =>
    match s.port with
    | [] => .next s
    | .request i :: rest => exec i (s.setPort rest)
    | .external d :: rest => .next ((s.setPort rest).externalEvent d)

/-- `s` with the request of the table's word presented next at the request port, the block Idle. The block fetches no
instructions (R16); the port is where its next request comes from. A word that is no request leaves `s` as it was. -/
def State.withFetchWord (s : State) (nbits w : Nat) : State :=
  match decodeTableWord nbits w with
  | some i => s.present i
  | none => s

end Sys2Proof.Machine
end

