-- ==== Sys2Proof/Safety.lean ====
section
/-! DEFINITION. What claims about the block speak of: the event lists of transactions and of bank work, the shape of a
legal bus trace, what the outside refrains from, and the invariant of the machine. -/

namespace Sys2Proof.Machine

/-- No exchange to come reports a fault: every ordinal of `F` has passed (spec/20_memory.md R53). -/
def NoFault (s : State) : Prop := ∀ k ∈ s.faultSet, k < s.exchanges

/-! ### Event lists -/

/-- The events of a complete transaction (spec/41_transaction_executor.md R74): command byte `cmd`, status byte `st`,
then one exchange per payload byte. -/
def frameEvents (cmd st : Byte) (outs ins : List Byte) : List Event :=
  [.csa, .x cmd st] ++ List.zipWith Event.x outs ins ++ [.csd, .dly settleMs]

/-- The events by which the BankTracker goes from bank `c` to bank `t` (spec/40_bank_tracker.md R70): none, or one
toggle. -/
def ToggleWork (c t : Bank) (ev : List Event) : Prop :=
  if c = t then ev = [] else ∃ st r, ev = frameEvents 0x50 st [0x53] [r]

/-- The events EnsureBank issues before a register command of bank `t` (the table of R70). -/
def BankWork (b : BankBelief) (t : Bank) (ev : List Event) : Prop :=
  match b with
  | .known c => ToggleWork c t ev
  | .unknown => ∃ st f d ev', ev = frameEvents 0x07 st [f] [d] ++ ev' ∧ ToggleWork (statusBank d) t ev'

/-- The events before a command's own transaction: bank work for a register command, none for any other
(spec/40_bank_tracker.md R67). -/
def GuardWork (b : BankBelief) (target : Option Bank) (ev : List Event) : Prop :=
  match target with
  | some t => BankWork b t ev
  | none => ev = []

/-- The belief after a command: a register command leaves its target bank (R70), any other the belief it found (R67). -/
def beliefAfter (b : BankBelief) (target : Option Bank) : BankBelief :=
  match target with
  | some t => .known t
  | none => b

/-- What the payload exchanges of a transaction send (`outs`), and the data `d` it returns of the bytes received
(`ins`), by its direction (spec/41_transaction_executor.md R74, R77). -/
def Carries (buf : List Byte) (n : Nat) (dir : Direction) (outs ins d : List Byte) : Prop :=
  match dir with
  | .h2d => outs = buf ∧ d = []
  | .d2h => outs.length = n ∧ d = ins
  | .none => outs = [] ∧ d = []

/-- The level of the last chip-enable drive of a trace, or the level before it. -/
def lastLevel : Level → List Event → Level
  | l, [] => l
  | _, .ce l' :: es => lastLevel l' es
  | l, _ :: es => lastLevel l es

/-! ### How a request ends -/

/-- How many exchanges of a trace faulted. -/
def faultCount (tr : List Event) : Nat := tr.countP fun e => match e with | .xf _ => true | _ => false

/-- How many exchanges a trace holds. -/
def exchangeCount (tr : List Event) : Nat :=
  tr.countP fun e => match e with | .x _ _ => true | .xf _ => true | _ => false

/-- Counted from ordinal `k`, the exchanges of a trace that faulted are those whose ordinal is in `F`
(spec/20_memory.md R53). -/
def FaultsBy (F : List Nat) : Nat → List Event → Prop
  | _, [] => True
  | k, .x _ _ :: es => k ∉ F ∧ FaultsBy F (k + 1) es
  | k, .xf _ :: es => k ∈ F ∧ FaultsBy F (k + 1) es
  | k, _ :: es => FaultsBy F k es

/-- What holds after every request that is not a reset: the sequencer is Idle (R16), and the request port is as it was. -/
structure Ended (s t : State) : Prop where
  idle : t.phase = .idle
  port : t.port = s.port

/-- A command with command byte `cmd`, payload `buf` or length `n`, and target bank `target` has completed
(spec/42_commands.md R83): bank work where it is register-targeted, then its one transaction; the result carries the
status byte of that transaction. -/
structure CommandCompleted (cmd : Byte) (target : Option Bank) (buf : List Byte) (n : Nat) (dir : Direction)
    (s t : State) : Prop where
  ended : Ended s t
  effect : ∃ ev st outs ins d, GuardWork s.currentBank target ev ∧ Carries buf n dir outs ins d ∧
    ins.length = outs.length ∧ t.trace = s.trace ++ ev ++ frameEvents cmd st outs ins ∧
    t.results = s.results ++ [.ok (some st) d]
  belief : t.currentBank = beliefAfter s.currentBank target
  ce : t.ce = s.ce
  modeTrack : t.modeTrack = s.modeTrack
  cs : t.cs = .deasserted

/-- A request has ended in TransportFailure (spec/60_exceptions.md R115, R117): an exchange faulted, nothing was
exchanged after it, chip-select is deasserted, and the delay was made. -/
structure TransportFailed (s t : State) : Prop where
  ended : Ended s t
  result : t.results = s.results ++ [.err .transportFailure]
  trace : ∃ pre out, faultCount pre = 0 ∧ t.trace = s.trace ++ pre ++ [.xf out, .csd, .dly settleMs]
  cs : t.cs = .deasserted
  faulted : ¬ NoFault s

/-- The payload exchanges of a transaction cut short, by its direction (spec/20_memory.md R32,
spec/41_transaction_executor.md R74, R80): the completed ones sent `outs`, the faulted one sent `out`. Host to device, they
are a prefix of `buf` in buffer order; device to host, fewer than `n` had completed; without payload there are none. -/
def CutPayload (buf : List Byte) (n : Nat) : Direction → List Byte → Byte → Prop
  | .h2d, outs, out => outs ++ [out] <+: buf
  | .d2h, outs, _ => outs.length < n
  | .none, _, _ => False

/-- The events of a transaction cut short (spec/41_transaction_executor.md R80) of command byte `cmd`, payload `buf` or
length `n`, and direction `dir`: chip-select asserted, the exchanges that completed, the one that faulted, chip-select
deasserted, the delay. The faulted exchange is that of the command byte, or one of the payload. -/
def CutEvents (cmd : Byte) (buf : List Byte) (n : Nat) (dir : Direction) (ev : List Event) : Prop :=
  ev = [.csa, .xf cmd, .csd, .dly settleMs] ∨
    ∃ st outs ins out, ins.length = outs.length ∧ CutPayload buf n dir outs out ∧
      ev = [.csa, .x cmd st] ++ List.zipWith Event.x outs ins ++ [.xf out, .csd, .dly settleMs]

/-- What a failed register command of bank `t`, command byte `cmd`, payload `buf` or length `n` and direction `dir` has
issued, and the belief it leaves (spec/40_bank_tracker.md R72): from belief `b`, the events `ev`, to belief `b'`. -/
def FailedAt (b : BankBelief) (t : Bank) (cmd : Byte) (buf : List Byte) (n : Nat) (dir : Direction) (ev : List Event)
    (b' : BankBelief) : Prop :=
  -- the resolution read failed
  (b = .unknown ∧ CutEvents 0x07 [] 1 .d2h ev ∧ b' = .unknown) ∨
  -- the toggle failed, from a known belief
  (∃ c, b = .known c ∧ c ≠ t ∧ CutEvents 0x50 [0x53] 1 .h2d ev ∧ b' = .known c) ∨
  -- the toggle failed, after a resolution
  (b = .unknown ∧ ∃ st f d ev', statusBank d ≠ t ∧ CutEvents 0x50 [0x53] 1 .h2d ev' ∧
    ev = frameEvents 0x07 st [f] [d] ++ ev' ∧ b' = .known (statusBank d)) ∨
  -- the command's own transaction failed
  (∃ bw ev', BankWork b t bw ∧ CutEvents cmd buf n dir ev' ∧ ev = bw ++ ev' ∧ b' = .known t)

/-- What a failed MODE RX has issued after its STATUS read, which returned `d` (spec/43_mode_controller.md R100, R103): the
write-back of `d` cut short; or that write complete, chip-enable driven low, and the CONFIG read cut short; or that read
complete too, returning `c`, and the CONFIG write cut short. The belief is bank 0 throughout, so none has bank work. -/
def RxFailedAfterRead (d : Byte) (ev : List Event) : Prop :=
  CutEvents 0x27 [d] 1 .h2d ev ∨
    ∃ st r ev₁, ev = frameEvents 0x27 st [d] [r] ++ [.ce .low] ++ ev₁ ∧
      (CutEvents 0x00 [] 1 .d2h ev₁ ∨
        ∃ st' f c ev₂, ev₁ = frameEvents 0x00 st' [f] [c] ++ ev₂ ∧ CutEvents 0x20 [c ||| 0x03] 1 .h2d ev₂)

/-! ### Operands -/

/-- The logical addresses that name a register (spec/20_memory.md R28). -/
abbrev RegisterAddr (la : Byte) : Prop := la.toNat ≤ 0x1D ∨ (0x80 ≤ la.toNat ∧ la.toNat ≤ 0x8E)

/-- The operand error of a request, where it has one (spec/60_exceptions.md R113, R114, R116). -/
def operandError : Instr → Option Err
  | .readRegister la n =>
    if ¬ RegisterAddr la ∨ n = 0 then some .invalidOperand
    else if regWidth la < n then some .payloadTooLarge else none
  | .writeRegister la v =>
    if ¬ RegisterAddr la ∨ v.length = 0 then some .invalidOperand
    else if regWidth la < v.length then some .payloadTooLarge else none
  | .readRxPayload n => if n = 0 then some .invalidOperand else if 32 < n then some .payloadTooLarge else none
  | .writeTxPayload v =>
    if v.length = 0 then some .invalidOperand else if 32 < v.length then some .payloadTooLarge else none
  | .writeTxPayloadNoAck v =>
    if v.length = 0 then some .invalidOperand else if 32 < v.length then some .payloadTooLarge else none
  | .writeAckPayload p v =>
    if 5 < p ∨ v.length = 0 then some .invalidOperand else if 32 < v.length then some .payloadTooLarge else none
  | .flushTx | .flushRx | .reuseTxPayload | .activate _ | .readRxPayloadWidth | .nop => none
  | .modePD | .modeSB | .modeRX | .modeTX | .setPwr _ | .init | .reset => none

/-- The requests that are register-targeted, or built from requests that are (spec/40_bank_tracker.md R67). -/
def usesRegisters : Instr → Bool
  | .readRegister _ _ | .writeRegister _ _ => true
  | .modePD | .modeSB | .modeRX | .modeTX => true
  | .setPwr _ => true
  | .init => true
  | .readRxPayload _ | .writeTxPayload _ | .writeTxPayloadNoAck _ | .writeAckPayload _ _ => false
  | .flushTx | .flushRx | .reuseTxPayload | .activate _ | .readRxPayloadWidth | .nop | .reset => false

/-- The mode transitions (spec/43_mode_controller.md R98 to R101). -/
def isTransition : Instr → Bool
  | .modePD | .modeSB | .modeRX | .modeTX => true
  | .readRegister _ _ | .writeRegister _ _ | .setPwr _ | .init => false
  | .readRxPayload _ | .writeTxPayload _ | .writeTxPayloadNoAck _ | .writeAckPayload _ _ => false
  | .flushTx | .flushRx | .reuseTxPayload | .activate _ | .readRxPayloadWidth | .nop | .reset => false

/-- How many transactions a request issues without bank work (spec/70_reset_and_hazards.md R137). -/
def ownTransactions : Instr → Nat
  | .modePD | .modeSB | .modeTX => 2
  | .modeRX => 4
  | .setPwr level => if level < Config.powerLevels then 2 else 0
  | .init => initBlob.length
  | .reset => 0
  | .readRegister _ _ | .writeRegister _ _ => 1
  | .readRxPayload _ | .writeTxPayload _ | .writeTxPayloadNoAck _ | .writeAckPayload _ _ => 1
  | .flushTx | .flushRx | .reuseTxPayload | .activate _ | .readRxPayloadWidth | .nop => 1

/-- The command byte by which a blob entry is written (spec/45_init_sequencer.md R108). -/
def entryCommand (e : InitEntry) : Byte := 0x20 ||| (entryAddr e &&& 0x1F)

/-- The events of the replay of entries (R108), and the status byte it ends with: `last` before them, `final` after. -/
def ReplayEvents : List InitEntry → Option Byte → List Event → Option Byte → Prop
  | [], last, ev, final => ev = [] ∧ final = last
  | e :: es, _, ev, final => ∃ st ins ev', ins.length = (entryBytes e).length ∧
      ev = frameEvents (entryCommand e) st (entryBytes e) ins ++ ev' ∧ ReplayEvents es (some st) ev' final

/-! ### The shape of a bus trace -/

/-- Where in the framing of R75 a trace stands. -/
inductive BusState where
  /-- No frame is open and the settle delay has passed. -/
  | ready
  /-- Chip-select is asserted and nothing has been exchanged. -/
  | selected
  /-- The command byte has been exchanged. -/
  | exchanging
  /-- An exchange of the frame faulted. -/
  | faulted
  /-- Chip-select is deasserted and the settle delay is due. -/
  | released
deriving DecidableEq, Repr

/-- One event of a legal trace whose command bytes satisfy `legal` (R74, R75, R79, R80). -/
def busStep (legal : Byte → Bool) : BusState → Event → Option BusState
  | .ready, e => match e with
    | .csa => some .selected
    | .ce _ => some .ready
    | _ => none
  | .selected, e => match e with
    | .x out _ => if legal out then some .exchanging else none
    | .xf out => if legal out then some .faulted else none
    | _ => none
  | .exchanging, e => match e with
    | .x _ _ => some .exchanging
    | .xf _ => some .faulted
    | .csd => some .released
    | _ => none
  | .faulted, e => match e with
    | .csd => some .released
    | _ => none
  | .released, e => match e with
    | .dly ms => if ms = settleMs then some .ready else none
    | _ => none

/-- A run of events; `none` where the trace is not legal. -/
def busRun (legal : Byte → Bool) (b : BusState) (tr : List Event) : Option BusState :=
  tr.foldlM (busStep legal) b

/-- The command bytes the block emits (spec/30_encoding.md R62). -/
def emittedByte (b : Byte) : Bool :=
  b.toNat ≤ 0x1D || (0x20 ≤ b.toNat && b.toNat ≤ 0x3D) || (0xA8 ≤ b.toNat && b.toNat ≤ 0xAD) ||
    [0x50, 0x60, 0x61, 0xA0, 0xB0, 0xE1, 0xE2, 0xE3, 0xFF].contains b

/-- Every frame of the trace is complete, ends with its settle delay, and starts with a byte of R62. -/
def LegalTrace (tr : List Event) : Prop := busRun emittedByte .ready tr = some .ready

/-- The command bytes of a trace, in order: the first byte of each frame (R74). -/
def commandBytes : List Event → List Byte
  | .csa :: .x out _ :: es => out :: commandBytes es
  | .csa :: .xf out :: es => out :: commandBytes es
  | _ :: es => commandBytes es
  | [] => []

/-- How many transactions a trace holds. -/
def transactions (tr : List Event) : Nat := (commandBytes tr).length

/-- How many settle delays a trace holds (spec/70_reset_and_hazards.md R137). -/
def settleDelays (tr : List Event) : Nat := tr.count (.dly settleMs)

/-! ### The outside -/

/-- Nothing but the reference emulation answers and acts (spec/20_memory.md R47 to R52, R53 with its default, `F` empty in
this session and every later one). -/
structure OnBench (s : State) : Prop where
  world : s.world = []
  faultSet : s.faultSet = []
  sessionFaults : s.sessionFaults = []
  frame : s.dev.frame = []

/-- The belief is right where the block holds one (spec/10_state.md R19, R20). -/
def Agrees (s : State) : Prop := ∀ b, s.currentBank = .known b → s.dev.bank = b

/-! ### The invariant -/

/-- At every request boundary: the sequencer is Idle (R16), chip-select is deasserted (R14), the trace so far is legal
(R62, R75, R79), the device is at no frame, its memory is in canonical form, and STATUS has bit 7 stored as 0
(spec/20_memory.md R47). -/
structure Inv (s : State) : Prop where
  idle : s.phase = .idle
  released : s.cs = .deasserted
  legal : LegalTrace s.trace
  noFrame : s.dev.frame = []
  canonical : Memory.wf s.dev.regs
  statusBit : (s.dev.cell (cellAddr 0x07 0)).getLsbD 7 = false

end Sys2Proof.Machine
end

