-- ==== Sys2Proof/Certificates/Slice0/Obligations.lean ====
section
/-! DEFINITION. The statements for the provers (OBLIGATIONS.json lists them in this order). Each docstring names the rule
of spec/ behind it, or says that it rests on a choice of the model. -/

open Sys2Proof Sys2Proof.Machine

/-! ### Encoding and decoding -/

/-- The decoder reads back every request the encoder writes, with every operand and whatever follows. The byte record is
the model's own carrier (notes/assumptions/1.md). -/
def Obligations.DecodeReadsBackEncode : Prop :=
  ∀ (i : Instr) (rest : List Byte), WellFormed i = true → decode (encode i ++ rest) = .ok (i, rest)

/-- Command bytes written out from the table of R58 decode to their requests, bytes the block never emits (R62) do not. The
bytes 0x61, 0xE1, 0xE2, 0xE3, 0x60 and 0xFF are PRESUMED (notes/assumptions/12.md), and the record around the command byte
is the model's own (notes/assumptions/1.md). -/
def Obligations.SpecWordsDecode : Prop :=
  decodeTableWord 8 0xFF = some .nop ∧ decodeTableWord 8 0xE1 = some .flushTx ∧
  decodeTableWord 8 0xE2 = some .flushRx ∧ decodeTableWord 8 0xE3 = some .reuseTxPayload ∧
  decodeTableWord 8 0x60 = some .readRxPayloadWidth ∧
  decode [0x50, 0x53] = .ok (.activate 0x53, []) ∧
  decode [0x24, 0x80, 0x00, 0x0B] = .ok (.writeRegister 0x84 [0x0B], []) ∧
  decode [0x07, 0x00, 0x00] = .ok (.readRegister 0x07 1, []) ∧
  decode [0xAD, 0x00, 0x10] = .ok (.writeAckPayload 5 [0x10], []) ∧
  decode [0xA0, 0x01, 0xAA, 0x55] = .ok (.writeTxPayload [0xAA, 0x55], []) ∧
  decode [0xB0, 0x00, 0x01] = .ok (.writeTxPayloadNoAck [0x01], []) ∧
  decode [0x61, 0x1F] = .ok (.readRxPayload 32, []) ∧
  decode [0x51] = .error (.unknownCode 0x51) ∧ decode [0x9F] = .error (.unknownCode 0x9F)

/-- The table of R59: command byte, direction and target bank of every command, for every operand. Six of the bytes, 0x61,
0xE1, 0xE2, 0xE3, 0x60 and 0xFF, are PRESUMED: R58 marks them as general knowledge (notes/assumptions/12.md). -/
def Obligations.CommandEncoderTable : Prop :=
  ∀ x : Byte,
    commandEncoder .readRegister x = ⟨0x00 ||| (x &&& 0x1F), .d2h, some (if x.getLsbD 7 then .b1 else .b0)⟩ ∧
    commandEncoder .writeRegister x = ⟨0x20 ||| (x &&& 0x1F), .h2d, some (if x.getLsbD 7 then .b1 else .b0)⟩ ∧
    commandEncoder .writeAckPayload x = ⟨0xA8 ||| (x &&& 0x07), .h2d, none⟩ ∧
    commandEncoder .writeTxPayload x = ⟨0xA0, .h2d, none⟩ ∧
    commandEncoder .writeTxPayloadNoAck x = ⟨0xB0, .h2d, none⟩ ∧
    commandEncoder .activate x = ⟨0x50, .h2d, none⟩ ∧
    commandEncoder .readRxPayload x = ⟨0x61, .d2h, none⟩ ∧
    commandEncoder .readRxPayloadWidth x = ⟨0x60, .d2h, none⟩ ∧
    commandEncoder .nop x = ⟨0xFF, .d2h, none⟩ ∧
    commandEncoder .flushTx x = ⟨0xE1, .none, none⟩ ∧
    commandEncoder .flushRx x = ⟨0xE2, .none, none⟩ ∧
    commandEncoder .reuseTxPayload x = ⟨0xE3, .none, none⟩

/-- Every command byte the block emits (R62) matches exactly one row of R58, whose bytes are PRESUMED for six rows
(notes/assumptions/12.md). -/
def Obligations.EmittedByteMatchesOneRow : Prop :=
  ∀ b : Byte, emittedByte b = true → ∃ o : Opcode, o.matchesByte b = true ∧ ∀ p : Opcode, p.matchesByte b = true → p = o

/-- The byte order of a register value (R33), for every register, width and value that fits; `deserialise` is the
inverse, both ways. -/
def Obligations.SerialiseByteOrder : Prop :=
  ∀ (la : Byte) (v w : Nat), v < 256 ^ w →
    serialise la v w =
      (if 0x80 ≤ la.toNat ∧ la.toNat ≤ 0x87 then
        (List.range w).map fun i => BitVec.ofNat 8 (v >>> (8 * (w - 1 - i)))
      else (List.range w).map fun i => BitVec.ofNat 8 (v >>> (8 * i))) ∧
    deserialise la (serialise la v w) = v ∧
    ∀ bs : List Byte, serialise la (deserialise la bs) bs.length = bs

/-! ### The bus -/

/-- Whatever the request and whatever the outside does, the trace stays a sequence of complete frames: CSA and CSD
alternate, exchanges lie between them, the first is a byte of R62, every CSD is followed by DLY(20), only CE drives fall
between frames. The framing is derived from R74 (R75), the delay is R79's, and the list of first bytes is R62's, six of
them PRESUMED (notes/assumptions/12.md). Chip-select ends deasserted. -/
def Obligations.RequestsEmitLegalFrames : Prop :=
  ∀ (i : Instr) (s t : State), exec i s = .next t → LegalTrace s.trace → s.cs = .deasserted →
    LegalTrace t.trace ∧ t.cs = .deasserted

/-- The sequencer counts primitive actions (R16): from Busy(i, k), a transaction, the bank guard, a register request and a
drive of chip-enable leave it at Busy(i, k + m), m the number of events appended to the trace, whether they complete or
fail. -/
def Obligations.SequencerCountsActions : Prop :=
  ∀ (i : Instr) (k : Nat) (s : State), s.phase = .busy i k →
    (∀ cmd buf n dir r t, (execute cmd buf n dir).run s = .ok r t ∨ (∃ e, (execute cmd buf n dir).run s = .error e t) →
      ∃ ev, t.trace = s.trace ++ ev ∧ t.phase = .busy i (k + ev.length)) ∧
    (∀ b u t, (ensureBank b).run s = .ok u t ∨ (∃ e, (ensureBank b).run s = .error e t) →
      ∃ ev, t.trace = s.trace ++ ev ∧ t.phase = .busy i (k + ev.length)) ∧
    (∀ la n r t, (rreg la n).run s = .ok r t ∨ (∃ e, (rreg la n).run s = .error e t) →
      ∃ ev, t.trace = s.trace ++ ev ∧ t.phase = .busy i (k + ev.length)) ∧
    (∀ la v r t, (wreg la v).run s = .ok r t ∨ (∃ e, (wreg la v).run s = .error e t) →
      ∃ ev, t.trace = s.trace ++ ev ∧ t.phase = .busy i (k + ev.length)) ∧
    ∀ l, ∃ t, (driveCe l).run s = .ok () t ∧ t.trace = s.trace ++ [.ce l] ∧ t.ce = l ∧ t.phase = .busy i (k + 1)

/-! ### The command requests -/

/-- ReadRegister completes (R84): defined address, 1 to REG_WIDTH bytes (the width table is PRESUMED,
notes/assumptions/11.md), no exchange faults. -/
def Obligations.ReadRegisterCompletes : Prop :=
  ∀ (la : Byte) (n : Nat) (s : State), RegisterAddr la → 1 ≤ n → n ≤ regWidth la → NoFault s →
    ∃ t, exec (.readRegister la n) s = .next t ∧
      CommandCompleted (0x00 ||| (la &&& 0x1F)) (some (if la.getLsbD 7 then .b1 else .b0)) [] n .d2h s t

/-- WriteRegister completes (R85), under the same conditions. -/
def Obligations.WriteRegisterCompletes : Prop :=
  ∀ (la : Byte) (v : List Byte) (s : State), RegisterAddr la → 1 ≤ v.length → v.length ≤ regWidth la → NoFault s →
    ∃ t, exec (.writeRegister la v) s = .next t ∧
      CommandCompleted (0x20 ||| (la &&& 0x1F)) (some (if la.getLsbD 7 then .b1 else .b0)) v v.length .h2d s t

/-- The two payload reads complete (R86, R94), without bank work. Their bytes 0x61 and 0x60 are PRESUMED
(notes/assumptions/12.md). -/
def Obligations.PayloadReadsComplete : Prop :=
  ∀ (n : Nat) (s : State), 1 ≤ n → n ≤ 32 → NoFault s →
    (∃ t, exec (.readRxPayload n) s = .next t ∧ CommandCompleted 0x61 none [] n .d2h s t) ∧
    ∃ t, exec .readRxPayloadWidth s = .next t ∧ CommandCompleted 0x60 none [] 1 .d2h s t

/-- The payload writes and Activate complete (R87, R88, R89, R93), without bank work; Activate with any sub-command. -/
def Obligations.PayloadWritesComplete : Prop :=
  ∀ (v : List Byte) (p : Nat) (b : Byte) (s : State), 1 ≤ v.length → v.length ≤ 32 → p ≤ 5 → NoFault s →
    (∃ t, exec (.writeTxPayload v) s = .next t ∧ CommandCompleted 0xA0 none v v.length .h2d s t) ∧
    (∃ t, exec (.writeTxPayloadNoAck v) s = .next t ∧ CommandCompleted 0xB0 none v v.length .h2d s t) ∧
    (∃ t, exec (.writeAckPayload p v) s = .next t ∧
      CommandCompleted (0xA8 ||| BitVec.ofNat 8 p) none v v.length .h2d s t) ∧
    ∃ t, exec (.activate b) s = .next t ∧ CommandCompleted 0x50 none [b] 1 .h2d s t

/-- The commands without a payload complete (R90, R91, R92, R95): one exchange (R78), without bank work. The bytes 0xE1,
0xE2, 0xE3 and 0xFF are PRESUMED (notes/assumptions/12.md). -/
def Obligations.BareCommandsComplete : Prop :=
  ∀ s : State, NoFault s →
    (∃ t, exec .flushTx s = .next t ∧ CommandCompleted 0xE1 none [] 0 .none s t) ∧
    (∃ t, exec .flushRx s = .next t ∧ CommandCompleted 0xE2 none [] 0 .none s t) ∧
    (∃ t, exec .reuseTxPayload s = .next t ∧ CommandCompleted 0xE3 none [] 0 .none s t) ∧
    ∃ t, exec .nop s = .next t ∧ CommandCompleted 0xFF none [] 0 .d2h s t

/-! ### Errors -/

/-- The operand checks of the register requests (R28, R30), in the order of R116: refused before any bus access, no
state field changed but the result returned. The widths are the table of R29, given here as numbers: the 11 bytes of the
ramp are the source's, the rest is PRESUMED (notes/assumptions/11.md). -/
def Obligations.RegisterRequestsRefused : Prop :=
  ∀ (la : Byte) (n : Nat) (v : List Byte) (s : State), s.phase = .idle →
    (¬ RegisterAddr la → exec (.readRegister la n) s = .next (s.putResult (.err .invalidOperand)) ∧
      exec (.writeRegister la v) s = .next (s.putResult (.err .invalidOperand))) ∧
    exec (.readRegister la 0) s = .next (s.putResult (.err .invalidOperand)) ∧
    exec (.writeRegister la []) s = .next (s.putResult (.err .invalidOperand)) ∧
    ∀ w, w = (if la = 0x0A ∨ la = 0x0B ∨ la = 0x10 then 5 else if la.toNat ≤ 0x1D then 1 else if la = 0x8E then 11
      else 4) → RegisterAddr la →
      regWidth la = w ∧
      (w < n → exec (.readRegister la n) s = .next (s.putResult (.err .payloadTooLarge))) ∧
      (w < v.length → exec (.writeRegister la v) s = .next (s.putResult (.err .payloadTooLarge)))

/-- The operand checks of the payload requests (R31, R61), in the order of R116. -/
def Obligations.PayloadRequestsRefused : Prop :=
  ∀ (n p : Nat) (v : List Byte) (s : State), s.phase = .idle →
    exec (.readRxPayload 0) s = .next (s.putResult (.err .invalidOperand)) ∧
    exec (.writeTxPayload []) s = .next (s.putResult (.err .invalidOperand)) ∧
    exec (.writeTxPayloadNoAck []) s = .next (s.putResult (.err .invalidOperand)) ∧
    exec (.writeAckPayload p []) s = .next (s.putResult (.err .invalidOperand)) ∧
    (5 < p → exec (.writeAckPayload p v) s = .next (s.putResult (.err .invalidOperand))) ∧
    (32 < n → exec (.readRxPayload n) s = .next (s.putResult (.err .payloadTooLarge))) ∧
    (32 < v.length → exec (.writeTxPayload v) s = .next (s.putResult (.err .payloadTooLarge)) ∧
      exec (.writeTxPayloadNoAck v) s = .next (s.putResult (.err .payloadTooLarge)) ∧
      (p ≤ 5 → exec (.writeAckPayload p v) s = .next (s.putResult (.err .payloadTooLarge))))

/-- Which request raises which error, and in which order (R113, R114, R116): the operand error of the request where it has
one, and then nothing is emitted and nothing changed; else an Ok, or a TransportFailure at the first exchange that
faulted. The widths R114 compares with are PRESUMED (notes/assumptions/11.md), and the order of the checks is the spec's own
decision. -/
def Obligations.ErrorsInOrder : Prop :=
  ∀ (i : Instr) (s : State), s.phase = .idle →
    ∃ t, exec i s = .next t ∧
      (∀ e, operandError i = some e → t = s.putResult (.err e)) ∧
      (operandError i = none →
        (∃ st d, t.results = s.results ++ [.ok st d]) ∨ TransportFailed s t)

/-- A request other than a reset appends at most one faulted exchange, and returns TransportFailure exactly where it has
one (R115: the fault report is the only source of this error); a TransportFailure leaves what R117 says. The exchanges that
fault are those whose ordinal, counted on from the exchanges before, is in `F` (R53). -/
def Obligations.TransportFailureExactlyOnFault : Prop :=
  ∀ (i : Instr) (s t : State), i ≠ .reset → exec i s = .next t →
    ∃ ev, t.trace = s.trace ++ ev ∧ faultCount ev ≤ 1 ∧
      (faultCount ev = 1 ↔ t.results = s.results ++ [.err .transportFailure]) ∧
      (t.results = s.results ++ [.err .transportFailure] → TransportFailed s t) ∧
      FaultsBy s.faultSet s.exchanges ev ∧ t.exchanges = s.exchanges + exchangeCount ev ∧ t.faultSet = s.faultSet ∧
      t.sessionFaults = s.sessionFaults

/-- Every request returns exactly one result (R112), Idle again with the request port as it was (R16); `Ok(None, [])`
exactly where no transaction was issued and no error occurred. The codes of the errors are 1, 2, 3. RESET's own result
is the model's reading (notes/assumptions/5.md). -/
def Obligations.EveryRequestReturnsOneResult : Prop :=
  (∀ (i : Instr) (s : State), ∃ t r, exec i s = .next t ∧ t.results = s.results ++ [r] ∧ t.phase = .idle ∧
    t.port = s.port ∧
    (i ≠ .reset → ∃ ev, t.trace = s.trace ++ ev ∧ (∀ d, r = .ok none d → d = [] ∧ ev = []) ∧
      ∀ st d, r = .ok (some st) d → 1 ≤ transactions ev)) ∧
  Err.code .invalidOperand = 1 ∧ Err.code .payloadTooLarge = 2 ∧ Err.code .transportFailure = 3

/-! ### The BankTracker -/

/-- The target bank of a register request is bit 7 of its address, and no other command has one (R66). -/
def Obligations.TargetBankIsBitSeven : Prop :=
  ∀ (o : Opcode) (x : Byte),
    (o = .readRegister ∨ o = .writeRegister →
      (x.getLsbD 7 = false → (commandEncoder o x).bank = some .b0) ∧
      (x.getLsbD 7 = true → (commandEncoder o x).bank = some .b1)) ∧
    (o ≠ .readRegister → o ≠ .writeRegister → (commandEncoder o x).bank = none)

/-- For one register request the bank guard issues at most one toggle, none where the belief or the resolved bank equals the
target (R71), whatever the outside does and whether or not the access completes. The bank bit of the byte read is STATUS
bit 7, PRESUMED (notes/assumptions/13.md). -/
def Obligations.AtMostOneToggle : Prop :=
  ∀ (i : Instr) (la : Byte) (s t : State), (∃ n, i = .readRegister la n) ∨ (∃ v, i = .writeRegister la v) →
    exec i s = .next t →
    ∃ ev, t.trace = s.trace ++ ev ∧ (commandBytes ev).count 0x50 ≤ 1 ∧
      (s.currentBank = .known (bankOf la) → (commandBytes ev).count 0x50 = 0) ∧
      (∀ st f d rest, s.currentBank = .unknown → ev = frameEvents 0x07 st [f] [d] ++ rest → statusBank d = bankOf la →
        (commandBytes ev).count 0x50 = 0)

/-- The table of R70, all eight rows, against the reference emulation: the command bytes of a read of any register, and the
belief after it. The widths and the bank bit are PRESUMED (notes/assumptions/11.md, 13.md). -/
def Obligations.BankWorkTable : Prop :=
  ∀ (la : Byte) (n : Nat) (s : State), OnBench s → RegisterAddr la → 1 ≤ n → n ≤ regWidth la →
    ∃ t ev, exec (.readRegister la n) s = .next t ∧ t.trace = s.trace ++ ev ∧ t.currentBank = .known (bankOf la) ∧
      commandBytes ev =
        (match s.currentBank with
          | .known c => if c = bankOf la then [] else [0x50]
          | .unknown => 0x07 :: (if s.dev.bank = bankOf la then [] else [0x50])) ++ [la &&& 0x1F]

/-- What a failed register request has issued and the belief it leaves (R72): `current_bank` is written only after the
transaction that justifies it. The transaction cut short, be it the resolution, the toggle or the request's own, has sent
its command byte and a prefix of its payload in buffer order, or received less than its length (R32, R74, R80). The bank bit of a resolution read is PRESUMED (notes/assumptions/13.md). -/
def Obligations.BeliefAfterFailure : Prop :=
  ∀ (i : Instr) (la cmd : Byte) (buf : List Byte) (n : Nat) (dir : Direction) (s t : State),
    (i = .readRegister la n ∧ cmd = 0x00 ||| (la &&& 0x1F) ∧ buf = [] ∧ dir = .d2h) ∨
      (i = .writeRegister la buf ∧ cmd = 0x20 ||| (la &&& 0x1F) ∧ n = buf.length ∧ dir = .h2d) →
    exec i s = .next t → t.results = s.results ++ [.err .transportFailure] →
    ∃ ev, t.trace = s.trace ++ ev ∧ FailedAt s.currentBank (bankOf la) cmd buf n dir ev t.currentBank

/-- A byte the primitive returns is data (R73): a resolution read of which neither exchange faults takes the bank from the
byte received, a zero byte as bank 0, with no error. The bank bit is STATUS bit 7, PRESUMED (notes/assumptions/13.md). -/
def Obligations.ResolutionTakesTheByte : Prop :=
  ∀ (s : State) (st d : Byte) (m : Move) (rest : List Move), s.world = m :: rest → m.wire = [.byte st, .byte d] →
    s.exchanges ∉ s.faultSet → s.exchanges + 1 ∉ s.faultSet →
    ∃ t f, resolve.run s = .ok () t ∧ t.currentBank = .known (statusBank d) ∧
      t.trace = s.trace ++ frameEvents 0x07 st [f] [d] ∧ (d = 0x00 → t.currentBank = .known .b0)

/-- A request that is not register-targeted neither reads nor writes the belief and issues at most one transaction (R67). -/
def Obligations.UnguardedRequestsKeepBelief : Prop :=
  ∀ (i : Instr) (s t : State), usesRegisters i = false → i ≠ .reset → exec i s = .next t →
    t.currentBank = s.currentBank ∧ ∃ ev, t.trace = s.trace ++ ev ∧ transactions ev ≤ 1

/-- Against the reference emulation, every request but a raw toggle keeps the belief right where the block holds one, and
leaves no frame open (R20). -/
def Obligations.BeliefStaysRight : Prop :=
  ∀ (i : Instr) (s t : State), OnBench s → Agrees s → i ≠ .activate 0x53 → exec i s = .next t → OnBench t ∧ Agrees t

/-- A register request, completed against the reference emulation from a right belief, found the device in its target
bank when its own transaction was issued, as the bank bit of the status byte of that transaction shows (R20, R40, R43);
belief and device both end there. The bank bit is STATUS bit 7, PRESUMED (notes/assumptions/13.md), as the widths are
(notes/assumptions/11.md). -/
def Obligations.RegisterRequestReachesItsBank : Prop :=
  ∀ (i : Instr) (la : Byte) (s t : State), OnBench s → Agrees s → operandError i = none →
    (∃ n, i = .readRegister la n) ∨ (∃ v, i = .writeRegister la v) → exec i s = .next t →
    (∃ st d, t.results = s.results ++ [.ok (some st) d] ∧ statusBank st = bankOf la) ∧
    t.currentBank = .known (bankOf la) ∧ t.dev.bank = bankOf la

/-- A raw `ACT 0x53` flips the device's bank, changes nothing else of the device and leaves the belief (R51, R130); a second
one restores the device. Any other sub-command leaves the emulation's device as it was (R51; what a real device makes of it
is open, notes/assumptions/27.md). -/
def Obligations.RawToggleDesynchronises : Prop :=
  ∀ s : State, OnBench s →
    (∃ t u, exec (.activate 0x53) s = .next t ∧ exec (.activate 0x53) t = .next u ∧
      t.currentBank = s.currentBank ∧ t.dev = { s.dev with bank := s.dev.bank.other } ∧
      (∀ b, s.currentBank = .known b → Agrees s → ¬ Agrees t) ∧ u.currentBank = s.currentBank ∧ u.dev = s.dev) ∧
    ∀ b : Byte, b ≠ 0x53 → ∃ t, exec (.activate b) s = .next t ∧ t.dev = s.dev ∧ t.currentBank = s.currentBank

/-- After a raw toggle a write meant for CONFIG writes bank-1 register 0 (R130). -/
def Obligations.DesynchronisedWriteMissesConfig : Prop :=
  ∀ (s : State) (c : Byte), OnBench s → s.currentBank = .known .b0 → s.dev.bank = .b1 →
    ∃ t, exec (.writeRegister 0x00 [c]) s = .next t ∧ t.dev.cell (cellAddr 0x80 0) = c ∧
      ∀ a, a ≠ cellAddr 0x80 0 → t.dev.cell a = s.dev.cell a

/-! ### The ModeController

The addresses of CONFIG and RF_SETUP and the places of PWR_UP, PRIM_RX and the bank bit are PRESUMED
(notes/assumptions/13.md): every statement of this section and the next rests on them where it names 0x00, 0x06, 0x20, 0x26
or a bit of a byte. -/

/-- PowerDown completes (R98; CONFIG and PWR_UP: notes/assumptions/13.md). -/
def Obligations.PowerDownCompletes : Prop :=
  ∀ s : State, NoFault s → ∃ t bw st₁ f c st₂ r, exec .modePD s = .next t ∧ Ended s t ∧
    BankWork s.currentBank .b0 bw ∧
    t.trace = s.trace ++ [.ce .low] ++ bw ++ frameEvents 0x00 st₁ [f] [c] ++ frameEvents 0x20 st₂ [c &&& 0xFD] [r] ∧
    t.results = s.results ++ [.ok (some st₂) []] ∧ t.ce = .low ∧ t.modeTrack = some .powerDown ∧
    t.currentBank = .known .b0 ∧ t.cs = .deasserted

/-- StandbyI completes (R99; CONFIG and PWR_UP: notes/assumptions/13.md). -/
def Obligations.StandbyICompletes : Prop :=
  ∀ s : State, NoFault s → ∃ t bw st₁ f c st₂ r, exec .modeSB s = .next t ∧ Ended s t ∧
    BankWork s.currentBank .b0 bw ∧
    t.trace = s.trace ++ [.ce .low] ++ bw ++ frameEvents 0x00 st₁ [f] [c] ++ frameEvents 0x20 st₂ [c ||| 0x02] [r] ∧
    t.results = s.results ++ [.ok (some st₂) []] ∧ t.ce = .low ∧ t.modeTrack = some .standbyI ∧
    t.currentBank = .known .b0 ∧ t.cs = .deasserted

/-- RX completes (R100): the STATUS write-back strictly before chip-enable goes low and CONFIG is written (CONFIG, PWR_UP
and PRIM_RX: notes/assumptions/13.md). -/
def Obligations.RxCompletes : Prop :=
  ∀ s : State, NoFault s → ∃ t bw st₁ f₁ d st₂ r₁ st₃ f₂ c st₄ r₂, exec .modeRX s = .next t ∧ Ended s t ∧
    BankWork s.currentBank .b0 bw ∧
    t.trace = s.trace ++ bw ++ frameEvents 0x07 st₁ [f₁] [d] ++ frameEvents 0x27 st₂ [d] [r₁] ++ [.ce .low] ++
      frameEvents 0x00 st₃ [f₂] [c] ++ frameEvents 0x20 st₄ [c ||| 0x03] [r₂] ++ [.ce .high] ∧
    t.results = s.results ++ [.ok (some st₄) []] ∧ t.ce = .high ∧ t.modeTrack = some .rx ∧
    t.currentBank = .known .b0 ∧ t.cs = .deasserted

/-- TX completes (R101): of the byte read, only PWR_UP survives (CONFIG and PWR_UP: notes/assumptions/13.md). -/
def Obligations.TxCompletes : Prop :=
  ∀ s : State, NoFault s → ∃ t bw st₁ f c st₂ r, exec .modeTX s = .next t ∧ Ended s t ∧
    BankWork s.currentBank .b0 bw ∧
    t.trace = s.trace ++ [.ce .low] ++ bw ++ frameEvents 0x00 st₁ [f] [c] ++ frameEvents 0x20 st₂ [c &&& 0x02] [r] ++
      [.ce .high] ∧
    t.results = s.results ++ [.ok (some st₂) []] ∧ t.ce = .high ∧ t.modeTrack = some .tx ∧
    t.currentBank = .known .b0 ∧ t.cs = .deasserted

/-- A mode transition or a SETPWR that fails (R72, R103, R117): it ends at the faulted transaction, `mode_track` is not
written, `ce` keeps the level last driven. The belief: as R72 leaves it where the first register access, of command byte
`cmd`, failed; bank 0 where that access completed, returning `d`, and a later one failed. What was then issued is `later d`:
for PD, SB, TX and SETPWR the write of the changed byte, cut short, with no bank work before it; for RX the write-back of
STATUS, the CONFIG read or the CONFIG write, cut short, with chip-enable driven low where the write-back had completed.
CONFIG and RF_SETUP are PRESUMED (notes/assumptions/13.md), the fold of SETPWR is OPEN (notes/assumptions/9.md). -/
def Obligations.FailedTransitionStops : Prop :=
  ∀ (i : Instr) (pre : List Event) (cmd : Byte) (later : Byte → List Event → Prop) (s t : State),
    (i = .modePD ∧ pre = [.ce .low] ∧ cmd = 0x00 ∧ later = fun d => CutEvents 0x20 [d &&& 0xFD] 1 .h2d) ∨
      (i = .modeSB ∧ pre = [.ce .low] ∧ cmd = 0x00 ∧ later = fun d => CutEvents 0x20 [d ||| 0x02] 1 .h2d) ∨
      (i = .modeTX ∧ pre = [.ce .low] ∧ cmd = 0x00 ∧ later = fun d => CutEvents 0x20 [d &&& 0x02] 1 .h2d) ∨
      (i = .modeRX ∧ pre = [] ∧ cmd = 0x07 ∧ later = RxFailedAfterRead) ∨
      (∃ level, i = .setPwr level ∧ pre = [] ∧ cmd = 0x06 ∧
        later = fun d => CutEvents 0x26 [Config.powerFold d level] 1 .h2d) →
    exec i s = .next t → t.results = s.results ++ [.err .transportFailure] →
    t.modeTrack = s.modeTrack ∧
      (∃ done out, faultCount done = 0 ∧ t.trace = s.trace ++ (done ++ [.xf out, .csd, .dly 20]) ∧
        t.ce = lastLevel s.ce done) ∧
      ∃ ev, t.trace = s.trace ++ pre ++ ev ∧
        (FailedAt s.currentBank .b0 cmd [] 1 .d2h ev t.currentBank ∨
          (t.currentBank = .known .b0 ∧ ∃ bw st f d ev', BankWork s.currentBank .b0 bw ∧
            ev = bw ++ frameEvents cmd st [f] [d] ++ ev' ∧ later d ev'))

/-- Chip-enable is the level last driven, and only a mode transition drives it or records a mode (R13, R15). -/
def Obligations.OnlyTransitionsDriveChipEnable : Prop :=
  ∀ (i : Instr) (s t : State), i ≠ .reset → exec i s = .next t →
    ∃ ev, t.trace = s.trace ++ ev ∧ t.ce = lastLevel s.ce ev ∧
      (isTransition i = false → t.modeTrack = s.modeTrack ∧ ∀ l, Event.ce l ∉ ev)

/-- The table of R97: what each completed transition leaves in CONFIG and on chip-enable, from the CONFIG it found, the
reference emulation being the only other agent. R97 is derived from R98 to R101; CONFIG and its bits are PRESUMED
(notes/assumptions/13.md). -/
def Obligations.ModeTable : Prop :=
  ∀ s : State, OnBench s → Agrees s →
    let old := s.dev.cell (cellAddr 0x00 0)
    (∃ t, exec .modePD s = .next t ∧ t.ce = .low ∧
      let new := t.dev.cell (cellAddr 0x00 0)
      configPwrUp new = false ∧ configPrimRx new = configPrimRx old ∧ new &&& 0xFC = old &&& 0xFC) ∧
    (∃ t, exec .modeSB s = .next t ∧ t.ce = .low ∧
      let new := t.dev.cell (cellAddr 0x00 0)
      configPwrUp new = true ∧ configPrimRx new = configPrimRx old ∧ new &&& 0xFC = old &&& 0xFC) ∧
    (∃ t, exec .modeRX s = .next t ∧ t.ce = .high ∧
      let new := t.dev.cell (cellAddr 0x00 0)
      configPwrUp new = true ∧ configPrimRx new = true ∧ new &&& 0xFC = old &&& 0xFC) ∧
    ∃ t, exec .modeTX s = .next t ∧ t.ce = .high ∧
      let new := t.dev.cell (cellAddr 0x00 0)
      configPwrUp new = configPwrUp old ∧ configPrimRx new = false ∧ new &&& 0xFC = 0

/-- PowerDown, StandbyI, RX ends with PWR_UP and PRIM_RX set and chip-enable high (R102; CONFIG and its bits:
notes/assumptions/13.md). -/
def Obligations.PowerUpSequence : Prop :=
  ∀ s : State, OnBench s → Agrees s →
    ∃ t u v, exec .modePD s = .next t ∧ exec .modeSB t = .next u ∧ exec .modeRX u = .next v ∧ v.ce = .high ∧
      v.modeTrack = some .rx ∧ configPwrUp (v.dev.cell (cellAddr 0x00 0)) = true ∧
      configPrimRx (v.dev.cell (cellAddr 0x00 0)) = true

/-- Entering RX clears the three latched flags and leaves the rest of STATUS; no other transition touches STATUS; no
transition touches any byte of a register but CONFIG's and STATUS's (R25, R100). That the write-back clears the flags is
write-1-to-clear, PRESUMED (notes/assumptions/14.md), as CONFIG and the flags' bits are (notes/assumptions/13.md). -/
def Obligations.OnlyRxClearsLatches : Prop :=
  ∀ (i : Instr) (s t : State), OnBench s → Agrees s → isTransition i = true → exec i s = .next t →
    (t.dev.cell (cellAddr 0x07 0) = if i = .modeRX then s.dev.cell (cellAddr 0x07 0) &&& 0x8F
      else s.dev.cell (cellAddr 0x07 0)) ∧
    (∀ a, a ≠ cellAddr 0x00 0 → a ≠ cellAddr 0x07 0 → t.dev.cell a = s.dev.cell a) ∧
    t.dev.tx = s.dev.tx ∧ t.dev.rx = s.dev.rx ∧ t.dev.ack = s.dev.ack

/-! ### Power level, initialisation, reset -/

/-- SETPWR at or above the threshold changes nothing and returns `Ok(None, [])` (R105). -/
def Obligations.PowerLevelAtThresholdDoesNothing : Prop :=
  ∀ (level : Nat) (s : State), Config.powerLevels ≤ level → s.phase = .idle →
    exec (.setPwr level) s = .next (s.putResult (.ok none []))

/-- SETPWR completes (R104): below the threshold the read-modify-write of RF_SETUP, at or above it nothing. The threshold
and the fold are OPEN (notes/assumptions/9.md), RF_SETUP's address is PRESUMED (notes/assumptions/13.md). -/
def Obligations.SetPowerLevelCompletes : Prop :=
  ∀ (level : Nat) (s : State), NoFault s →
    ∃ t, exec (.setPwr level) s = .next t ∧ Ended s t ∧ t.ce = s.ce ∧ t.modeTrack = s.modeTrack ∧
      if level < Config.powerLevels then
        ∃ bw st₁ f r st₂ r', BankWork s.currentBank .b0 bw ∧
          t.trace = s.trace ++ bw ++ frameEvents 0x06 st₁ [f] [r] ++
            frameEvents 0x26 st₂ [Config.powerFold r level] [r'] ∧
          t.results = s.results ++ [.ok (some st₂) []] ∧ t.currentBank = .known .b0 ∧ t.cs = .deasserted
      else t.trace = s.trace ∧ t.results = s.results ++ [.ok none []] ∧ t.currentBank = s.currentBank ∧ t.cs = s.cs ∧
        t.dev = s.dev

/-- The same for every threshold and every fold (R104, R106): the body of SETPWR below a given threshold (RF_SETUP's address:
notes/assumptions/13.md). -/
def Obligations.PowerLevelForEveryFold : Prop :=
  ∀ (levels level : Nat) (fold : Byte → Nat → Byte) (s : State), level < levels → NoFault s →
    ∃ t bw st₁ f r st₂ r', (powerBody levels fold level).run s = .ok (some st₂, []) t ∧
      BankWork s.currentBank .b0 bw ∧
      t.trace = s.trace ++ bw ++ frameEvents 0x06 st₁ [f] [r] ++ frameEvents 0x26 st₂ [fold r level] [r'] ∧
      t.currentBank = .known .b0

/-- INIT completes (R108): bank work to bank 1 once, then one WriteRegister per entry of the blob, in order, byte order by
R109. Every entry of the blob names a bank-1 register, and its value fits the register (R107), so that the bytes sent are
the value (the widths: notes/assumptions/11.md; the blob: notes/assumptions/10.md). -/
def Obligations.InitCompletes : Prop :=
  (∀ s : State, NoFault s → ∃ t bw ev last, exec .init s = .next t ∧ Ended s t ∧ BankWork s.currentBank .b1 bw ∧
    ReplayEvents initBlob none ev last ∧ t.trace = s.trace ++ bw ++ ev ∧ t.results = s.results ++ [.ok last []] ∧
    t.currentBank = .known .b1 ∧ t.ce = s.ce ∧ t.modeTrack = s.modeTrack ∧ t.cs = .deasserted) ∧
  ∀ e ∈ initBlob, 0x80 ≤ (entryAddr e).toNat ∧ (entryAddr e).toNat ≤ 0x8E ∧
    e.value.toNat < 256 ^ regWidth (entryAddr e) ∧ deserialise (entryAddr e) (entryBytes e) = e.value.toNat

/-- The replay of any blob (R107, R108): an empty one issues nothing and returns `Ok(None, [])`. -/
def Obligations.ReplayOfAnyBlob : Prop :=
  ∀ (blob : List InitEntry) (s : State), NoFault s →
    ((replay [] none).run s = .ok (none, []) s) ∧
    (blob ≠ [] → ∃ t bw ev last, (replay blob none).run s = .ok (some last, []) t ∧ BankWork s.currentBank .b1 bw ∧
      ReplayEvents blob none ev (some last) ∧ t.trace = s.trace ++ bw ++ ev ∧ t.currentBank = .known .b1)

/-- A completed INIT ends by writing one register twice, back to back: once with two bits of the high byte set, then the
same value with those two bits cleared (R110), each time every byte of the value. That the pulse is the blob's last two entries is how the model holds the
blob (notes/assumptions/10.md). -/
def Obligations.InitEndsWithTogglePulse : Prop :=
  ∀ s : State, NoFault s → ∃ t pre st₁ r₁ st₂ r₂ reg, ∃ x y : BitVec (8 * regWidth (blobAddr reg)), ∃ a b : Nat,
    exec .init s = .next t ∧
    t.trace = s.trace ++ pre ++ frameEvents (entryCommand ⟨reg, x⟩) st₁ (entryBytes ⟨reg, x⟩) r₁ ++
      frameEvents (entryCommand ⟨reg, y⟩) st₂ (entryBytes ⟨reg, y⟩) r₂ ∧
    r₁.length = (entryBytes ⟨reg, x⟩).length ∧ r₂.length = (entryBytes ⟨reg, y⟩).length ∧
    a ≠ b ∧ 8 * (regWidth (blobAddr reg) - 1) ≤ a ∧ a < 8 * regWidth (blobAddr reg) ∧
    8 * (regWidth (blobAddr reg) - 1) ≤ b ∧ b < 8 * regWidth (blobAddr reg) ∧
    x.getLsbD a = true ∧ x.getLsbD b = true ∧ ∀ k, y.getLsbD k = (x.getLsbD k && k != a && k != b)

/-- A failed INIT has written a prefix of the blob and cut one transaction short (R111): the bank work of the first entry,
or the write of an entry, which has sent a prefix of the entry's bytes (R32, R80). -/
def Obligations.FailedInitIsAPrefix : Prop :=
  ∀ s t : State, exec .init s = .next t → t.results = s.results ++ [.err .transportFailure] →
    ∃ written e rest ev, initBlob = written ++ e :: rest ∧ t.trace = s.trace ++ ev ∧
      ((written = [] ∧ FailedAt s.currentBank .b1 (entryCommand e) (entryBytes e) (entryBytes e).length .h2d ev
          t.currentBank) ∨
        (written ≠ [] ∧ t.currentBank = .known .b1 ∧ ∃ bw ev₁ last ev₂, BankWork s.currentBank .b1 bw ∧
          ReplayEvents written none ev₁ last ∧
          CutEvents (entryCommand e) (entryBytes e) (entryBytes e).length .h2d ev₂ ∧ ev = bw ++ ev₁ ++ ev₂))

/-- RESET sets every field of the block to its reset value, as State.reset has it, emits no event and leaves the device
(R126). The exchanges are counted from 0 again, and the set `F` of exchanges that fault is the new session's own, empty by
default (R53, spec/95_test_vectors.md P4). The model's choices, not the spec's: that the OPEN level CE_INIT
is one constant (notes/assumptions/8.md), that no request is at the port of State.reset (notes/assumptions/4.md), and that
the sets `F` of the sessions to come are a list, `sessionFaults`, empty in State.reset, of which RESET takes the head and
leaves the tail (notes/assumptions/32.md). -/
def Obligations.ResetValues : Prop :=
  (State.reset.currentBank = .unknown ∧ State.reset.ce = Config.ceInit ∧ State.reset.cs = .deasserted ∧
    State.reset.modeTrack = none ∧ State.reset.phase = .idle ∧ State.reset.trace = [] ∧ State.reset.port = [] ∧
    State.reset.faultSet = [] ∧ State.reset.exchanges = 0 ∧ State.reset.sessionFaults = []) ∧
  ∀ s : State, ∃ t, exec .reset s = .next t ∧ t.currentBank = .unknown ∧ t.ce = Config.ceInit ∧ t.cs = .deasserted ∧
    t.modeTrack = none ∧ t.phase = .idle ∧ t.trace = [] ∧ t.exchanges = 0 ∧ t.dev = s.dev ∧
    (s.sessionFaults = [] → t.faultSet = []) ∧ ∀ F rest, s.sessionFaults = F :: rest → t.faultSet = F ∧ t.sessionFaults = rest

/-- RESET, exactly: what it leaves besides R126's fields (ports, results, the outside, the draws) and the result it returns
are the model's choices (notes/assumptions/5.md, 6.md). The exchanges are counted anew from each construction, and `F` is
the new session's (R53, spec/95_test_vectors.md P4); that the sets of the sessions to come are held as a list is the
model's choice (notes/assumptions/32.md). -/
def Obligations.ResetExactly : Prop :=
  ∀ s : State, exec .reset s = .next
    { s with
      currentBank := .unknown
      ce := Config.ceInit
      cs := .deasserted
      modeTrack := none
      phase := .idle
      trace := []
      faultSet := s.sessionFaults.headD []
      exchanges := 0
      sessionFaults := s.sessionFaults.tail
      results := s.results ++ [.ok none []] }

/-! ### The step -/

/-- A step of an Idle block runs the request at the port (R7, R8), and the request a table word decodes to; with nothing
at the port it waits. The spec states only that requests are serialised; the rest is the model's choice: that words decode
to requests (notes/assumptions/1.md), that one step is one whole request (notes/assumptions/2.md), that a Busy block, which
has no step at a request boundary (R8), answers the fault `sequencerBusy` (notes/assumptions/3.md), and that the port is a
list from which `step` takes the first and at whose head `withFetchWord` puts a request (notes/assumptions/4.md). -/
def Obligations.StepRunsThePresentedRequest : Prop :=
  (∀ (i : Instr) (rest : List Input) (s : State), s.phase = .idle → s.port = .request i :: rest →
    step s = exec i (s.setPort rest)) ∧
  (∀ (nbits w : Nat) (i : Instr) (s : State), decodeTableWord nbits w = some i →
    step (s.withFetchWord nbits w) = exec i (s.setPhase .idle)) ∧
  (∀ s : State, s.phase = .idle → s.port = [] → step s = .next s) ∧
  ∀ (s : State) (i : Instr) (k : Nat), s.phase = .busy i k → step s = .fault .sequencerBusy

/-- A device power cycle, or another outside change of the device, between requests: the block's fields do not change
(R127, R132), and the device is the event's, STATUS with its bit 7 stored as 0 (R47). That it is an input of the port is the
model's choice (notes/assumptions/23.md). -/
def Obligations.ExternalEventIsInvisible : Prop :=
  ∀ (s : State) (d : Device) (rest : List Input), s.phase = .idle → s.port = .external d :: rest →
    ∃ t, step s = .next t ∧ t.currentBank = s.currentBank ∧ t.ce = s.ce ∧ t.cs = s.cs ∧ t.modeTrack = s.modeTrack ∧
      t.phase = .idle ∧ t.trace = s.trace ∧ t.results = s.results ∧ t.port = rest ∧ t.dev.bank = d.bank ∧
      t.dev.tx = d.tx ∧ t.dev.rx = d.rx ∧ t.dev.ack = d.ack ∧
      (Memory.wf d.regs → ∀ a, t.dev.cell a = if a = cellAddr 0x07 0 then d.cell a &&& 0x7F else d.cell a)

/-! ### Invariants of every step -/

/-- Every step keeps the invariant, whatever the port brings and the outside does (R14, R16, R62, R75, R79, and R47: STATUS
bit 7 is stored as 0; six first bytes are PRESUMED, notes/assumptions/12.md; the canonical form of the device's memory is the
model's, notes/assumptions/19.md). -/
def Obligations.StepKeepsInv : Prop := ∀ s t : State, Inv s → step s = .next t → Inv t

/-- The invariant holds after reset. -/
def Obligations.ResetHasInv : Prop := Inv State.reset

/-! ### The device -/

/-- Writing bytes to a register and reading them back returns them (R49), for every register whose number is not 7 (the
widths: notes/assumptions/11.md). -/
def Obligations.WriteThenReadRoundTrip : Prop :=
  ∀ (la : Byte) (v : List Byte) (s : State), OnBench s → Agrees s → RegisterAddr la → la &&& 0x1F ≠ 7 →
    1 ≤ v.length → v.length ≤ regWidth la →
    ∃ t u st, exec (.writeRegister la v) s = .next t ∧ exec (.readRegister la v.length) t = .next u ∧
      u.results = t.results ++ [.ok (some st) v]

/-- WriteRegister of any register but STATUS stores its bytes at the register's first bytes and changes nothing else of the
device but the selected bank (R49; the widths: notes/assumptions/11.md). -/
def Obligations.WriteRegisterStores : Prop :=
  ∀ (la : Byte) (v : List Byte) (s : State), OnBench s → Agrees s → RegisterAddr la → la ≠ 0x07 → 1 ≤ v.length →
    v.length ≤ regWidth la →
    ∃ t, exec (.writeRegister la v) s = .next t ∧
      (∀ (i : Nat) (h : i < v.length), t.dev.cell (cellAddr la i) = v[i]) ∧
      (∀ a, a < cellAddr la 0 ∨ cellAddr la v.length ≤ a → t.dev.cell a = s.dev.cell a) ∧
      t.dev.tx = s.dev.tx ∧ t.dev.rx = s.dev.rx ∧ t.dev.ack = s.dev.ack

/-- A write of STATUS clears its latched flags wherever the byte written has them set and ignores its other bits; nothing
else of the device changes but the selected bank (R50). Write-1-to-clear is PRESUMED: R44 and R50 mark it as general
knowledge (notes/assumptions/14.md). -/
def Obligations.WriteStatusClearsFlags : Prop :=
  ∀ (b : Byte) (s : State), OnBench s → Agrees s →
    ∃ t, exec (.writeRegister 0x07 [b]) s = .next t ∧
      (∀ k, k < 8 → (t.dev.cell (cellAddr 0x07 0)).getLsbD k =
        ((s.dev.cell (cellAddr 0x07 0)).getLsbD k && !(b.getLsbD k && (k == 4 || k == 5 || k == 6)))) ∧
      (∀ a, a ≠ cellAddr 0x07 0 → t.dev.cell a = s.dev.cell a) ∧
      t.dev.tx = s.dev.tx ∧ t.dev.rx = s.dev.rx ∧ t.dev.ack = s.dev.ack

/-- ReadRegister returns the register's bytes, register number 7 showing the status view first in either bank, and the
status byte echoed with the target bank in bit 7 (R43, R48, R49); it changes nothing of the device but the selected
bank. The widths and the bank bit are PRESUMED (notes/assumptions/11.md, 13.md), and register number 7 of bank 1 is DEDUCED
(notes/assumptions/28.md). -/
def Obligations.ReadRegisterReturnsRegister : Prop :=
  ∀ (la : Byte) (n : Nat) (s : State), OnBench s → Agrees s → RegisterAddr la → 1 ≤ n → n ≤ regWidth la →
    ∃ t, exec (.readRegister la n) s = .next t ∧
      (let view := statusSeen (s.dev.cell (cellAddr 0x07 0)) (bankOf la)
       t.results = s.results ++ [.ok (some view) ((List.range n).map fun i =>
        if la &&& 0x1F = 7 ∧ i = 0 then view else s.dev.cell (cellAddr la i))]) ∧
      t.dev = { s.dev with bank := bankOf la }

/-- No request but WriteRegister and those built from it changes a byte of a register (R49, R51). -/
def Obligations.OtherRequestsKeepRegisters : Prop :=
  ∀ (i : Instr) (s t : State), OnBench s → (usesRegisters i = false ∨ ∃ la n, i = .readRegister la n) →
    exec i s = .next t → ∀ a, t.dev.cell a = s.dev.cell a

/-- What SETPWR and INIT store in the device (R49, R104, R108): SETPWR the folded byte at RF_SETUP, INIT the bytes of
each entry of the blob at its register, a later entry over an earlier one; nothing else of the device changes but the
selected bank. RF_SETUP's address is PRESUMED (notes/assumptions/13.md), as the widths are (notes/assumptions/11.md). -/
def Obligations.SequencesStore : Prop :=
  ∀ s : State, OnBench s → Agrees s →
    (∀ level, ∃ t, exec (.setPwr level) s = .next t ∧
      t.dev.cell (cellAddr 0x06 0) = (if level < Config.powerLevels then
        Config.powerFold (s.dev.cell (cellAddr 0x06 0)) level else s.dev.cell (cellAddr 0x06 0)) ∧
      (∀ a, a ≠ cellAddr 0x06 0 → t.dev.cell a = s.dev.cell a) ∧
      t.dev.tx = s.dev.tx ∧ t.dev.rx = s.dev.rx ∧ t.dev.ack = s.dev.ack) ∧
    ∃ t, exec .init s = .next t ∧ t.dev.bank = .b1 ∧
      (∀ pre e post, initBlob = pre ++ e :: post → (∀ f ∈ post, f.reg ≠ e.reg) →
        ∀ (i : Nat) (h : i < (entryBytes e).length), t.dev.cell (cellAddr (entryAddr e) i) = (entryBytes e)[i]) ∧
      (∀ a, (∀ e ∈ initBlob, a < cellAddr (entryAddr e) 0 ∨ cellAddr (entryAddr e) (entryBytes e).length ≤ a) →
        t.dev.cell a = s.dev.cell a) ∧
      t.dev.tx = s.dev.tx ∧ t.dev.rx = s.dev.rx ∧ t.dev.ack = s.dev.ack

/-- The effects of the payload writes and the flushes on the FIFOs and the ACK payloads (R51); nothing else of the device
changes, and the status byte is the status view (R48). -/
def Obligations.PayloadWriteEffects : Prop :=
  ∀ (v : List Byte) (p : Nat) (s : State), OnBench s → 1 ≤ v.length → v.length ≤ 32 → (hp : p < 6) →
    let ok := s.results ++ [.ok (some s.dev.statusView) []]
    (∃ t, exec (.writeTxPayload v) s = .next t ∧ t.dev = { s.dev with tx := s.dev.tx ++ [v] } ∧ t.results = ok) ∧
    (∃ t, exec (.writeTxPayloadNoAck v) s = .next t ∧ t.dev = { s.dev with tx := s.dev.tx ++ [v] } ∧ t.results = ok) ∧
    (∃ t, exec (.writeAckPayload p v) s = .next t ∧ t.dev = { s.dev with ack := s.dev.ack.set p v hp } ∧ t.results = ok) ∧
    (∃ t, exec .flushTx s = .next t ∧ t.dev = { s.dev with tx := [] } ∧ t.results = ok) ∧
    (∃ t, exec .flushRx s = .next t ∧ t.dev = { s.dev with rx := [] } ∧ t.results = ok) ∧
    (∃ t, exec .reuseTxPayload s = .next t ∧ t.dev = s.dev ∧ t.results = ok) ∧
    ∃ t, exec .nop s = .next t ∧ t.dev = s.dev ∧ t.results = ok

/-- ReadRxPayload returns the head of the RX FIFO, zeros past its end, and removes it; ReadRxPayloadWidth returns its
length and removes nothing (R51). A length of 256 or more is no payload the device holds (notes/assumptions/21.md). -/
def Obligations.PayloadReadEffects : Prop :=
  ∀ (n : Nat) (s : State), OnBench s → 1 ≤ n → n ≤ 32 → (s.dev.rx.headD []).length < 256 →
    (∃ t, exec (.readRxPayload n) s = .next t ∧ t.dev = { s.dev with rx := s.dev.rx.tail } ∧
      t.results = s.results ++ [.ok (some s.dev.statusView)
        ((s.dev.rx.headD []).take n ++ List.replicate (n - (s.dev.rx.headD []).length) 0x00)]) ∧
    ∃ t b, exec .readRxPayloadWidth s = .next t ∧ t.dev = s.dev ∧
      t.results = s.results ++ [.ok (some s.dev.statusView) [b]] ∧ b.toNat = (s.dev.rx.headD []).length

/-- The outbound filler bytes never change what a request returns or does (R52): from any other point of the filler draws,
every request gives the same results, the same device and the same state of the block. That the fillers are one sequence,
read at a counter, is the model's choice (notes/assumptions/7.md): two points of that sequence are compared. -/
def Obligations.FillerChangesNothing : Prop :=
  ∀ (i : Instr) (k : Nat) (s t : State), OnBench s → exec i s = .next t →
    ∃ u, exec i { s with draws := k } = .next u ∧ u.results = t.results ∧ u.dev = t.dev ∧
      u.currentBank = t.currentBank ∧ u.ce = t.ce ∧ u.modeTrack = t.modeTrack ∧ u.cs = t.cs

/-- A transaction one of whose exchanges faulted, of any command byte, payload and direction: its events are that
transaction's, cut short, with a prefix of the payload sent in buffer order (R32, R74, R80). The device after it: as it was where the outside says nothing of it (R53), and
whatever the outside makes of it where it does (R133; notes/assumptions/20.md), STATUS with its bit 7 stored as 0 (R47). -/
def Obligations.FailedTransactionDevice : Prop :=
  ∀ (cmd : Byte) (buf : List Byte) (n : Nat) (dir : Direction) (s t : State) (e : Err),
    (execute cmd buf n dir).run s = .error e t →
    (∃ ev, t.trace = s.trace ++ ev ∧ CutEvents cmd buf n dir ev) ∧
    (s.dev.frame = [] → afterFrame s.world = none → t.dev = s.dev) ∧
    (s.dev.frame = [] → ∀ d, afterFrame s.world = some d →
      t.dev.bank = d.bank ∧ t.dev.tx = d.tx ∧ t.dev.rx = d.rx ∧ t.dev.ack = d.ack ∧
      (Memory.wf d.regs → ∀ a, t.dev.cell a = if a = cellAddr 0x07 0 then d.cell a &&& 0x7F else d.cell a))

/-- The transactions of a request that completes (R137): its own, and 0 to 2 of bank work where it is built from register
requests; one settle delay for each. -/
def Obligations.TransactionCounts : Prop :=
  ∀ (i : Instr) (s t : State), i ≠ .reset → operandError i = none → NoFault s → exec i s = .next t →
    ∃ ev, t.trace = s.trace ++ ev ∧ settleDelays ev = transactions ev ∧ ownTransactions i ≤ transactions ev ∧
      transactions ev ≤ ownTransactions i + 2 ∧
      (usesRegisters i = false ∨ ownTransactions i = 0 → transactions ev = ownTransactions i)
end

