-- ==== Sys2Proof/Laws/Operands.lean ====
section
/-! SUPPORT. Byte order (spec/20_memory.md R33) and the entries of the initialisation blob. -/

namespace Sys2Proof.Machine

@[simp] theorem lsbFirst_length (v w : Nat) : (lsbFirst v w).length = w := by
  induction w generalizing v with
  | zero => rfl
  | succ w ih => simp [lsbFirst, ih]

@[simp] theorem serialise_length (la : Byte) (v w : Nat) : (serialise la v w).length = w := by
  unfold serialise; split <;> simp

/-- Byte `i` of a value, least significant first. -/
theorem lsbFirst_getElem (v w i : Nat) (h : i < (lsbFirst v w).length) :
    (lsbFirst v w)[i] = BitVec.ofNat 8 (v >>> (8 * i)) := by
  induction w generalizing v i with
  | zero => simp at h
  | succ w ih =>
    cases i with
    | zero => simp [lsbFirst]
    | succ i =>
      simp only [lsbFirst, List.getElem_cons_succ]
      rw [ih, Nat.shiftRight_eq_div_pow, Nat.shiftRight_eq_div_pow, Nat.div_div_eq_div_mul]
      congr 2
      rw [show 8 * (i + 1) = 8 * i + 8 by ring, Nat.pow_add, Nat.mul_comm]

theorem lsbFirst_eq (v w : Nat) : lsbFirst v w = (List.range w).map fun i => BitVec.ofNat 8 (v >>> (8 * i)) := by
  apply List.ext_getElem
  · simp
  · intro i h₁ h₂
    rw [lsbFirst_getElem]; simp

theorem ofLsbFirst_lsbFirst {v w : Nat} (h : v < 256 ^ w) : ofLsbFirst (lsbFirst v w) = v := by
  induction w generalizing v with
  | zero => simp at h; subst h; rfl
  | succ w ih =>
    have hd : v / 256 < 256 ^ w := by
      rw [Nat.div_lt_iff_lt_mul (by norm_num)]; rw [pow_succ] at h; exact h
    simp only [lsbFirst, ofLsbFirst, ih hd, BitVec.toNat_ofNat]
    omega

theorem lsbFirst_ofLsbFirst (bs : List Byte) : lsbFirst (ofLsbFirst bs) bs.length = bs := by
  induction bs with
  | nil => rfl
  | cons b bs ih =>
    simp only [ofLsbFirst, List.length_cons, lsbFirst]
    have hb : b.toNat < 256 := b.isLt
    rw [show (b.toNat + 256 * ofLsbFirst bs) / 256 = ofLsbFirst bs by omega, ih]
    congr 1
    apply BitVec.eq_of_toNat_eq
    simp [BitVec.toNat_ofNat, hb]

theorem deserialise_serialise (la : Byte) {v w : Nat} (h : v < 256 ^ w) : deserialise la (serialise la v w) = v := by
  unfold deserialise serialise
  split <;> simp [ofLsbFirst_lsbFirst h]

theorem serialise_deserialise (la : Byte) (bs : List Byte) : serialise la (deserialise la bs) bs.length = bs := by
  unfold deserialise serialise
  split
  · have := lsbFirst_ofLsbFirst bs.reverse
    rw [List.length_reverse] at this
    rw [this, List.reverse_reverse]
  · exact lsbFirst_ofLsbFirst bs

/-! ### Blob entries -/

/-- An entry's register is a bank-1 register (spec/45_init_sequencer.md R107). -/
theorem entryAddr_facts (e : InitEntry) :
    definedAddr (entryAddr e) = true ∧ bankOf (entryAddr e) = .b1 ∧ 1 ≤ regWidth (entryAddr e) := by
  obtain ⟨r, v⟩ := e
  have h : ∀ r : Fin 15, definedAddr (BitVec.ofNat 8 (0x80 + r.val)) = true ∧
      bankOf (BitVec.ofNat 8 (0x80 + r.val)) = .b1 ∧ 1 ≤ regWidth (BitVec.ofNat 8 (0x80 + r.val)) := by decide
  exact h r

@[simp] theorem entryBytes_length (e : InitEntry) : (entryBytes e).length = regWidth (entryAddr e) := by
  simp [entryBytes]

/-- A blob entry passes the checks of WriteRegister (spec/45_init_sequencer.md R108). -/
theorem entry_check (e : InitEntry) : registerCheck (entryAddr e) (entryBytes e).length = none := by
  obtain ⟨hd, -, hw⟩ := entryAddr_facts e
  unfold registerCheck
  rw [entryBytes_length, hd, if_neg (by decide), if_neg (by omega), if_neg (by omega)]

/-- The value of a blob entry fits its register (R107). -/
theorem entry_value_lt (e : InitEntry) : e.value.toNat < 256 ^ regWidth (entryAddr e) := by
  have h := e.value.isLt
  unfold blobBits at h
  rw [pow_mul] at h
  exact h

/-- The bytes a blob entry is sent as are its value (R107, R109). -/
theorem deserialise_entryBytes (e : InitEntry) : deserialise (entryAddr e) (entryBytes e) = e.value.toNat :=
  deserialise_serialise _ (entry_value_lt e)

/-- A blob register has a high byte. -/
theorem eight_le_blobBits (reg : Fin 15) : 8 ≤ blobBits reg := by revert reg; decide

/-- The bits of the toggle pulse's mask (R110). -/
theorem pulseMask_getLsbD (reg : Fin 15) (bit : Fin 8) (gap : Fin 7) (k : Nat) :
    (pulseMask reg bit gap).getLsbD k =
      (k == blobBits reg - 8 + bit.val || k == blobBits reg - 8 + (bit.val + 1 + gap.val) % 8) := by
  have h₈ := eight_le_blobBits reg
  have hb := bit.isLt
  have hm := Nat.mod_lt (bit.val + 1 + gap.val) (by decide : 0 < 8)
  unfold pulseMask highByteBit
  rw [BitVec.getLsbD_or, BitVec.getLsbD_twoPow, BitVec.getLsbD_twoPow, Bool.eq_iff_iff]
  simp only [Bool.or_eq_true, Bool.and_eq_true, decide_eq_true_eq, beq_iff_eq]
  omega

/-- The two values of the toggle pulse: the first has two different bits of its high byte set, the second is the first with
those two bits cleared (R110). -/
theorem pulse_values (reg : Fin 15) (value : BitVec (blobBits reg)) (bit : Fin 8) (gap : Fin 7) :
    ∃ x y a b, pulseEntries reg value bit gap = [⟨reg, x⟩, ⟨reg, y⟩] ∧ a ≠ b ∧
      (blobBits reg - 8 ≤ a ∧ a < blobBits reg) ∧ (blobBits reg - 8 ≤ b ∧ b < blobBits reg) ∧
      x.getLsbD a = true ∧ x.getLsbD b = true ∧ ∀ k, y.getLsbD k = (x.getLsbD k && k != a && k != b) := by
  have h₈ := eight_le_blobBits reg
  have hb := bit.isLt
  have hg := gap.isLt
  have hm := Nat.mod_lt (bit.val + 1 + gap.val) (by decide : 0 < 8)
  refine ⟨_, _, blobBits reg - 8 + bit.val, blobBits reg - 8 + (bit.val + 1 + gap.val) % 8, rfl, by omega, by omega,
    by omega, ?_, ?_, fun k => ?_⟩
  · rw [BitVec.getLsbD_or, pulseMask_getLsbD]; simp
  · rw [BitVec.getLsbD_or, pulseMask_getLsbD]; simp
  · rw [BitVec.getLsbD_and, BitVec.getLsbD_not, pulseMask_getLsbD]
    by_cases hk : k < blobBits reg
    · simp only [hk, decide_true, Bool.true_and, Bool.not_or, bne, Bool.and_assoc]
    · rw [BitVec.getLsbD_of_ge _ k (by omega)]
      simp

/-- The blob is never empty: it ends with the toggle pulse (R110). -/
theorem initBlob_ne_nil : initBlob ≠ [] := by
  simp [initBlob, pulseEntries]

end Sys2Proof.Machine
end

