-- ==== Sys2Proof/Laws/State.lean ====
section
/-! SUPPORT. One lemma per field per update of the state, so that no later proof unfolds a record update. -/

namespace Sys2Proof.Machine

/-- States equal in every field are equal. -/
@[ext] theorem State.ext {s t : State}
    (currentBank : s.currentBank = t.currentBank) (ce : s.ce = t.ce) (cs : s.cs = t.cs)
    (modeTrack : s.modeTrack = t.modeTrack) (phase : s.phase = t.phase) (trace : s.trace = t.trace)
    (port : s.port = t.port) (results : s.results = t.results) (dev : s.dev = t.dev)
    (faultSet : s.faultSet = t.faultSet) (exchanges : s.exchanges = t.exchanges)
    (sessionFaults : s.sessionFaults = t.sessionFaults) (world : s.world = t.world)
    (draws : s.draws = t.draws) : s = t := by
  cases s
  cases t
  simp only at *
  subst_vars
  rfl

variable (s : State)

@[simp] theorem State.note_currentBank (e : Event) : (s.note e).currentBank = s.currentBank := rfl
@[simp] theorem State.note_ce (e : Event) : (s.note e).ce = s.ce := rfl
@[simp] theorem State.note_cs (e : Event) : (s.note e).cs = s.cs := rfl
@[simp] theorem State.note_modeTrack (e : Event) : (s.note e).modeTrack = s.modeTrack := rfl
@[simp] theorem State.note_phase (e : Event) : (s.note e).phase = s.phase.advance := rfl
@[simp] theorem State.note_trace (e : Event) : (s.note e).trace = s.trace ++ [e] := rfl
@[simp] theorem State.note_port (e : Event) : (s.note e).port = s.port := rfl
@[simp] theorem State.note_results (e : Event) : (s.note e).results = s.results := rfl
@[simp] theorem State.note_dev (e : Event) : (s.note e).dev = s.dev := rfl
@[simp] theorem State.note_world (e : Event) : (s.note e).world = s.world := rfl
@[simp] theorem State.note_draws (e : Event) : (s.note e).draws = s.draws := rfl
@[simp] theorem State.note_faultSet (e : Event) : (s.note e).faultSet = s.faultSet := rfl
@[simp] theorem State.note_exchanges (e : Event) : (s.note e).exchanges = s.exchanges := rfl
@[simp] theorem State.note_sessionFaults (e : Event) : (s.note e).sessionFaults = s.sessionFaults := rfl

@[simp] theorem State.setBank_currentBank (b : BankBelief) : (s.setBank b).currentBank = b := rfl
@[simp] theorem State.setBank_ce (b : BankBelief) : (s.setBank b).ce = s.ce := rfl
@[simp] theorem State.setBank_cs (b : BankBelief) : (s.setBank b).cs = s.cs := rfl
@[simp] theorem State.setBank_modeTrack (b : BankBelief) : (s.setBank b).modeTrack = s.modeTrack := rfl
@[simp] theorem State.setBank_phase (b : BankBelief) : (s.setBank b).phase = s.phase := rfl
@[simp] theorem State.setBank_trace (b : BankBelief) : (s.setBank b).trace = s.trace := rfl
@[simp] theorem State.setBank_port (b : BankBelief) : (s.setBank b).port = s.port := rfl
@[simp] theorem State.setBank_results (b : BankBelief) : (s.setBank b).results = s.results := rfl
@[simp] theorem State.setBank_dev (b : BankBelief) : (s.setBank b).dev = s.dev := rfl
@[simp] theorem State.setBank_world (b : BankBelief) : (s.setBank b).world = s.world := rfl
@[simp] theorem State.setBank_draws (b : BankBelief) : (s.setBank b).draws = s.draws := rfl
@[simp] theorem State.setBank_faultSet (b : BankBelief) : (s.setBank b).faultSet = s.faultSet := rfl
@[simp] theorem State.setBank_exchanges (b : BankBelief) : (s.setBank b).exchanges = s.exchanges := rfl
@[simp] theorem State.setBank_sessionFaults (b : BankBelief) : (s.setBank b).sessionFaults = s.sessionFaults := rfl

@[simp] theorem State.setCe_currentBank (l : Level) : (s.setCe l).currentBank = s.currentBank := rfl
@[simp] theorem State.setCe_ce (l : Level) : (s.setCe l).ce = l := rfl
@[simp] theorem State.setCe_cs (l : Level) : (s.setCe l).cs = s.cs := rfl
@[simp] theorem State.setCe_modeTrack (l : Level) : (s.setCe l).modeTrack = s.modeTrack := rfl
@[simp] theorem State.setCe_phase (l : Level) : (s.setCe l).phase = s.phase := rfl
@[simp] theorem State.setCe_trace (l : Level) : (s.setCe l).trace = s.trace := rfl
@[simp] theorem State.setCe_port (l : Level) : (s.setCe l).port = s.port := rfl
@[simp] theorem State.setCe_results (l : Level) : (s.setCe l).results = s.results := rfl
@[simp] theorem State.setCe_dev (l : Level) : (s.setCe l).dev = s.dev := rfl
@[simp] theorem State.setCe_world (l : Level) : (s.setCe l).world = s.world := rfl
@[simp] theorem State.setCe_draws (l : Level) : (s.setCe l).draws = s.draws := rfl
@[simp] theorem State.setCe_faultSet (l : Level) : (s.setCe l).faultSet = s.faultSet := rfl
@[simp] theorem State.setCe_exchanges (l : Level) : (s.setCe l).exchanges = s.exchanges := rfl
@[simp] theorem State.setCe_sessionFaults (l : Level) : (s.setCe l).sessionFaults = s.sessionFaults := rfl

@[simp] theorem State.setCs_currentBank (c : Select) : (s.setCs c).currentBank = s.currentBank := rfl
@[simp] theorem State.setCs_ce (c : Select) : (s.setCs c).ce = s.ce := rfl
@[simp] theorem State.setCs_cs (c : Select) : (s.setCs c).cs = c := rfl
@[simp] theorem State.setCs_modeTrack (c : Select) : (s.setCs c).modeTrack = s.modeTrack := rfl
@[simp] theorem State.setCs_phase (c : Select) : (s.setCs c).phase = s.phase := rfl
@[simp] theorem State.setCs_trace (c : Select) : (s.setCs c).trace = s.trace := rfl
@[simp] theorem State.setCs_port (c : Select) : (s.setCs c).port = s.port := rfl
@[simp] theorem State.setCs_results (c : Select) : (s.setCs c).results = s.results := rfl
@[simp] theorem State.setCs_dev (c : Select) : (s.setCs c).dev = s.dev := rfl
@[simp] theorem State.setCs_world (c : Select) : (s.setCs c).world = s.world := rfl
@[simp] theorem State.setCs_draws (c : Select) : (s.setCs c).draws = s.draws := rfl
@[simp] theorem State.setCs_faultSet (c : Select) : (s.setCs c).faultSet = s.faultSet := rfl
@[simp] theorem State.setCs_exchanges (c : Select) : (s.setCs c).exchanges = s.exchanges := rfl
@[simp] theorem State.setCs_sessionFaults (c : Select) : (s.setCs c).sessionFaults = s.sessionFaults := rfl

@[simp] theorem State.setMode_currentBank (m : Mode) : (s.setMode m).currentBank = s.currentBank := rfl
@[simp] theorem State.setMode_ce (m : Mode) : (s.setMode m).ce = s.ce := rfl
@[simp] theorem State.setMode_cs (m : Mode) : (s.setMode m).cs = s.cs := rfl
@[simp] theorem State.setMode_modeTrack (m : Mode) : (s.setMode m).modeTrack = some m := rfl
@[simp] theorem State.setMode_phase (m : Mode) : (s.setMode m).phase = s.phase := rfl
@[simp] theorem State.setMode_trace (m : Mode) : (s.setMode m).trace = s.trace := rfl
@[simp] theorem State.setMode_port (m : Mode) : (s.setMode m).port = s.port := rfl
@[simp] theorem State.setMode_results (m : Mode) : (s.setMode m).results = s.results := rfl
@[simp] theorem State.setMode_dev (m : Mode) : (s.setMode m).dev = s.dev := rfl
@[simp] theorem State.setMode_world (m : Mode) : (s.setMode m).world = s.world := rfl
@[simp] theorem State.setMode_draws (m : Mode) : (s.setMode m).draws = s.draws := rfl
@[simp] theorem State.setMode_faultSet (m : Mode) : (s.setMode m).faultSet = s.faultSet := rfl
@[simp] theorem State.setMode_exchanges (m : Mode) : (s.setMode m).exchanges = s.exchanges := rfl
@[simp] theorem State.setMode_sessionFaults (m : Mode) : (s.setMode m).sessionFaults = s.sessionFaults := rfl

@[simp] theorem State.setPhase_currentBank (p : Phase) : (s.setPhase p).currentBank = s.currentBank := rfl
@[simp] theorem State.setPhase_ce (p : Phase) : (s.setPhase p).ce = s.ce := rfl
@[simp] theorem State.setPhase_cs (p : Phase) : (s.setPhase p).cs = s.cs := rfl
@[simp] theorem State.setPhase_modeTrack (p : Phase) : (s.setPhase p).modeTrack = s.modeTrack := rfl
@[simp] theorem State.setPhase_phase (p : Phase) : (s.setPhase p).phase = p := rfl
@[simp] theorem State.setPhase_trace (p : Phase) : (s.setPhase p).trace = s.trace := rfl
@[simp] theorem State.setPhase_port (p : Phase) : (s.setPhase p).port = s.port := rfl
@[simp] theorem State.setPhase_results (p : Phase) : (s.setPhase p).results = s.results := rfl
@[simp] theorem State.setPhase_dev (p : Phase) : (s.setPhase p).dev = s.dev := rfl
@[simp] theorem State.setPhase_world (p : Phase) : (s.setPhase p).world = s.world := rfl
@[simp] theorem State.setPhase_draws (p : Phase) : (s.setPhase p).draws = s.draws := rfl
@[simp] theorem State.setPhase_faultSet (p : Phase) : (s.setPhase p).faultSet = s.faultSet := rfl
@[simp] theorem State.setPhase_exchanges (p : Phase) : (s.setPhase p).exchanges = s.exchanges := rfl
@[simp] theorem State.setPhase_sessionFaults (p : Phase) : (s.setPhase p).sessionFaults = s.sessionFaults := rfl

@[simp] theorem State.setDev_currentBank (d : Device) : (s.setDev d).currentBank = s.currentBank := rfl
@[simp] theorem State.setDev_ce (d : Device) : (s.setDev d).ce = s.ce := rfl
@[simp] theorem State.setDev_cs (d : Device) : (s.setDev d).cs = s.cs := rfl
@[simp] theorem State.setDev_modeTrack (d : Device) : (s.setDev d).modeTrack = s.modeTrack := rfl
@[simp] theorem State.setDev_phase (d : Device) : (s.setDev d).phase = s.phase := rfl
@[simp] theorem State.setDev_trace (d : Device) : (s.setDev d).trace = s.trace := rfl
@[simp] theorem State.setDev_port (d : Device) : (s.setDev d).port = s.port := rfl
@[simp] theorem State.setDev_results (d : Device) : (s.setDev d).results = s.results := rfl
@[simp] theorem State.setDev_dev (d : Device) : (s.setDev d).dev = d := rfl
@[simp] theorem State.setDev_world (d : Device) : (s.setDev d).world = s.world := rfl
@[simp] theorem State.setDev_draws (d : Device) : (s.setDev d).draws = s.draws := rfl
@[simp] theorem State.setDev_faultSet (d : Device) : (s.setDev d).faultSet = s.faultSet := rfl
@[simp] theorem State.setDev_exchanges (d : Device) : (s.setDev d).exchanges = s.exchanges := rfl
@[simp] theorem State.setDev_sessionFaults (d : Device) : (s.setDev d).sessionFaults = s.sessionFaults := rfl

@[simp] theorem State.setWorld_currentBank (w : List Move) : (s.setWorld w).currentBank = s.currentBank := rfl
@[simp] theorem State.setWorld_ce (w : List Move) : (s.setWorld w).ce = s.ce := rfl
@[simp] theorem State.setWorld_cs (w : List Move) : (s.setWorld w).cs = s.cs := rfl
@[simp] theorem State.setWorld_modeTrack (w : List Move) : (s.setWorld w).modeTrack = s.modeTrack := rfl
@[simp] theorem State.setWorld_phase (w : List Move) : (s.setWorld w).phase = s.phase := rfl
@[simp] theorem State.setWorld_trace (w : List Move) : (s.setWorld w).trace = s.trace := rfl
@[simp] theorem State.setWorld_port (w : List Move) : (s.setWorld w).port = s.port := rfl
@[simp] theorem State.setWorld_results (w : List Move) : (s.setWorld w).results = s.results := rfl
@[simp] theorem State.setWorld_dev (w : List Move) : (s.setWorld w).dev = s.dev := rfl
@[simp] theorem State.setWorld_world (w : List Move) : (s.setWorld w).world = w := rfl
@[simp] theorem State.setWorld_draws (w : List Move) : (s.setWorld w).draws = s.draws := rfl
@[simp] theorem State.setWorld_faultSet (w : List Move) : (s.setWorld w).faultSet = s.faultSet := rfl
@[simp] theorem State.setWorld_exchanges (w : List Move) : (s.setWorld w).exchanges = s.exchanges := rfl
@[simp] theorem State.setWorld_sessionFaults (w : List Move) : (s.setWorld w).sessionFaults = s.sessionFaults := rfl

@[simp] theorem State.setPort_currentBank (p : List Input) : (s.setPort p).currentBank = s.currentBank := rfl
@[simp] theorem State.setPort_ce (p : List Input) : (s.setPort p).ce = s.ce := rfl
@[simp] theorem State.setPort_cs (p : List Input) : (s.setPort p).cs = s.cs := rfl
@[simp] theorem State.setPort_modeTrack (p : List Input) : (s.setPort p).modeTrack = s.modeTrack := rfl
@[simp] theorem State.setPort_phase (p : List Input) : (s.setPort p).phase = s.phase := rfl
@[simp] theorem State.setPort_trace (p : List Input) : (s.setPort p).trace = s.trace := rfl
@[simp] theorem State.setPort_port (p : List Input) : (s.setPort p).port = p := rfl
@[simp] theorem State.setPort_results (p : List Input) : (s.setPort p).results = s.results := rfl
@[simp] theorem State.setPort_dev (p : List Input) : (s.setPort p).dev = s.dev := rfl
@[simp] theorem State.setPort_world (p : List Input) : (s.setPort p).world = s.world := rfl
@[simp] theorem State.setPort_draws (p : List Input) : (s.setPort p).draws = s.draws := rfl
@[simp] theorem State.setPort_faultSet (p : List Input) : (s.setPort p).faultSet = s.faultSet := rfl
@[simp] theorem State.setPort_exchanges (p : List Input) : (s.setPort p).exchanges = s.exchanges := rfl
@[simp] theorem State.setPort_sessionFaults (p : List Input) : (s.setPort p).sessionFaults = s.sessionFaults := rfl

@[simp] theorem State.putResult_currentBank (r : Result) : (s.putResult r).currentBank = s.currentBank := rfl
@[simp] theorem State.putResult_ce (r : Result) : (s.putResult r).ce = s.ce := rfl
@[simp] theorem State.putResult_cs (r : Result) : (s.putResult r).cs = s.cs := rfl
@[simp] theorem State.putResult_modeTrack (r : Result) : (s.putResult r).modeTrack = s.modeTrack := rfl
@[simp] theorem State.putResult_phase (r : Result) : (s.putResult r).phase = s.phase := rfl
@[simp] theorem State.putResult_trace (r : Result) : (s.putResult r).trace = s.trace := rfl
@[simp] theorem State.putResult_port (r : Result) : (s.putResult r).port = s.port := rfl
@[simp] theorem State.putResult_results (r : Result) : (s.putResult r).results = s.results ++ [r] := rfl
@[simp] theorem State.putResult_dev (r : Result) : (s.putResult r).dev = s.dev := rfl
@[simp] theorem State.putResult_world (r : Result) : (s.putResult r).world = s.world := rfl
@[simp] theorem State.putResult_draws (r : Result) : (s.putResult r).draws = s.draws := rfl
@[simp] theorem State.putResult_faultSet (r : Result) : (s.putResult r).faultSet = s.faultSet := rfl
@[simp] theorem State.putResult_exchanges (r : Result) : (s.putResult r).exchanges = s.exchanges := rfl
@[simp] theorem State.putResult_sessionFaults (r : Result) : (s.putResult r).sessionFaults = s.sessionFaults := rfl

@[simp] theorem State.countDraw_currentBank : (s.countDraw).currentBank = s.currentBank := rfl
@[simp] theorem State.countDraw_ce : (s.countDraw).ce = s.ce := rfl
@[simp] theorem State.countDraw_cs : (s.countDraw).cs = s.cs := rfl
@[simp] theorem State.countDraw_modeTrack : (s.countDraw).modeTrack = s.modeTrack := rfl
@[simp] theorem State.countDraw_phase : (s.countDraw).phase = s.phase := rfl
@[simp] theorem State.countDraw_trace : (s.countDraw).trace = s.trace := rfl
@[simp] theorem State.countDraw_port : (s.countDraw).port = s.port := rfl
@[simp] theorem State.countDraw_results : (s.countDraw).results = s.results := rfl
@[simp] theorem State.countDraw_dev : (s.countDraw).dev = s.dev := rfl
@[simp] theorem State.countDraw_world : (s.countDraw).world = s.world := rfl
@[simp] theorem State.countDraw_draws : (s.countDraw).draws = s.draws + 1 := rfl
@[simp] theorem State.countDraw_faultSet : (s.countDraw).faultSet = s.faultSet := rfl
@[simp] theorem State.countDraw_exchanges : (s.countDraw).exchanges = s.exchanges := rfl
@[simp] theorem State.countDraw_sessionFaults : (s.countDraw).sessionFaults = s.sessionFaults := rfl

@[simp] theorem State.countExchange_currentBank : s.countExchange.currentBank = s.currentBank := rfl
@[simp] theorem State.countExchange_ce : s.countExchange.ce = s.ce := rfl
@[simp] theorem State.countExchange_cs : s.countExchange.cs = s.cs := rfl
@[simp] theorem State.countExchange_modeTrack : s.countExchange.modeTrack = s.modeTrack := rfl
@[simp] theorem State.countExchange_phase : s.countExchange.phase = s.phase := rfl
@[simp] theorem State.countExchange_trace : s.countExchange.trace = s.trace := rfl
@[simp] theorem State.countExchange_port : s.countExchange.port = s.port := rfl
@[simp] theorem State.countExchange_results : s.countExchange.results = s.results := rfl
@[simp] theorem State.countExchange_dev : s.countExchange.dev = s.dev := rfl
@[simp] theorem State.countExchange_world : s.countExchange.world = s.world := rfl
@[simp] theorem State.countExchange_draws : s.countExchange.draws = s.draws := rfl
@[simp] theorem State.countExchange_faultSet : s.countExchange.faultSet = s.faultSet := rfl
@[simp] theorem State.countExchange_exchanges : s.countExchange.exchanges = s.exchanges + 1 := rfl
@[simp] theorem State.countExchange_sessionFaults : s.countExchange.sessionFaults = s.sessionFaults := rfl

@[simp] theorem State.construct_currentBank : (s.construct).currentBank = .unknown := rfl
@[simp] theorem State.construct_ce : (s.construct).ce = Config.ceInit := rfl
@[simp] theorem State.construct_cs : (s.construct).cs = .deasserted := rfl
@[simp] theorem State.construct_modeTrack : (s.construct).modeTrack = none := rfl
@[simp] theorem State.construct_phase : (s.construct).phase = .idle := rfl
@[simp] theorem State.construct_trace : (s.construct).trace = [] := rfl
@[simp] theorem State.construct_port : (s.construct).port = s.port := rfl
@[simp] theorem State.construct_results : (s.construct).results = s.results := rfl
@[simp] theorem State.construct_dev : (s.construct).dev = s.dev := rfl
@[simp] theorem State.construct_world : (s.construct).world = s.world := rfl
@[simp] theorem State.construct_draws : (s.construct).draws = s.draws := rfl
@[simp] theorem State.construct_faultSet : (s.construct).faultSet = s.sessionFaults.headD [] := rfl
@[simp] theorem State.construct_exchanges : (s.construct).exchanges = 0 := rfl
@[simp] theorem State.construct_sessionFaults : (s.construct).sessionFaults = s.sessionFaults.tail := rfl

@[simp] theorem State.exchanged_currentBank (out inn : Byte) : (s.exchanged out inn).currentBank = s.currentBank := rfl
@[simp] theorem State.exchanged_ce (out inn : Byte) : (s.exchanged out inn).ce = s.ce := rfl
@[simp] theorem State.exchanged_cs (out inn : Byte) : (s.exchanged out inn).cs = s.cs := rfl
@[simp] theorem State.exchanged_modeTrack (out inn : Byte) : (s.exchanged out inn).modeTrack = s.modeTrack := rfl
@[simp] theorem State.exchanged_phase (out inn : Byte) : (s.exchanged out inn).phase = s.phase.advance := rfl
@[simp] theorem State.exchanged_trace (out inn : Byte) : (s.exchanged out inn).trace = s.trace ++ [.x out inn] := rfl
@[simp] theorem State.exchanged_port (out inn : Byte) : (s.exchanged out inn).port = s.port := rfl
@[simp] theorem State.exchanged_results (out inn : Byte) : (s.exchanged out inn).results = s.results := rfl
@[simp] theorem State.exchanged_dev (out inn : Byte) : (s.exchanged out inn).dev = s.dev.receive out := rfl
@[simp] theorem State.exchanged_world (out inn : Byte) : (s.exchanged out inn).world = afterExchange s.world := rfl
@[simp] theorem State.exchanged_draws (out inn : Byte) : (s.exchanged out inn).draws = s.draws := rfl
@[simp] theorem State.exchanged_faultSet (out inn : Byte) : (s.exchanged out inn).faultSet = s.faultSet := rfl
@[simp] theorem State.exchanged_exchanges (out inn : Byte) : (s.exchanged out inn).exchanges = s.exchanges + 1 := rfl
@[simp] theorem State.exchanged_sessionFaults (out inn : Byte) : (s.exchanged out inn).sessionFaults =
    s.sessionFaults := rfl

@[simp] theorem State.exchangeFaulted_currentBank (out : Byte) : (s.exchangeFaulted out).currentBank = s.currentBank := rfl
@[simp] theorem State.exchangeFaulted_ce (out : Byte) : (s.exchangeFaulted out).ce = s.ce := rfl
@[simp] theorem State.exchangeFaulted_cs (out : Byte) : (s.exchangeFaulted out).cs = s.cs := rfl
@[simp] theorem State.exchangeFaulted_modeTrack (out : Byte) : (s.exchangeFaulted out).modeTrack = s.modeTrack := rfl
@[simp] theorem State.exchangeFaulted_phase (out : Byte) : (s.exchangeFaulted out).phase = s.phase.advance := rfl
@[simp] theorem State.exchangeFaulted_trace (out : Byte) : (s.exchangeFaulted out).trace = s.trace ++ [.xf out] := rfl
@[simp] theorem State.exchangeFaulted_port (out : Byte) : (s.exchangeFaulted out).port = s.port := rfl
@[simp] theorem State.exchangeFaulted_results (out : Byte) : (s.exchangeFaulted out).results = s.results := rfl
@[simp] theorem State.exchangeFaulted_dev (out : Byte) : (s.exchangeFaulted out).dev = s.dev.dropFrame := rfl
@[simp] theorem State.exchangeFaulted_world (out : Byte) : (s.exchangeFaulted out).world = afterExchange s.world := rfl
@[simp] theorem State.exchangeFaulted_draws (out : Byte) : (s.exchangeFaulted out).draws = s.draws := rfl
@[simp] theorem State.exchangeFaulted_faultSet (out : Byte) : (s.exchangeFaulted out).faultSet = s.faultSet := rfl
@[simp] theorem State.exchangeFaulted_exchanges (out : Byte) : (s.exchangeFaulted out).exchanges = s.exchanges + 1 := rfl
@[simp] theorem State.exchangeFaulted_sessionFaults (out : Byte) : (s.exchangeFaulted out).sessionFaults =
    s.sessionFaults := rfl

@[simp] theorem State.accept_currentBank (i : Instr) : (s.accept i).currentBank = s.currentBank := rfl
@[simp] theorem State.accept_ce (i : Instr) : (s.accept i).ce = s.ce := rfl
@[simp] theorem State.accept_cs (i : Instr) : (s.accept i).cs = s.cs := rfl
@[simp] theorem State.accept_modeTrack (i : Instr) : (s.accept i).modeTrack = s.modeTrack := rfl
@[simp] theorem State.accept_phase (i : Instr) : (s.accept i).phase = .busy i 0 := rfl
@[simp] theorem State.accept_trace (i : Instr) : (s.accept i).trace = s.trace := rfl
@[simp] theorem State.accept_port (i : Instr) : (s.accept i).port = s.port := rfl
@[simp] theorem State.accept_results (i : Instr) : (s.accept i).results = s.results := rfl
@[simp] theorem State.accept_dev (i : Instr) : (s.accept i).dev = s.dev := rfl
@[simp] theorem State.accept_world (i : Instr) : (s.accept i).world = s.world := rfl
@[simp] theorem State.accept_draws (i : Instr) : (s.accept i).draws = s.draws := rfl
@[simp] theorem State.accept_faultSet (i : Instr) : (s.accept i).faultSet = s.faultSet := rfl
@[simp] theorem State.accept_exchanges (i : Instr) : (s.accept i).exchanges = s.exchanges := rfl
@[simp] theorem State.accept_sessionFaults (i : Instr) : (s.accept i).sessionFaults = s.sessionFaults := rfl

@[simp] theorem State.externalEvent_currentBank (d : Device) : (s.externalEvent d).currentBank = s.currentBank := rfl
@[simp] theorem State.externalEvent_ce (d : Device) : (s.externalEvent d).ce = s.ce := rfl
@[simp] theorem State.externalEvent_cs (d : Device) : (s.externalEvent d).cs = s.cs := rfl
@[simp] theorem State.externalEvent_modeTrack (d : Device) : (s.externalEvent d).modeTrack = s.modeTrack := rfl
@[simp] theorem State.externalEvent_phase (d : Device) : (s.externalEvent d).phase = s.phase := rfl
@[simp] theorem State.externalEvent_trace (d : Device) : (s.externalEvent d).trace = s.trace := rfl
@[simp] theorem State.externalEvent_port (d : Device) : (s.externalEvent d).port = s.port := rfl
@[simp] theorem State.externalEvent_results (d : Device) : (s.externalEvent d).results = s.results := rfl
@[simp] theorem State.externalEvent_dev (d : Device) : (s.externalEvent d).dev = d.settled := rfl
@[simp] theorem State.externalEvent_world (d : Device) : (s.externalEvent d).world = s.world := rfl
@[simp] theorem State.externalEvent_draws (d : Device) : (s.externalEvent d).draws = s.draws := rfl
@[simp] theorem State.externalEvent_faultSet (d : Device) : (s.externalEvent d).faultSet = s.faultSet := rfl
@[simp] theorem State.externalEvent_exchanges (d : Device) : (s.externalEvent d).exchanges = s.exchanges := rfl
@[simp] theorem State.externalEvent_sessionFaults (d : Device) : (s.externalEvent d).sessionFaults = s.sessionFaults := rfl

@[simp] theorem State.present_port (i : Instr) : (s.present i).port = .request i :: s.port := rfl
@[simp] theorem State.present_phase (i : Instr) : (s.present i).phase = .idle := rfl

end Sys2Proof.Machine
end

