-- ==== Sys2Proof/Laws/Ops.lean ====
section
/-! SUPPORT. For each shared operation, once, everything it can do: what holds if it completes, what holds if it fails,
and that it completes where no exchange faults. Later proofs cite these and unfold no operation. -/

namespace Sys2Proof.Machine

/-! ### Composition -/

theorem Op.bind_ok {α β : Type} {x : Op α} {f : α → Op β} {s s' : State} {b : β} :
    (x >>= f).run s = .ok b s' ↔ ∃ a s₁, x.run s = .ok a s₁ ∧ (f a).run s₁ = .ok b s' := by
  rw [EStateM.run_bind]
  cases x.run s <;> simp

theorem Op.bind_error {α β : Type} {x : Op α} {f : α → Op β} {s s' : State} {e : Err} :
    (x >>= f).run s = .error e s' ↔
      x.run s = .error e s' ∨ ∃ a s₁, x.run s = .ok a s₁ ∧ (f a).run s₁ = .error e s' := by
  rw [EStateM.run_bind]
  cases x.run s <;> simp

@[simp] theorem Op.pure_run {α : Type} (a : α) (s : State) : (pure a : Op α).run s = .ok a s := rfl

@[simp] theorem Op.throw_run {α : Type} (e : Err) (s : State) : (throw e : Op α).run s = .error e s := rfl

/-- An operation that completes goes on with what follows it. -/
theorem Op.bind_of_ok {α β : Type} {x : Op α} {f : α → Op β} {s s₁ : State} {a : α} (h : x.run s = .ok a s₁) :
    (x >>= f).run s = (f a).run s₁ := by
  rw [EStateM.run_bind, h]

theorem Op.map_ok {α β : Type} {x : Op α} {f : α → β} {s s' : State} {b : β} :
    (f <$> x).run s = .ok b s' ↔ ∃ a, x.run s = .ok a s' ∧ f a = b := by
  rw [EStateM.run_map]
  cases x.run s <;> simp
  constructor <;> rintro ⟨h₁, h₂⟩ <;> exact ⟨h₂, h₁⟩

theorem Op.map_error {α β : Type} {x : Op α} {f : α → β} {s s' : State} {e : Err} :
    (f <$> x).run s = .error e s' ↔ x.run s = .error e s' := by
  rw [EStateM.run_map]
  cases x.run s <;> simp

/-- `R` relates the state an operation starts in to the state it ends in, whether it completes or fails. -/
def Op.Keeps {α : Type} (R : State → State → Prop) (x : Op α) : Prop :=
  ∀ s, (∀ a s', x.run s = .ok a s' → R s s') ∧ ∀ e s', x.run s = .error e s' → R s s'

theorem Op.keeps_pure {α : Type} {R : State → State → Prop} (hr : ∀ s, R s s) (a : α) :
    Op.Keeps R (pure a : Op α) := by
  intro s; simp only [Op.pure_run]; constructor <;> intros <;> simp_all

theorem Op.keeps_throw {α : Type} {R : State → State → Prop} (hr : ∀ s, R s s) (e : Err) :
    Op.Keeps R (throw e : Op α) := by
  intro s; simp only [Op.throw_run]; constructor <;> intros <;> simp_all

theorem Op.keeps_bind {α β : Type} {R : State → State → Prop} (ht : ∀ {a b c}, R a b → R b c → R a c)
    {x : Op α} {f : α → Op β} (hx : Op.Keeps R x) (hf : ∀ a, Op.Keeps R (f a)) : Op.Keeps R (x >>= f) := by
  intro s
  refine ⟨fun b s' h => ?_, fun e s' h => ?_⟩
  · obtain ⟨a, s₁, h₁, h₂⟩ := Op.bind_ok.1 h
    exact ht ((hx s).1 _ _ h₁) ((hf a s₁).1 _ _ h₂)
  · obtain h₁ | ⟨a, s₁, h₁, h₂⟩ := Op.bind_error.1 h
    · exact (hx s).2 _ _ h₁
    · exact ht ((hx s).1 _ _ h₁) ((hf a s₁).2 _ _ h₂)

theorem Op.keeps_map {α β : Type} {R : State → State → Prop} {x : Op α} (f : α → β) (hx : Op.Keeps R x) :
    Op.Keeps R (f <$> x) := by
  intro s
  refine ⟨fun b s' h => ?_, fun e s' h => (hx s).2 _ _ (Op.map_error.1 h)⟩
  obtain ⟨a, h₁, -⟩ := Op.map_ok.1 h
  exact (hx s).1 _ _ h₁

/-! ### What bus actions leave alone -/

/-- `k` primitive actions on. -/
def Phase.advanceBy : Phase → Nat → Phase
  | .idle, _ => .idle
  | .busy i k, n => .busy i (k + n)

theorem Phase.advance_eq (p : Phase) : p.advance = p.advanceBy 1 := by cases p <;> rfl

@[simp] theorem Phase.advanceBy_zero (p : Phase) : p.advanceBy 0 = p := by cases p <;> rfl

@[simp] theorem Phase.advanceBy_advanceBy (p : Phase) (m n : Nat) :
    (p.advanceBy m).advanceBy n = p.advanceBy (m + n) := by
  cases p <;> simp [Phase.advanceBy, Nat.add_assoc]

@[simp] theorem Phase.advance_advanceBy (p : Phase) (n : Nat) : p.advance.advanceBy n = p.advanceBy (1 + n) := by
  simp [Phase.advance_eq]

@[simp] theorem Phase.advanceBy_advance (p : Phase) (n : Nat) : (p.advanceBy n).advance = p.advanceBy (n + 1) := by
  simp [Phase.advance_eq]

@[simp] theorem exchangeCount_nil : exchangeCount [] = 0 := rfl

@[simp] theorem exchangeCount_append (a b : List Event) :
    exchangeCount (a ++ b) = exchangeCount a + exchangeCount b := by simp [exchangeCount]

theorem FaultsBy.append_iff {F : List Nat} (a b : List Event) (k : Nat) :
    FaultsBy F k (a ++ b) ↔ FaultsBy F k a ∧ FaultsBy F (k + exchangeCount a) b := by
  induction a generalizing k with
  | nil => simp [FaultsBy]
  | cons e es ih =>
    cases e <;> simp [FaultsBy, ih, exchangeCount, and_assoc, Nat.add_assoc, Nat.add_comm 1]

/-- The events `ev` were issued, one primitive action each; the exchanges among them were counted, and those whose ordinal
is in `F` faulted (spec/20_memory.md R53); `F`, of this session and of those to come, and the ports are untouched. -/
structure Issued (ev : List Event) (s s' : State) : Prop where
  trace : s'.trace = s.trace ++ ev
  phase : s'.phase = s.phase.advanceBy ev.length
  port : s'.port = s.port
  results : s'.results = s.results
  exchanges : s'.exchanges = s.exchanges + exchangeCount ev
  faultSet : s'.faultSet = s.faultSet
  sessionFaults : s'.sessionFaults = s.sessionFaults
  faults : FaultsBy s.faultSet s.exchanges ev

theorem Issued.refl (s : State) : Issued [] s s := ⟨by simp, by simp, rfl, rfl, rfl, rfl, rfl, trivial⟩

theorem Issued.trans {e₁ e₂ : List Event} {s₁ s₂ s₃ : State} (h₁ : Issued e₁ s₁ s₂) (h₂ : Issued e₂ s₂ s₃) :
    Issued (e₁ ++ e₂) s₁ s₃ where
  trace := by rw [h₂.trace, h₁.trace, List.append_assoc]
  phase := by rw [h₂.phase, h₁.phase]; simp
  port := h₂.port.trans h₁.port
  results := h₂.results.trans h₁.results
  exchanges := by rw [h₂.exchanges, h₁.exchanges, exchangeCount_append, Nat.add_assoc]
  faultSet := h₂.faultSet.trans h₁.faultSet
  sessionFaults := h₂.sessionFaults.trans h₁.sessionFaults
  faults := (FaultsBy.append_iff _ _ _).2 ⟨h₁.faults, by rw [← h₁.exchanges, ← h₁.faultSet]; exact h₂.faults⟩

/-- What was issued between states that agree with these in what `Issued` speaks of. -/
theorem Issued.congr {ev : List Event} {s s' t t' : State} (h : Issued ev s s')
    (hs : (t.trace, t.phase, t.port, t.results, t.exchanges, t.faultSet, t.sessionFaults) =
      (s.trace, s.phase, s.port, s.results, s.exchanges, s.faultSet, s.sessionFaults) := by rfl)
    (hs' : (t'.trace, t'.phase, t'.port, t'.results, t'.exchanges, t'.faultSet, t'.sessionFaults) =
      (s'.trace, s'.phase, s'.port, s'.results, s'.exchanges, s'.faultSet, s'.sessionFaults) := by rfl) : Issued ev t t' := by
  simp only [Prod.mk.injEq] at hs hs'
  obtain ⟨h1, h2, h3, h4, h5, h6, h7⟩ := hs
  obtain ⟨k1, k2, k3, k4, k5, k6, k7⟩ := hs'
  exact ⟨by rw [k1, h1, h.trace], by rw [k2, h2, h.phase], by rw [k3, h3, h.port], by rw [k4, h4, h.results],
    by rw [k5, h5, h.exchanges], by rw [k6, h6, h.faultSet], by rw [k7, h7, h.sessionFaults],
    by rw [h5, h6]; exact h.faults⟩

/-- What the TransactionExecutor does not touch (spec/41_transaction_executor.md R82). -/
structure Untouched (s s' : State) : Prop where
  currentBank : s'.currentBank = s.currentBank
  ce : s'.ce = s.ce
  modeTrack : s'.modeTrack = s.modeTrack

theorem Untouched.refl (s : State) : Untouched s s := ⟨rfl, rfl, rfl⟩

theorem Untouched.trans {s₁ s₂ s₃ : State} (h₁ : Untouched s₁ s₂) (h₂ : Untouched s₂ s₃) : Untouched s₁ s₃ :=
  ⟨h₂.1.trans h₁.1, h₂.2.trans h₁.2, h₂.3.trans h₁.3⟩

/-! ### The outside -/

theorem NoFault.of_le {s s' : State} (h : NoFault s) (hF : s'.faultSet = s.faultSet := by rfl)
    (he : s.exchanges ≤ s'.exchanges := by first | rfl | simp) : NoFault s' := by
  intro k hk
  rw [hF] at hk
  exact lt_of_lt_of_le (h k hk) he

theorem NoFault.next {s : State} (h : NoFault s) : s.exchanges ∉ s.faultSet := fun hk => lt_irrefl _ (h _ hk)

theorem Issued.noFault {ev : List Event} {s s' : State} (hi : Issued ev s s') (h : NoFault s) : NoFault s' :=
  h.of_le hi.faultSet (by rw [hi.exchanges]; omega)

/-! ### The exchange primitive -/

/-- Where an exchange leaves chip-select deasserted and the delay made (R80). -/
def State.aborted (s : State) : State :=
  ((((s.setCs .deasserted).setDev (frameEnd s.world s.dev)).setWorld s.world.tail).note .csd).note (.dly settleMs)

theorem abort_run {α : Type} (s : State) : (abort : Op α).run s = .error .transportFailure s.aborted := rfl

/-- The exchange primitive, by whether its ordinal is in `F`. -/
theorem exchange_run (out : Byte) (s : State) :
    (exchange out).run s =
      if s.exchanges ∈ s.faultSet then .ok none (s.exchangeFaulted out)
      else .ok (some (inbound s)) (s.exchanged out (inbound s)) := by
  unfold exchange
  show (if _ then _ else _) = _
  split <;> rfl

/-- An exchange that does not abort the transaction: its ordinal is not in `F`. -/
theorem exchangeOrAbort_ok {out r : Byte} {s s' : State} (h : (exchangeOrAbort out).run s = .ok r s') :
    s' = s.exchanged out r ∧ s.exchanges ∉ s.faultSet ∧ r = inbound s := by
  unfold exchangeOrAbort at h
  obtain ⟨o, s₁, h₁, h₂⟩ := Op.bind_ok.1 h
  rw [exchange_run] at h₁
  split at h₁ <;> rename_i hk <;> cases h₁
  · simp [abort_run] at h₂
  · simp only [Op.pure_run, EStateM.Result.ok.injEq] at h₂
    obtain ⟨rfl, rfl⟩ := h₂
    exact ⟨rfl, hk, rfl⟩

/-- An exchange that aborts: its ordinal is in `F`. -/
theorem exchangeOrAbort_error {out : Byte} {e : Err} {s s' : State} (h : (exchangeOrAbort out).run s = .error e s') :
    e = .transportFailure ∧ s.exchanges ∈ s.faultSet ∧ s' = (s.exchangeFaulted out).aborted := by
  unfold exchangeOrAbort at h
  obtain h₁ | ⟨o, s₁, h₁, h₂⟩ := Op.bind_error.1 h
  · rw [exchange_run] at h₁
    split at h₁ <;> cases h₁
  · rw [exchange_run] at h₁
    split at h₁ <;> rename_i hk <;> cases h₁
    · simp only [abort_run, EStateM.Result.error.injEq] at h₂
      exact ⟨h₂.1.symm, hk, h₂.2.symm⟩
    · simp at h₂

theorem exchangeOrAbort_noFault {s : State} (h : NoFault s) (out : Byte) :
    ∃ r, (exchangeOrAbort out).run s = .ok r (s.exchanged out r) := by
  cases hr : (exchangeOrAbort out).run s with
  | ok r s' => exact ⟨r, by rw [(exchangeOrAbort_ok hr).1]⟩
  | error e s' => exact absurd (exchangeOrAbort_error hr).2.1 h.next

/-- With nothing outside but the emulation, an exchange returns the device's answer. -/
theorem exchangeOrAbort_bench {s : State} (h : s.world = []) (hF : s.faultSet = []) (out : Byte) :
    (exchangeOrAbort out).run s = .ok s.dev.answer (s.exchanged out s.dev.answer) := by
  have h₁ : (exchange out).run s = .ok (some s.dev.answer) (s.exchanged out s.dev.answer) := by
    have hin : inbound s = s.dev.answer := by unfold inbound; rw [h]; rfl
    rw [exchange_run, if_neg (by simp [hF]), hin]
  exact Op.bind_of_ok h₁

theorem NoFault.exchanged {s : State} (h : NoFault s) (out r : Byte) : NoFault (s.exchanged out r) := h.of_le

theorem NoFault.aborted {s : State} (h : NoFault s) : NoFault s.aborted := h.of_le

theorem NoFault.countDraw {s : State} (h : NoFault s) : NoFault s.countDraw := h.of_le

theorem NoFault.setBank {s : State} (h : NoFault s) (b : BankBelief) : NoFault (s.setBank b) := h.of_le

theorem Untouched.aborted (s : State) : Untouched s s.aborted :=
  ⟨by simp [State.aborted], by simp [State.aborted], by simp [State.aborted]⟩

theorem Untouched.exchangeFaulted (s : State) (out : Byte) : Untouched s (s.exchangeFaulted out) :=
  ⟨by simp, by simp, by simp⟩

theorem Untouched.exchanged (s : State) (out r : Byte) : Untouched s (s.exchanged out r) :=
  ⟨by simp, by simp, by simp⟩

theorem State.aborted_cs (s : State) : s.aborted.cs = .deasserted := by simp [State.aborted]

theorem Issued.exchanged {s : State} (hk : s.exchanges ∉ s.faultSet) (out r : Byte) :
    Issued [.x out r] s (s.exchanged out r) :=
  ⟨by simp, by simp [Phase.advance_eq], by simp, by simp, by simp [exchangeCount], by simp, by simp, hk, trivial⟩

theorem Issued.aborted {s : State} (hk : s.exchanges ∈ s.faultSet) (out : Byte) :
    Issued [.xf out, .csd, .dly settleMs] s (s.exchangeFaulted out).aborted :=
  ⟨by simp [State.aborted], by simp [State.aborted, Phase.advance_eq], by simp [State.aborted], by simp [State.aborted],
    by simp [State.aborted, exchangeCount], by simp [State.aborted], by simp [State.aborted], hk, trivial⟩

/-! ### Payloads -/

/-- The events of payload exchanges. -/
abbrev xs (outs ins : List Byte) : List Event := List.zipWith Event.x outs ins

/-- What the payload exchanges can do when all of them complete. -/
structure Sent (outs ins : List Byte) (s s' : State) : Prop where
  len : ins.length = outs.length
  issued : Issued (xs outs ins) s s'
  untouched : Untouched s s'
  cs : s'.cs = s.cs
  noFault : NoFault s → NoFault s'

theorem Sent.nil (s : State) : Sent [] [] s s := ⟨rfl, Issued.refl s, Untouched.refl s, rfl, id⟩

theorem Sent.cons {s s' : State} {out r : Byte} {outs ins : List Byte} (hk : s.exchanges ∉ s.faultSet)
    (h : Sent outs ins (s.exchanged out r) s') : Sent (out :: outs) (r :: ins) s s' where
  len := by simp [h.len]
  issued := by simpa using (Issued.exchanged hk out r).trans h.issued
  untouched := (Untouched.exchanged s out r).trans h.untouched
  cs := h.cs
  noFault hf := h.noFault (hf.exchanged _ _)

theorem Sent.draw {s s' : State} {outs ins : List Byte} (h : Sent outs ins s.countDraw s') : Sent outs ins s s' where
  len := h.len
  issued := h.issued.congr
  untouched := ⟨h.untouched.1, h.untouched.2, h.untouched.3⟩
  cs := h.cs
  noFault hf := h.noFault hf.countDraw

/-- A transaction cut short (R80): some payload exchanges, the faulted one, chip-select deasserted, the delay.
`P` says what the exchanges sent. -/
structure CutShort (P : List Byte → Byte → Prop) (s s' : State) : Prop where
  issued : ∃ outs ins out, ins.length = outs.length ∧ P outs out ∧ Issued (xs outs ins ++ [.xf out, .csd, .dly settleMs]) s s'
  untouched : Untouched s s'
  cs : s'.cs = .deasserted
  faulted : ¬ NoFault s

theorem CutShort.cons {P Q : List Byte → Byte → Prop} {s s' : State} {out r : Byte} (hk : s.exchanges ∉ s.faultSet)
    (hp : ∀ outs o, P outs o → Q (out :: outs) o) (h : CutShort P (s.exchanged out r) s') : CutShort Q s s' where
  issued := by
    obtain ⟨outs, ins, o, hl, hpo, hi⟩ := h.issued
    exact ⟨out :: outs, r :: ins, o, by simp [hl], hp _ _ hpo, by simpa using (Issued.exchanged hk out r).trans hi⟩
  untouched := (Untouched.exchanged s out r).trans h.untouched
  cs := h.cs
  faulted hf := h.faulted (hf.exchanged _ _)

theorem CutShort.draw {P : List Byte → Byte → Prop} {s s' : State} (h : CutShort P s.countDraw s') : CutShort P s s' where
  issued := by
    obtain ⟨outs, ins, o, hl, hp, hi⟩ := h.issued
    exact ⟨outs, ins, o, hl, hp, hi.congr⟩
  untouched := ⟨h.untouched.1, h.untouched.2, h.untouched.3⟩
  cs := h.cs
  faulted hf := h.faulted hf.countDraw

theorem CutShort.now {P : List Byte → Byte → Prop} {s s' : State} {out : Byte} {e : Err} (hp : P [] out)
    (h : (exchangeOrAbort out).run s = .error e s') : CutShort P s s' := by
  obtain ⟨-, hk, rfl⟩ := exchangeOrAbort_error h
  have hi : Issued (xs [] [] ++ [.xf out, .csd, .dly settleMs]) s (s.exchangeFaulted out).aborted := by
    simpa using Issued.aborted hk out
  exact ⟨⟨[], [], out, rfl, hp, hi⟩, (Untouched.exchangeFaulted s out).trans (Untouched.aborted _), State.aborted_cs _,
    fun hf => hf.next hk⟩

theorem sendBytes_ok {bs : List Byte} {s s' : State} {u : Unit} (h : (sendBytes bs).run s = .ok u s') :
    ∃ ins, Sent bs ins s s' := by
  induction bs generalizing s with
  | nil => cases h; exact ⟨[], Sent.nil _⟩
  | cons b bs ih =>
    obtain ⟨r, s₁, h₁, h₂⟩ := Op.bind_ok.1 h
    obtain ⟨rfl, hk, -⟩ := exchangeOrAbort_ok h₁
    obtain ⟨ins, hs⟩ := ih h₂
    exact ⟨r :: ins, hs.cons hk⟩

theorem sendBytes_error {bs : List Byte} {e : Err} {s s' : State} (h : (sendBytes bs).run s = .error e s') :
    e = .transportFailure ∧ CutShort (fun outs out => outs ++ [out] <+: bs) s s' := by
  induction bs generalizing s with
  | nil => cases h
  | cons b bs ih =>
    obtain h₁ | ⟨r, s₁, h₁, h₂⟩ := Op.bind_error.1 h
    · exact ⟨(exchangeOrAbort_error h₁).1, CutShort.now (by simp) h₁⟩
    · obtain ⟨rfl, hk, -⟩ := exchangeOrAbort_ok h₁
      exact ⟨(ih h₂).1, (ih h₂).2.cons hk fun _ _ h => List.cons_prefix_cons.2 ⟨rfl, h⟩⟩

theorem receiveBytes_ok {n : Nat} {d : List Byte} {s s' : State} (h : (receiveBytes n).run s = .ok d s') :
    ∃ outs, outs.length = n ∧ Sent outs d s s' := by
  induction n generalizing s d with
  | zero => cases h; exact ⟨[], rfl, Sent.nil _⟩
  | succ n ih =>
    obtain ⟨f, s₁, h₁, h₂⟩ := Op.bind_ok.1 h
    cases h₁
    obtain ⟨r, s₂, h₃, h₄⟩ := Op.bind_ok.1 h₂
    obtain ⟨rfl, hk, -⟩ := exchangeOrAbort_ok h₃
    obtain ⟨rs, s₃, h₅, h₆⟩ := Op.bind_ok.1 h₄
    cases h₆
    obtain ⟨outs, hl, hs⟩ := ih h₅
    exact ⟨_ :: outs, by simp [hl], (hs.cons hk).draw⟩

theorem receiveBytes_error {n : Nat} {e : Err} {s s' : State} (h : (receiveBytes n).run s = .error e s') :
    e = .transportFailure ∧ CutShort (fun outs _ => outs.length < n) s s' := by
  induction n generalizing s with
  | zero => cases h
  | succ n ih =>
    obtain h₁ | ⟨f, s₁, h₁, h₂⟩ := Op.bind_error.1 h
    · cases h₁
    cases h₁
    obtain h₃ | ⟨r, s₂, h₃, h₄⟩ := Op.bind_error.1 h₂
    · exact ⟨(exchangeOrAbort_error h₃).1, (CutShort.now n.succ_pos h₃).draw⟩
    obtain ⟨rfl, hk, -⟩ := exchangeOrAbort_ok h₃
    obtain h₅ | ⟨rs, s₃, h₅, h₆⟩ := Op.bind_error.1 h₄
    · exact ⟨(ih h₅).1, ((ih h₅).2.cons hk fun _ _ => Nat.succ_lt_succ).draw⟩
    · cases h₆

theorem payload_ok {buf : List Byte} {n : Nat} {dir : Direction} {d : List Byte} {s s' : State}
    (h : (payload buf n dir).run s = .ok d s') : ∃ outs ins, Sent outs ins s s' ∧ Carries buf n dir outs ins d := by
  cases dir with
  | h2d =>
    obtain ⟨u, s₁, h₁, h₂⟩ := Op.bind_ok.1 h
    cases h₂
    obtain ⟨ins, hs⟩ := sendBytes_ok h₁
    exact ⟨buf, ins, hs, rfl, rfl⟩
  | d2h =>
    obtain ⟨outs, hl, hs⟩ := receiveBytes_ok h
    exact ⟨outs, d, hs, hl, rfl⟩
  | none => cases h; exact ⟨[], [], Sent.nil _, rfl, rfl⟩

theorem payload_error {buf : List Byte} {n : Nat} {dir : Direction} {e : Err} {s s' : State}
    (h : (payload buf n dir).run s = .error e s') :
    e = .transportFailure ∧ CutShort (CutPayload buf n dir) s s' := by
  cases dir with
  | h2d =>
    obtain h₁ | ⟨u, s₁, h₁, h₂⟩ := Op.bind_error.1 h
    · exact sendBytes_error h₁
    · cases h₂
  | d2h => exact receiveBytes_error h
  | none => cases h

/-! ### The TransactionExecutor -/

/-- Chip-select asserted (R75). -/
abbrev State.opened (s : State) : State := (s.setCs .asserted).note .csa

theorem Untouched.opened (s : State) : Untouched s s.opened := ⟨by simp, by simp, by simp⟩

theorem NoFault.opened {s : State} (h : NoFault s) : NoFault s.opened := h.of_le

theorem Issued.opened (s : State) : Issued [.csa] s s.opened := 
  ⟨by simp, by simp [Phase.advance_eq], by simp, by simp, by simp [exchangeCount], by simp, by simp, trivial⟩

theorem Issued.closed (s : State) : Issued [.csd, .dly settleMs] s s.aborted :=
  ⟨by simp [State.aborted], by simp [State.aborted, Phase.advance_eq], by simp [State.aborted], by simp [State.aborted],
    by simp [State.aborted, exchangeCount], by simp [State.aborted], by simp [State.aborted], trivial⟩

/-- What Execute does when it completes (R74). -/
structure Executed (cmd st : Byte) (outs ins : List Byte) (s s' : State) : Prop where
  len : ins.length = outs.length
  issued : Issued (frameEvents cmd st outs ins) s s'
  untouched : Untouched s s'
  cs : s'.cs = .deasserted
  noFault : NoFault s → NoFault s'

/-- Everything Execute can do when it completes (R74 to R79, R82). -/
theorem execute_ok {cmd : Byte} {buf : List Byte} {n : Nat} {dir : Direction} {r : Byte × List Byte} {s s' : State}
    (h : (execute cmd buf n dir).run s = .ok r s') :
    ∃ outs ins, Executed cmd r.1 outs ins s s' ∧ Carries buf n dir outs ins r.2 := by
  unfold execute at h
  obtain ⟨u, s₁, h₁, h⟩ := Op.bind_ok.1 h
  cases h₁
  obtain ⟨st, s₂, h₂, h⟩ := Op.bind_ok.1 h
  obtain ⟨rfl, hk, -⟩ := exchangeOrAbort_ok h₂
  obtain ⟨d, s₃, h₃, h⟩ := Op.bind_ok.1 h
  obtain ⟨outs, ins, hs, hc⟩ := payload_ok h₃
  obtain ⟨u₄, s₄, h₄, h⟩ := Op.bind_ok.1 h
  cases h₄
  obtain ⟨u₅, s₅, h₅, h⟩ := Op.bind_ok.1 h
  cases h₅
  cases h
  refine ⟨outs, ins, ⟨hs.len, ?_, ?_, State.aborted_cs _, fun hf => ?_⟩, hc⟩
  · have := (((Issued.opened s).trans (Issued.exchanged hk cmd st)).trans hs.issued).trans (Issued.closed s₃)
    simpa [frameEvents, State.aborted] using this
  · exact (((Untouched.opened s).trans (Untouched.exchanged _ cmd st)).trans hs.untouched).trans (Untouched.aborted _)
  · exact (hs.noFault (hf.opened.exchanged _ _)).aborted

/-- What Execute does when it fails (R80). -/
structure Aborted (cmd : Byte) (buf : List Byte) (n : Nat) (dir : Direction) (s s' : State) : Prop where
  issued : ∃ ev, CutEvents cmd buf n dir ev ∧ Issued ev s s'
  untouched : Untouched s s'
  cs : s'.cs = .deasserted
  faulted : ¬ NoFault s

/-- Everything Execute can do when it fails (R80, R82). -/
theorem execute_error {cmd : Byte} {buf : List Byte} {n : Nat} {dir : Direction} {e : Err} {s s' : State}
    (h : (execute cmd buf n dir).run s = .error e s') :
    e = .transportFailure ∧ Aborted cmd buf n dir s s' := by
  unfold execute at h
  obtain h₁ | ⟨u, s₁, h₁, h⟩ := Op.bind_error.1 h
  · cases h₁
  cases h₁
  obtain h₂ | ⟨st, s₂, h₂, h⟩ := Op.bind_error.1 h
  · obtain ⟨he, hk, rfl⟩ := exchangeOrAbort_error h₂
    refine ⟨he, ⟨_, .inl rfl, ?_⟩, ?_, State.aborted_cs _, fun hf => ?_⟩
    · exact (Issued.opened s).trans (Issued.aborted hk cmd)
    · exact ((Untouched.opened s).trans (Untouched.exchangeFaulted _ cmd)).trans (Untouched.aborted _)
    · exact hf.opened.next hk
  obtain ⟨rfl, hk, -⟩ := exchangeOrAbort_ok h₂
  obtain h₃ | ⟨d, s₃, h₃, h⟩ := Op.bind_error.1 h
  · obtain ⟨he, hc⟩ := payload_error h₃
    obtain ⟨outs, ins, out, hl, hp, hi⟩ := hc.issued
    refine ⟨he, ⟨_, .inr ⟨st, outs, ins, out, hl, hp, rfl⟩, ?_⟩, ?_, hc.cs, fun hf => ?_⟩
    · simpa using ((Issued.opened s).trans (Issued.exchanged hk cmd st)).trans hi
    · exact ((Untouched.opened s).trans (Untouched.exchanged _ cmd st)).trans hc.untouched
    · exact hc.faulted (hf.opened.exchanged _ _)
  obtain h₄ | ⟨u₄, s₄, h₄, h⟩ := Op.bind_error.1 h
  · cases h₄
  obtain h₅ | ⟨u₅, s₅, h₅, h⟩ := Op.bind_error.1 h
  · cases h₅
  · cases h

/-- Execute completes where no exchange faults. -/
theorem execute_noFault {s : State} (hf : NoFault s) (cmd : Byte) (buf : List Byte) (n : Nat) (dir : Direction) :
    ∃ r s', (execute cmd buf n dir).run s = .ok r s' := by
  cases h : (execute cmd buf n dir).run s with
  | ok r s' => exact ⟨r, s', rfl⟩
  | error e s' => exact absurd hf (execute_error h).2.faulted

/-! ### The BankTracker -/

/-- What EnsureBank does when it completes (spec/40_bank_tracker.md R70). -/
structure Guarded (t : Bank) (s s' : State) : Prop where
  work : ∃ ev, BankWork s.currentBank t ev ∧ Issued ev s s'
  belief : s'.currentBank = .known t
  ce : s'.ce = s.ce
  modeTrack : s'.modeTrack = s.modeTrack
  cs : s.cs = .deasserted → s'.cs = .deasserted
  noFault : NoFault s → NoFault s'

theorem resolve_ok {s s' : State} {u : Unit} (h : resolve.run s = .ok u s') :
    ∃ st f d, Issued (frameEvents 0x07 st [f] [d]) s s' ∧ s'.currentBank = .known (statusBank d) ∧ s'.ce = s.ce ∧
      s'.modeTrack = s.modeTrack ∧ s'.cs = .deasserted ∧ (NoFault s → NoFault s') := by
  unfold resolve at h
  obtain ⟨r, s₁, h₁, h₂⟩ := Op.bind_ok.1 h
  obtain ⟨outs, ins, he, hl, hd⟩ := execute_ok h₁
  cases h₂
  obtain ⟨f, rfl⟩ := List.length_eq_one_iff.1 hl
  obtain ⟨d, rfl⟩ := List.length_eq_one_iff.1 (he.len.trans hl)
  refine ⟨r.1, f, d, he.issued.congr, ?_, he.untouched.ce,
    he.untouched.modeTrack, he.cs, fun hf => (he.noFault hf).setBank _⟩
  simp [hd, firstByte]

theorem resolve_error {s s' : State} {e : Err} (h : resolve.run s = .error e s') :
    e = .transportFailure ∧ Aborted 0x07 [] 1 .d2h s s' := by
  unfold resolve at h
  obtain h₁ | ⟨r, s₁, h₁, h₂⟩ := Op.bind_error.1 h
  · exact execute_error h₁
  · cases h₂

theorem toggle_ok {s s' : State} {u : Unit} (h : toggle.run s = .ok u s') :
    ∃ st r, Executed 0x50 st [0x53] [r] s s' := by
  unfold toggle at h
  obtain ⟨r, s₁, h₁, h₂⟩ := Op.bind_ok.1 h
  obtain ⟨outs, ins, he, rfl, hd⟩ := execute_ok h₁
  cases h₂
  obtain ⟨d, rfl⟩ := List.length_eq_one_iff.1 he.len
  exact ⟨r.1, d, he⟩

theorem toggle_error {s s' : State} {e : Err} (h : toggle.run s = .error e s') :
    e = .transportFailure ∧ Aborted 0x50 [0x53] 1 .h2d s s' := by
  unfold toggle at h
  obtain h₁ | ⟨r, s₁, h₁, h₂⟩ := Op.bind_error.1 h
  · exact execute_error h₁
  · cases h₂

/-- The second half of EnsureBank, from a belief that is known. -/
def toggleTo (t : Bank) : Op Unit := do
  if (← belief) ≠ .known t then
    toggle
    believe (.known t)

theorem belief_run (s : State) : belief.run s = .ok s.currentBank s := rfl

theorem ensureBank_known {t : Bank} {s : State} {c : Bank} (h : s.currentBank = .known c) :
    (ensureBank t).run s = (toggleTo t).run s := by
  unfold ensureBank
  rw [Op.bind_of_ok (belief_run s), h]
  rfl

theorem ensureBank_unknown {t : Bank} {s : State} (h : s.currentBank = .unknown) :
    (ensureBank t).run s = (resolve >>= fun _ => toggleTo t).run s := by
  unfold ensureBank
  rw [Op.bind_of_ok (belief_run s), h]
  rfl

theorem toggleTo_ok {t c : Bank} {s s' : State} {u : Unit} (hc : s.currentBank = .known c)
    (h : (toggleTo t).run s = .ok u s') :
    (∃ ev, ToggleWork c t ev ∧ Issued ev s s') ∧ s'.currentBank = .known t ∧ s'.ce = s.ce ∧
      s'.modeTrack = s.modeTrack ∧ (s.cs = .deasserted → s'.cs = .deasserted) ∧ (NoFault s → NoFault s') := by
  unfold toggleTo at h
  obtain ⟨b, s₁, h₁, h⟩ := Op.bind_ok.1 h
  cases h₁
  by_cases hb : c = t
  · subst hb
    simp only [hc, ne_eq, not_true, if_false] at h
    cases h
    exact ⟨⟨[], by simp [ToggleWork], Issued.refl s⟩, hc, rfl, rfl, id, id⟩
  · rw [if_pos (by simp [hc, hb])] at h
    obtain ⟨u₂, s₂, h₂, h⟩ := Op.bind_ok.1 h
    obtain ⟨st, r, he⟩ := toggle_ok h₂
    cases h
    exact ⟨⟨_, by simp only [ToggleWork, if_neg hb]; exact ⟨st, r, rfl⟩, he.issued.congr⟩, rfl, he.untouched.ce, he.untouched.modeTrack, fun _ => he.cs,
      fun hf => (he.noFault hf).setBank _⟩

theorem toggleTo_error {t : Bank} {e : Err} {s s' : State} (h : (toggleTo t).run s = .error e s') :
    e = .transportFailure ∧ s.currentBank ≠ .known t ∧ Aborted 0x50 [0x53] 1 .h2d s s' := by
  unfold toggleTo at h
  obtain h₁ | ⟨b, s₁, h₁, h⟩ := Op.bind_error.1 h
  · cases h₁
  cases h₁
  by_cases hb : s.currentBank = .known t
  · rw [if_neg (by simp [hb])] at h; cases h
  · rw [if_pos hb] at h
    obtain h₂ | ⟨u₂, s₂, h₂, h⟩ := Op.bind_error.1 h
    · exact ⟨(toggle_error h₂).1, hb, (toggle_error h₂).2⟩
    · cases h

/-- Everything EnsureBank can do when it completes (R70, R71). -/
theorem ensureBank_ok {t : Bank} {s s' : State} {u : Unit} (h : (ensureBank t).run s = .ok u s') : Guarded t s s' := by
  cases hc : s.currentBank with
  | known c =>
    rw [ensureBank_known hc] at h
    obtain ⟨⟨ev, hw, hi⟩, hb, hce, hm, hcs, hf⟩ := toggleTo_ok hc h
    exact ⟨⟨ev, by rw [hc]; exact hw, hi⟩, hb, hce, hm, hcs, hf⟩
  | unknown =>
    rw [ensureBank_unknown hc] at h
    obtain ⟨u₁, s₁, h₁, h₂⟩ := Op.bind_ok.1 h
    obtain ⟨st, f, d, hi₁, hb₁, hce₁, hm₁, hcs₁, hf₁⟩ := resolve_ok h₁
    obtain ⟨⟨ev, hw, hi⟩, hb, hce, hm, hcs, hf⟩ := toggleTo_ok hb₁ h₂
    exact ⟨⟨_, by rw [hc]; exact ⟨st, f, d, ev, rfl, hw⟩, hi₁.trans hi⟩, hb, hce.trans hce₁, hm.trans hm₁,
      fun _ => hcs hcs₁, fun h => hf (hf₁ h)⟩

/-- Everything EnsureBank can do when it fails (R72): the resolution read failed and the belief stays Unknown, or the
toggle failed and the belief is what it was before the toggle. -/
theorem ensureBank_error {t : Bank} {e : Err} {s s' : State} (h : (ensureBank t).run s = .error e s') :
    e = .transportFailure ∧ s'.cs = .deasserted ∧ s'.ce = s.ce ∧ s'.modeTrack = s.modeTrack ∧ ¬ NoFault s ∧
      ((s.currentBank = .unknown ∧ s'.currentBank = .unknown ∧ ∃ ev, CutEvents 0x07 [] 1 .d2h ev ∧ Issued ev s s') ∨
       (∃ c, s.currentBank = .known c ∧ c ≠ t ∧ s'.currentBank = .known c ∧
          ∃ ev, CutEvents 0x50 [0x53] 1 .h2d ev ∧ Issued ev s s') ∨
       (s.currentBank = .unknown ∧ ∃ st f d ev, statusBank d ≠ t ∧ s'.currentBank = .known (statusBank d) ∧
          CutEvents 0x50 [0x53] 1 .h2d ev ∧ Issued (frameEvents 0x07 st [f] [d] ++ ev) s s')) := by
  cases hc : s.currentBank with
  | known c =>
    rw [ensureBank_known hc] at h
    obtain ⟨he, hb, ha⟩ := toggleTo_error h
    refine ⟨he, ha.cs, ha.untouched.ce, ha.untouched.modeTrack, ha.faulted, .inr (.inl ⟨c, rfl, ?_, ?_, ha.issued⟩)⟩
    · rintro rfl; exact hb hc
    · rw [ha.untouched.currentBank, hc]
  | unknown =>
    rw [ensureBank_unknown hc] at h
    obtain h₁ | ⟨u₁, s₁, h₁, h₂⟩ := Op.bind_error.1 h
    · obtain ⟨he, ha⟩ := resolve_error h₁
      exact ⟨he, ha.cs, ha.untouched.ce, ha.untouched.modeTrack, ha.faulted,
        .inl ⟨rfl, by rw [ha.untouched.currentBank, hc], ha.issued⟩⟩
    · obtain ⟨st, f, d, hi₁, hb₁, hce₁, hm₁, hcs₁, hf₁⟩ := resolve_ok h₁
      obtain ⟨he, hb, ha⟩ := toggleTo_error h₂
      obtain ⟨ev, hev, hi⟩ := ha.issued
      refine ⟨he, ha.cs, ha.untouched.ce.trans hce₁, ha.untouched.modeTrack.trans hm₁, fun hf => ha.faulted (hf₁ hf),
        .inr (.inr ⟨rfl, st, f, d, ev, ?_, ?_, hev, hi₁.trans hi⟩)⟩
      · intro hd; exact hb (by rw [hb₁, hd])
      · rw [ha.untouched.currentBank, hb₁]

theorem ensureBank_noFault {s : State} (hf : NoFault s) (t : Bank) : ∃ u s', (ensureBank t).run s = .ok u s' := by
  cases h : (ensureBank t).run s with
  | ok r s' => exact ⟨r, s', rfl⟩
  | error e s' => exact absurd hf (ensureBank_error h).2.2.2.2.1

end Sys2Proof.Machine
end

