-- ==== Sys2Proof/Laws/Trace.lean ====
section
/-! SUPPORT. The event lists of transactions under the counts and the framing automaton of Safety.lean. -/

namespace Sys2Proof.Machine

/-! ### Faults -/

@[simp] theorem faultCount_nil : faultCount [] = 0 := rfl

@[simp] theorem faultCount_ce (l : Level) : faultCount [.ce l] = 0 := rfl

@[simp] theorem faultCount_append (a b : List Event) : faultCount (a ++ b) = faultCount a + faultCount b := by
  simp [faultCount]

@[simp] theorem faultCount_xs (outs ins : List Byte) : faultCount (List.zipWith Event.x outs ins) = 0 := by
  induction outs generalizing ins with
  | nil => rfl
  | cons o os ih => cases ins with
    | nil => rfl
    | cons i is => simpa [faultCount] using ih is

@[simp] theorem faultCount_frameEvents (cmd st : Byte) (outs ins : List Byte) :
    faultCount (frameEvents cmd st outs ins) = 0 := by
  simp only [frameEvents, faultCount_append, faultCount_xs]; rfl

/-- Events that end with a faulted exchange and its transaction's end, no fault before. -/
def FailEvents (ev : List Event) : Prop :=
  ∃ pre out, faultCount pre = 0 ∧ ev = pre ++ [.xf out, .csd, .dly settleMs]

theorem FailEvents.of_cut {cmd : Byte} {buf : List Byte} {n : Nat} {dir : Direction} {ev : List Event}
    (h : CutEvents cmd buf n dir ev) : FailEvents ev := by
  obtain rfl | ⟨st, outs, ins, out, hl, -, rfl⟩ := h
  · exact ⟨[.csa], cmd, rfl, rfl⟩
  · exact ⟨_, out, by simp only [faultCount_append, faultCount_xs]; rfl, rfl⟩

theorem FailEvents.after {pre ev : List Event} (hp : faultCount pre = 0) (h : FailEvents ev) :
    FailEvents (pre ++ ev) := by
  obtain ⟨p, out, hz, rfl⟩ := h
  exact ⟨pre ++ p, out, by simp [hp, hz], by simp⟩

theorem faultCount_of_toggleWork {c t : Bank} {ev : List Event} (h : ToggleWork c t ev) : faultCount ev = 0 := by
  unfold ToggleWork at h
  split at h
  · simp [h]
  · obtain ⟨st, r, rfl⟩ := h; simp

theorem faultCount_of_bankWork {b : BankBelief} {t : Bank} {ev : List Event} (h : BankWork b t ev) :
    faultCount ev = 0 := by
  cases b with
  | known c => exact faultCount_of_toggleWork h
  | unknown =>
    obtain ⟨st, f, d, ev', rfl, hw⟩ := h
    simp [faultCount_of_toggleWork hw]

theorem faultCount_of_guardWork {b : BankBelief} {t : Option Bank} {ev : List Event} (h : GuardWork b t ev) :
    faultCount ev = 0 := by
  cases t with
  | none => simp only [GuardWork] at h; simp [h]
  | some t => exact faultCount_of_bankWork h

/-! ### Framing -/

@[simp] theorem busRun_nil (legal : Byte → Bool) (b : BusState) : busRun legal b [] = some b := rfl

theorem busRun_cons {legal : Byte → Bool} {b b' : BusState} {e : Event} (h : busStep legal b e = some b')
    (es : List Event) : busRun legal b (e :: es) = busRun legal b' es := by
  simp [busRun, h]

@[simp] theorem busRun_ready_csa (legal : Byte → Bool) (es : List Event) :
    busRun legal .ready (.csa :: es) = busRun legal .selected es := busRun_cons rfl es

@[simp] theorem busRun_ready_ce (legal : Byte → Bool) (l : Level) (es : List Event) :
    busRun legal .ready (.ce l :: es) = busRun legal .ready es := busRun_cons rfl es

theorem busRun_selected_x {legal : Byte → Bool} {out : Byte} (h : legal out = true) (inn : Byte) (es : List Event) :
    busRun legal .selected (.x out inn :: es) = busRun legal .exchanging es :=
  busRun_cons (by unfold busStep; simp [h]) es

theorem busRun_selected_xf {legal : Byte → Bool} {out : Byte} (h : legal out = true) (es : List Event) :
    busRun legal .selected (.xf out :: es) = busRun legal .faulted es :=
  busRun_cons (by unfold busStep; simp [h]) es

@[simp] theorem busRun_exchanging_x (legal : Byte → Bool) (out inn : Byte) (es : List Event) :
    busRun legal .exchanging (.x out inn :: es) = busRun legal .exchanging es := busRun_cons rfl es

@[simp] theorem busRun_exchanging_xf (legal : Byte → Bool) (out : Byte) (es : List Event) :
    busRun legal .exchanging (.xf out :: es) = busRun legal .faulted es := busRun_cons rfl es

@[simp] theorem busRun_exchanging_csd (legal : Byte → Bool) (es : List Event) :
    busRun legal .exchanging (.csd :: es) = busRun legal .released es := busRun_cons rfl es

@[simp] theorem busRun_faulted_csd (legal : Byte → Bool) (es : List Event) :
    busRun legal .faulted (.csd :: es) = busRun legal .released es := busRun_cons rfl es

@[simp] theorem busRun_released_dly (legal : Byte → Bool) (es : List Event) :
    busRun legal .released (.dly settleMs :: es) = busRun legal .ready es := busRun_cons rfl es

theorem busRun_append (legal : Byte → Bool) (b : BusState) (e₁ e₂ : List Event) :
    busRun legal b (e₁ ++ e₂) = (busRun legal b e₁).bind fun b' => busRun legal b' e₂ := by
  simp [busRun, List.foldlM_append]

/-- Events that lead a ready bus back to a ready bus. -/
def Framed (ev : List Event) : Prop := busRun emittedByte .ready ev = some .ready

theorem Framed.nil : Framed [] := rfl

theorem Framed.append {e₁ e₂ : List Event} (h₁ : Framed e₁) (h₂ : Framed e₂) : Framed (e₁ ++ e₂) := by
  unfold Framed at *
  rw [busRun_append, h₁]; exact h₂

theorem Framed.ce (l : Level) : Framed [.ce l] := rfl

theorem busRun_xs (outs ins : List Byte) (ev : List Event) :
    busRun emittedByte .exchanging (List.zipWith Event.x outs ins ++ ev) = busRun emittedByte .exchanging ev := by
  induction outs generalizing ins with
  | nil => rfl
  | cons o os ih => cases ins with
    | nil => rfl
    | cons i is => simpa using ih is

theorem Framed.frameEvents {cmd : Byte} (h : emittedByte cmd = true) (st : Byte) (outs ins : List Byte) :
    Framed (frameEvents cmd st outs ins) := by
  unfold Framed Machine.frameEvents
  simp only [List.cons_append, List.nil_append]
  rw [busRun_ready_csa, busRun_selected_x h, busRun_xs]
  simp

theorem Framed.of_cut {cmd : Byte} (h : emittedByte cmd = true) {buf : List Byte} {n : Nat} {dir : Direction}
    {ev : List Event} (he : CutEvents cmd buf n dir ev) : Framed ev := by
  unfold Framed
  obtain rfl | ⟨st, outs, ins, out, hl, -, rfl⟩ := he
  · rw [busRun_ready_csa, busRun_selected_xf h]; simp
  · simp only [List.cons_append, List.nil_append]
    rw [busRun_ready_csa, busRun_selected_x h, busRun_xs]
    simp

theorem Framed.of_toggleWork {c t : Bank} {ev : List Event} (h : ToggleWork c t ev) : Framed ev := by
  unfold ToggleWork at h
  split at h
  · subst h; exact Framed.nil
  · obtain ⟨st, r, rfl⟩ := h; exact Framed.frameEvents (by decide) _ _ _

theorem Framed.of_bankWork {b : BankBelief} {t : Bank} {ev : List Event} (h : BankWork b t ev) : Framed ev := by
  cases b with
  | known c => exact Framed.of_toggleWork h
  | unknown =>
    obtain ⟨st, f, d, ev', rfl, hw⟩ := h
    exact (Framed.frameEvents (by decide) _ _ _).append (Framed.of_toggleWork hw)

theorem Framed.of_guardWork {b : BankBelief} {t : Option Bank} {ev : List Event} (h : GuardWork b t ev) :
    Framed ev := by
  cases t with
  | none => cases h; exact Framed.nil
  | some t => exact Framed.of_bankWork h

/-! ### Counts -/

theorem commandBytes_xs (outs ins : List Byte) (ev : List Event) :
    commandBytes (List.zipWith Event.x outs ins ++ ev) = commandBytes ev := by
  induction outs generalizing ins with
  | nil => rfl
  | cons o os ih => cases ins with
    | nil => rfl
    | cons i is => simpa [commandBytes] using ih is

/-- A transaction before other events has the one command byte. -/
theorem commandBytes_frameEvents (cmd st : Byte) (outs ins : List Byte) (ev : List Event) :
    commandBytes (frameEvents cmd st outs ins ++ ev) = cmd :: commandBytes ev := by
  simp only [frameEvents, List.cons_append, List.nil_append, List.append_assoc, commandBytes]
  rw [commandBytes_xs]
  simp [commandBytes]

@[simp] theorem commandBytes_frame (cmd st : Byte) (outs ins : List Byte) :
    commandBytes (frameEvents cmd st outs ins) = [cmd] := by
  simpa [commandBytes] using commandBytes_frameEvents cmd st outs ins []

/-- A drive of chip-enable is no transaction. -/
@[simp] theorem commandBytes_ce (l : Level) (ev : List Event) : commandBytes (.ce l :: ev) = commandBytes ev := rfl

@[simp] theorem settleDelays_nil : settleDelays [] = 0 := rfl

/-- A drive of chip-enable makes no settle delay. -/
@[simp] theorem settleDelays_ce (l : Level) (ev : List Event) : settleDelays (.ce l :: ev) = settleDelays ev := by
  simp [settleDelays]

theorem settleDelays_append (a b : List Event) : settleDelays (a ++ b) = settleDelays a + settleDelays b := by
  simp [settleDelays]

theorem settleDelays_xs (outs ins : List Byte) : settleDelays (List.zipWith Event.x outs ins) = 0 := by
  induction outs generalizing ins with
  | nil => rfl
  | cons o os ih => cases ins with
    | nil => rfl
    | cons i is => simpa [settleDelays] using ih is

/-- A complete transaction makes one settle delay (spec/41_transaction_executor.md R79). -/
@[simp] theorem settleDelays_frame (cmd st : Byte) (outs ins : List Byte) :
    settleDelays (frameEvents cmd st outs ins) = 1 := by
  simp only [frameEvents, settleDelays_append, settleDelays_xs]; rfl

/-- Events after which the command bytes of what follows simply continue. -/
def Closed (ev : List Event) : Prop := ∀ ev', commandBytes (ev ++ ev') = commandBytes ev ++ commandBytes ev'

theorem Closed.nil : Closed [] := fun _ => rfl

theorem Closed.append {a b : List Event} (ha : Closed a) (hb : Closed b) : Closed (a ++ b) := by
  intro ev
  rw [List.append_assoc, ha, hb, ha, List.append_assoc]

theorem Closed.ce (l : Level) : Closed [.ce l] := fun _ => rfl

theorem Closed.frameEvents (cmd st : Byte) (outs ins : List Byte) : Closed (frameEvents cmd st outs ins) := by
  intro ev
  rw [commandBytes_frameEvents, commandBytes_frame]; rfl

theorem Closed.of_toggleWork {c t : Bank} {ev : List Event} (h : ToggleWork c t ev) : Closed ev := by
  unfold ToggleWork at h
  split at h
  · subst h; exact Closed.nil
  · obtain ⟨st, r, rfl⟩ := h; exact Closed.frameEvents _ _ _ _

theorem Closed.of_bankWork {b : BankBelief} {t : Bank} {ev : List Event} (h : BankWork b t ev) : Closed ev := by
  cases b with
  | known c => exact Closed.of_toggleWork h
  | unknown =>
    obtain ⟨st, f, d, ev', rfl, hw⟩ := h
    exact (Closed.frameEvents _ _ _ _).append (Closed.of_toggleWork hw)

theorem Closed.of_guardWork {b : BankBelief} {t : Option Bank} {ev : List Event} (h : GuardWork b t ev) :
    Closed ev := by
  cases t with
  | none => cases h; exact Closed.nil
  | some t => exact Closed.of_bankWork h

/-- The command bytes of toggle work. -/
theorem commandBytes_toggleWork {c t : Bank} {ev : List Event} (h : ToggleWork c t ev) :
    commandBytes ev = if c = t then [] else [0x50] := by
  unfold ToggleWork at h
  by_cases hc : c = t
  · rw [if_pos hc] at h ⊢; subst h; rfl
  · rw [if_neg hc] at h ⊢; obtain ⟨st, r, rfl⟩ := h; simp

/-- The command bytes of a transaction cut short. -/
theorem commandBytes_cut {cmd : Byte} {buf : List Byte} {n : Nat} {dir : Direction} {ev : List Event}
    (h : CutEvents cmd buf n dir ev) : commandBytes ev = [cmd] := by
  obtain rfl | ⟨st, outs, ins, out, hl, -, rfl⟩ := h
  · rfl
  · simp only [List.cons_append, List.nil_append, commandBytes]
    rw [commandBytes_xs]; rfl

/-- Bank work is at most a resolution read and a toggle, and makes a settle delay for each transaction
(spec/70_reset_and_hazards.md R137). -/
theorem bankWork_counts {b : BankBelief} {t : Bank} {ev : List Event} (h : BankWork b t ev) :
    (commandBytes ev).length ≤ 2 ∧ settleDelays ev = (commandBytes ev).length := by
  have ht : ∀ {c : Bank} {ev : List Event}, ToggleWork c t ev →
      (commandBytes ev).length ≤ 1 ∧ settleDelays ev = (commandBytes ev).length := by
    intro c ev h
    unfold ToggleWork at h
    split at h
    · subst h; exact ⟨by simp [commandBytes], rfl⟩
    · obtain ⟨st, r, rfl⟩ := h; simp
  cases b with
  | known c => exact ⟨(ht h).1.trans (by omega), (ht h).2⟩
  | unknown =>
    obtain ⟨st, f, d, ev', rfl, hw⟩ := h
    obtain ⟨h₁, h₂⟩ := ht hw
    rw [commandBytes_frameEvents, settleDelays_append, h₂, settleDelays_frame]
    simp only [List.length_cons]
    omega

/-! ### Chip-enable -/

theorem lastLevel_append (l : Level) (a b : List Event) : lastLevel l (a ++ b) = lastLevel (lastLevel l a) b := by
  induction a generalizing l with
  | nil => rfl
  | cons e es ih => cases e <;> simpa [lastLevel] using ih _

theorem lastLevel_xs (l : Level) (outs ins : List Byte) : lastLevel l (List.zipWith Event.x outs ins) = l := by
  induction outs generalizing ins with
  | nil => rfl
  | cons o os ih => cases ins with
    | nil => rfl
    | cons i is => simpa [lastLevel] using ih is

/-- A transaction drives no chip-enable. -/
@[simp] theorem lastLevel_frame (l : Level) (cmd st : Byte) (outs ins : List Byte) :
    lastLevel l (frameEvents cmd st outs ins) = l := by
  simp only [frameEvents, lastLevel_append, lastLevel_xs]; rfl

theorem lastLevel_cut {l : Level} {cmd : Byte} {buf : List Byte} {n : Nat} {dir : Direction} {ev : List Event}
    (h : CutEvents cmd buf n dir ev) : lastLevel l ev = l := by
  obtain rfl | ⟨st, outs, ins, out, hl, -, rfl⟩ := h
  · rfl
  · simp only [lastLevel_append, lastLevel_xs]; rfl

theorem lastLevel_of_bankWork {l : Level} {b : BankBelief} {t : Bank} {ev : List Event} (h : BankWork b t ev) :
    lastLevel l ev = l := by
  have ht : ∀ {c : Bank} {ev : List Event}, ToggleWork c t ev → lastLevel l ev = l := by
    intro c ev h
    unfold ToggleWork at h
    split at h
    · subst h; rfl
    · obtain ⟨st, r, rfl⟩ := h; simp
  cases b with
  | known c => exact ht h
  | unknown =>
    obtain ⟨st, f, d, ev', rfl, hw⟩ := h
    simp [lastLevel_append, ht hw]

theorem lastLevel_of_guardWork {l : Level} {b : BankBelief} {t : Option Bank} {ev : List Event}
    (h : GuardWork b t ev) : lastLevel l ev = l := by
  cases t with
  | none => cases h; rfl
  | some t => exact lastLevel_of_bankWork h

/-- Events with no drive of chip-enable. -/
def NoDrive (ev : List Event) : Prop := ∀ l, Event.ce l ∉ ev

theorem NoDrive.nil : NoDrive [] := by simp [NoDrive]

theorem NoDrive.append {a b : List Event} (ha : NoDrive a) (hb : NoDrive b) : NoDrive (a ++ b) := by
  intro l h
  rcases List.mem_append.1 h with h | h
  exacts [ha l h, hb l h]

theorem NoDrive.xs (outs ins : List Byte) : NoDrive (List.zipWith Event.x outs ins) := by
  induction outs generalizing ins with
  | nil => exact NoDrive.nil
  | cons o os ih => cases ins with
    | nil => exact NoDrive.nil
    | cons i is => intro l h; rcases List.mem_cons.1 h with h | h
                   · cases h
                   · exact ih is l h

theorem NoDrive.frameEvents (cmd st : Byte) (outs ins : List Byte) : NoDrive (frameEvents cmd st outs ins) := by
  unfold Machine.frameEvents
  exact (NoDrive.append (by simp [NoDrive]) (NoDrive.xs outs ins)).append (by simp [NoDrive])

theorem NoDrive.of_cut {cmd : Byte} {buf : List Byte} {n : Nat} {dir : Direction} {ev : List Event}
    (h : CutEvents cmd buf n dir ev) : NoDrive ev := by
  obtain rfl | ⟨st, outs, ins, out, hl, -, rfl⟩ := h
  · simp [NoDrive]
  · exact (NoDrive.append (by simp [NoDrive]) (NoDrive.xs outs ins)).append (by simp [NoDrive])

theorem NoDrive.of_bankWork {b : BankBelief} {t : Bank} {ev : List Event} (h : BankWork b t ev) : NoDrive ev := by
  have ht : ∀ {c : Bank} {ev : List Event}, ToggleWork c t ev → NoDrive ev := by
    intro c ev h
    unfold ToggleWork at h
    split at h
    · subst h; exact NoDrive.nil
    · obtain ⟨st, r, rfl⟩ := h; exact NoDrive.frameEvents _ _ _ _
  cases b with
  | known c => exact ht h
  | unknown =>
    obtain ⟨st, f, d, ev', rfl, hw⟩ := h
    exact (NoDrive.frameEvents _ _ _ _).append (ht hw)

theorem NoDrive.of_guardWork {b : BankBelief} {t : Option Bank} {ev : List Event} (h : GuardWork b t ev) :
    NoDrive ev := by
  cases t with
  | none => cases h; exact NoDrive.nil
  | some t => exact NoDrive.of_bankWork h

/-- Events that do not drive chip-enable leave its level. -/
theorem lastLevel_of_noDrive {l : Level} {ev : List Event} (h : NoDrive ev) : lastLevel l ev = l := by
  induction ev with
  | nil => rfl
  | cons e es ih =>
    have hs : NoDrive es := fun l hl => h l (List.mem_cons_of_mem _ hl)
    cases e with
    | ce l' => exact absurd List.mem_cons_self (h l')
    | _ => simpa [lastLevel] using ih hs

end Sys2Proof.Machine
end

