-- ==== Sys2Proof/Laws/Requests.lean ====
section
/-! SUPPORT. What a command, a register request and a read-modify-write can do, and how a request ends. -/

namespace Sys2Proof.Machine

/-- What a command does when it completes: its bank work, then its transaction. -/
structure Done (w : CommandWord) (st : Byte) (outs ins : List Byte) (ev : List Event) (s s' : State) : Prop where
  work : GuardWork s.currentBank w.bank ev
  len : ins.length = outs.length
  issued : Issued (ev ++ frameEvents w.byte st outs ins) s s'
  belief : s'.currentBank = beliefAfter s.currentBank w.bank
  ce : s'.ce = s.ce
  modeTrack : s'.modeTrack = s.modeTrack
  cs : s'.cs = .deasserted
  noFault : NoFault s → NoFault s'

/-- What an operation does when an exchange of it faults; under `quiet` it has driven no chip-enable. -/
structure Failed (quiet : Prop) (e : Err) (s s' : State) : Prop where
  error : e = .transportFailure
  issued : ∃ ev, FailEvents ev ∧ Framed ev ∧ lastLevel s.ce ev = s'.ce ∧ (quiet → NoDrive ev) ∧ Issued ev s s'
  cs : s'.cs = .deasserted
  modeTrack : s'.modeTrack = s.modeTrack
  faulted : ¬ NoFault s

/-- Everything the bank guard can do when it completes (spec/40_bank_tracker.md R67). -/
theorem guardBank_ok {t : Option Bank} {s s' : State} {u : Unit} (h : (guardBank t).run s = .ok u s') :
    (∃ ev, GuardWork s.currentBank t ev ∧ Issued ev s s') ∧
      s'.currentBank = beliefAfter s.currentBank t ∧ s'.ce = s.ce ∧
      s'.modeTrack = s.modeTrack ∧ (NoFault s → NoFault s') := by
  cases t with
  | none => cases h; exact ⟨⟨[], rfl, Issued.refl _⟩, rfl, rfl, rfl, id⟩
  | some t =>
    have hg := ensureBank_ok h
    exact ⟨hg.work, hg.belief, hg.ce, hg.modeTrack, hg.noFault⟩

/-- A command: the bank guard, then the transaction. -/
theorem issue_run (o : Opcode) (x : Byte) (buf : List Byte) (n : Nat) (s : State) : (issue o x buf n).run s =
    (guardBank (commandEncoder o x).bank >>= fun _ =>
      execute (commandEncoder o x).byte buf n (commandEncoder o x).dir).run s := rfl

/-- A command with no target bank is its transaction. -/
theorem issue_unguarded {o : Opcode} {x : Byte} (h : (commandEncoder o x).bank = none) (buf : List Byte) (n : Nat)
    (s : State) :
    (issue o x buf n).run s = (execute (commandEncoder o x).byte buf n (commandEncoder o x).dir).run s := by
  rw [issue_run, h]; rfl

/-- Everything a command can do when it completes. -/
theorem issue_ok {o : Opcode} {operand : Byte} {buf : List Byte} {n : Nat} {r : Byte × List Byte} {s s' : State}
    (h : (issue o operand buf n).run s = .ok r s') :
    ∃ outs ins ev, Done (commandEncoder o operand) r.1 outs ins ev s s' ∧
      Carries buf n (commandEncoder o operand).dir outs ins r.2 := by
  unfold issue at h
  obtain ⟨u, s₁, h₁, h₂⟩ := Op.bind_ok.1 h
  obtain ⟨⟨ev, hw, hi⟩, hb, hce, hm, hf⟩ := guardBank_ok h₁
  obtain ⟨outs, ins, he, hc⟩ := execute_ok h₂
  exact ⟨outs, ins, ev, ⟨hw, he.len, hi.trans he.issued, he.untouched.currentBank.trans hb, he.untouched.ce.trans hce,
    he.untouched.modeTrack.trans hm, he.cs, fun h => he.noFault (hf h)⟩, hc⟩

theorem Failed.of_aborted {q : Prop} {cmd : Byte} {buf : List Byte} {n : Nat} {dir : Direction} {e : Err} {s s' : State}
    (hl : emittedByte cmd = true) (he : e = .transportFailure) (h : Aborted cmd buf n dir s s') : Failed q e s s' := by
  obtain ⟨ev, hev, hi⟩ := h.issued
  exact ⟨he, ⟨ev, .of_cut hev, .of_cut hl hev, by rw [lastLevel_cut hev, h.untouched.ce], fun _ => .of_cut hev, hi⟩, h.cs,
    h.untouched.modeTrack, h.faulted⟩

/-- An operation whose failure is quiet may stand in one whose failure need not be. -/
theorem Failed.loud {q : Prop} {e : Err} {s s' : State} (h : Failed True e s s') : Failed q e s s' := by
  obtain ⟨ev, h₁, h₂, h₃, h₄, h₅⟩ := h.issued
  exact ⟨h.error, ⟨ev, h₁, h₂, h₃, fun _ => h₄ trivial, h₅⟩, h.cs, h.modeTrack, h.faulted⟩

/-- A failure after events that completed is a failure. -/
theorem Failed.after {q : Prop} {e : Err} {ev : List Event} {s s₁ s' : State} (hi : Issued ev s s₁)
    (hz : faultCount ev = 0) (hl : Framed ev) (hce : lastLevel s.ce ev = s₁.ce) (hq : q → NoDrive ev)
    (hm : s₁.modeTrack = s.modeTrack) (hf : NoFault s → NoFault s₁) (h : Failed q e s₁ s') : Failed q e s s' := by
  obtain ⟨ev₂, hfe, hfr, hll, hq₂, hi₂⟩ := h.issued
  exact ⟨h.error, ⟨_, hfe.after hz, hl.append hfr, by rw [lastLevel_append, hce, hll],
    fun h => (hq h).append (hq₂ h), hi.trans hi₂⟩, h.cs,
    h.modeTrack.trans hm, fun hn => h.faulted (hf hn)⟩

/-- Everything EnsureBank can do when it fails. -/
theorem Failed.ensureBank {q : Prop} {t : Bank} {e : Err} {s s' : State} (h : (ensureBank t).run s = .error e s') :
    Failed q e s s' := by
  obtain ⟨he, hcs, hce, hm, hf, hcases⟩ := ensureBank_error h
  have key : ∀ ev, FailEvents ev → Framed ev → lastLevel s.ce ev = s.ce → NoDrive ev → Issued ev s s' → Failed q e s s' :=
    fun ev h₁ h₂ h₃ hq h₄ => ⟨he, ⟨ev, h₁, h₂, h₃.trans hce.symm, fun _ => hq, h₄⟩, hcs, hm, hf⟩
  obtain ⟨-, -, ev, hc, hi⟩ | ⟨c, -, -, -, ev, hc, hi⟩ | ⟨-, st, f, d, ev, -, -, hc, hi⟩ := hcases
  · exact key ev (.of_cut hc) (.of_cut (by decide) hc) (lastLevel_cut hc) (.of_cut hc) hi
  · exact key ev (.of_cut hc) (.of_cut (by decide) hc) (lastLevel_cut hc) (.of_cut hc) hi
  · refine key _ ((FailEvents.of_cut hc).after (by simp)) ((Framed.frameEvents (by decide) _ _ _).append
      (.of_cut (by decide) hc)) ?_ ((NoDrive.frameEvents _ _ _ _).append (.of_cut hc)) hi
    rw [lastLevel_append, lastLevel_frame, lastLevel_cut hc]

/-- Everything a command of an emitted byte can do when it fails. -/
theorem issue_error {q : Prop} {o : Opcode} {operand : Byte} {buf : List Byte} {n : Nat} {e : Err} {s s' : State}
    (hl : emittedByte (commandEncoder o operand).byte = true) (h : (issue o operand buf n).run s = .error e s') :
    Failed q e s s' := by
  unfold issue at h
  obtain h₁ | ⟨u, s₁, h₁, h₂⟩ := Op.bind_error.1 h
  · cases hw : (commandEncoder o operand).bank with
    | none => rw [hw] at h₁; cases h₁
    | some t => rw [hw] at h₁; exact .ensureBank h₁
  · obtain ⟨⟨ev, hw, hi⟩, hb, hce, hm, hf⟩ := guardBank_ok h₁
    obtain ⟨he, ha⟩ := execute_error h₂
    exact (Failed.of_aborted hl he ha).after hi (faultCount_of_guardWork hw) (.of_guardWork hw)
      (by rw [lastLevel_of_guardWork hw, hce]) (fun _ => .of_guardWork hw) hm hf

theorem issue_noFault {s : State} (hf : NoFault s) (o : Opcode) (operand : Byte) (buf : List Byte) (n : Nat) :
    ∃ r s', (issue o operand buf n).run s = .ok r s' := by
  unfold issue
  have hg : ∃ u s₁, (guardBank (commandEncoder o operand).bank).run s = .ok u s₁ := by
    cases (commandEncoder o operand).bank with
    | none => exact ⟨(), s, rfl⟩
    | some t => exact ensureBank_noFault hf t
  obtain ⟨u, s₁, h₁⟩ := hg
  obtain ⟨r, s', h₂⟩ := execute_noFault ((guardBank_ok h₁).2.2.2.2 hf) (commandEncoder o operand).byte buf n
    (commandEncoder o operand).dir
  exact ⟨r, s', (Op.bind_of_ok h₁).trans h₂⟩

/-! ### Register requests -/

/-- The command byte of a register request is one the block emits (spec/30_encoding.md R62). -/
theorem emitted_register (la : Byte) (h : definedAddr la = true) :
    emittedByte (commandEncoder .readRegister la).byte = true ∧
      emittedByte (commandEncoder .writeRegister la).byte = true := by
  revert h; revert la; decide +kernel

theorem definedAddr_of_check {la : Byte} {n : Nat} (h : registerCheck la n = none) : definedAddr la = true := by
  unfold registerCheck at h
  cases hd : definedAddr la with
  | true => rfl
  | false => simp [hd] at h

@[simp] theorem check_none : (check none : Op Unit) = pure () := rfl

/-- A register request whose operands pass its checks is the command. -/
theorem rreg_eq {la : Byte} {n : Nat} (h : registerCheck la n = none) (s : State) :
    (rreg la n).run s = (issue .readRegister la [] n).run s := by
  unfold rreg; rw [h]; rfl

theorem wreg_eq {la : Byte} {v : List Byte} (h : registerCheck la v.length = none) (s : State) :
    (wreg la v).run s = (issue .writeRegister la v v.length).run s := by
  unfold wreg; rw [h]; rfl

/-- What a read-modify-write does when it completes (spec/43_mode_controller.md R98 to R101): the bank work and the read
of one byte `c`, the bank work and the write of `f c`. -/
structure Modified (la : Byte) (f : Byte → Byte) (st : Byte) (ev : List Event) (s s' : State) : Prop where
  events : ∃ bw st₁ fl c r, BankWork s.currentBank (bankOf la) bw ∧
    ev = bw ++ frameEvents (commandEncoder .readRegister la).byte st₁ [fl] [c] ++
      frameEvents (commandEncoder .writeRegister la).byte st [f c] [r]
  issued : Issued ev s s'
  belief : s'.currentBank = .known (bankOf la)
  ce : s'.ce = s.ce
  modeTrack : s'.modeTrack = s.modeTrack
  cs : s'.cs = .deasserted
  noFault : NoFault s → NoFault s'

theorem encoder_read (la : Byte) : (commandEncoder .readRegister la).bank = some (bankOf la) := rfl

theorem encoder_write (la : Byte) : (commandEncoder .writeRegister la).bank = some (bankOf la) := rfl

theorem bankWork_same {t : Bank} {ev : List Event} (h : BankWork (.known t) t ev) : ev = [] := by
  simpa [BankWork, ToggleWork] using h

theorem modifyRegister_ok {la : Byte} {f : Byte → Byte} {st : Byte} {s s' : State} (hc : registerCheck la 1 = none)
    (h : (modifyRegister la f).run s = .ok st s') : ∃ ev, Modified la f st ev s s' := by
  unfold modifyRegister at h
  obtain ⟨r₁, s₁, h₁, h⟩ := Op.bind_ok.1 h
  obtain ⟨r₂, s₂, h₂, h⟩ := Op.bind_ok.1 h
  cases h
  rw [rreg_eq hc] at h₁
  rw [wreg_eq (by simpa using hc)] at h₂
  obtain ⟨o₁, i₁, ev₁, hd₁, hc₁⟩ := issue_ok h₁
  obtain ⟨o₂, i₂, ev₂, hd₂, hc₂⟩ := issue_ok h₂
  obtain ⟨fl, rfl⟩ := List.length_eq_one_iff.1 hc₁.1
  obtain ⟨c, rfl⟩ := List.length_eq_one_iff.1 hd₁.len
  have hd : r₁.2 = [c] := hc₁.2
  have ho : o₂ = [f c] := by rw [hc₂.1, hd]; rfl
  subst ho
  obtain ⟨r, rfl⟩ := List.length_eq_one_iff.1 hd₂.len
  have hb₁ : s₁.currentBank = .known (bankOf la) := hd₁.belief
  have hw₂ := hd₂.work
  rw [encoder_write, hb₁] at hw₂
  have := bankWork_same hw₂
  subst this
  refine ⟨_, ⟨ev₁, r₁.1, fl, c, r, hd₁.work, rfl⟩, ?_, hd₂.belief, hd₂.ce.trans hd₁.ce,
    hd₂.modeTrack.trans hd₁.modeTrack, hd₂.cs, fun hf => hd₂.noFault (hd₁.noFault hf)⟩
  simpa using hd₁.issued.trans hd₂.issued

theorem modifyRegister_error {q : Prop} {la : Byte} {f : Byte → Byte} {e : Err} {s s' : State} (hc : registerCheck la 1 = none)
    (h : (modifyRegister la f).run s = .error e s') : Failed q e s s' := by
  have hl := emitted_register la (definedAddr_of_check hc)
  unfold modifyRegister at h
  obtain h₁ | ⟨r₁, s₁, h₁, h⟩ := Op.bind_error.1 h
  · rw [rreg_eq hc] at h₁
    exact issue_error hl.1 h₁
  rw [rreg_eq hc] at h₁
  obtain ⟨o₁, i₁, ev₁, hd₁, hc₁⟩ := issue_ok h₁
  obtain h₂ | ⟨r₂, s₂, h₂, h⟩ := Op.bind_error.1 h
  · rw [wreg_eq (by simpa using hc)] at h₂
    refine (issue_error hl.2 h₂).after hd₁.issued ?_ ?_ ?_ ?_ hd₁.modeTrack hd₁.noFault
    · simp [faultCount_of_guardWork hd₁.work]
    · exact (Framed.of_guardWork hd₁.work).append (.frameEvents hl.1 _ _ _)
    · rw [lastLevel_append, lastLevel_of_guardWork hd₁.work, lastLevel_frame, hd₁.ce]
    · exact fun _ => (NoDrive.of_guardWork hd₁.work).append (NoDrive.frameEvents _ _ _ _)
  · cases h

theorem modifyRegister_noFault {la : Byte} {s : State} (hf : NoFault s) (hc : registerCheck la 1 = none)
    (f : Byte → Byte) : ∃ st s', (modifyRegister la f).run s = .ok st s' := by
  cases h : (modifyRegister la f).run s with
  | ok st s' => exact ⟨st, s', rfl⟩
  | error e s' => exact absurd hf (modifyRegister_error (q := True) hc h).faulted

/-! ### How a request ends -/

theorem request_ok {i : Instr} {body : Op Answer} {s s' : State} {a : Answer} (h : body.run (s.accept i) = .ok a s') :
    request i body s = .next ((s'.putResult (.ok a.1 a.2)).setPhase .idle) := by
  simp [request, conclude, h]

theorem request_error {i : Instr} {body : Op Answer} {s s' : State} {e : Err} (h : body.run (s.accept i) = .error e s') :
    request i body s = .next ((s'.putResult (.err e)).setPhase .idle) := by
  simp [request, conclude, h]

theorem NoFault.accept {s : State} (h : NoFault s) (i : Instr) : NoFault (s.accept i) := h

/-- A request whose body fails on a transport fault. -/
theorem TransportFailed.of_failed {q : Prop} {i : Instr} {e : Err} {s s' : State} (h : Failed q e (s.accept i) s') :
    e = .transportFailure ∧ TransportFailed s ((s'.putResult (.err e)).setPhase .idle) := by
  obtain ⟨ev, ⟨pre, out, hz, rfl⟩, -, -, -, hi⟩ := h.issued
  have he := h.error
  subst he
  refine ⟨rfl, ⟨⟨rfl, by simpa using hi.port⟩, by simpa using hi.results, ⟨pre, out, hz, ?_⟩, by simpa using h.cs,
    fun hf => h.faulted hf⟩⟩
  simpa using hi.trace

end Sys2Proof.Machine
end

