-- ==== Sys2Proof/Laws/Bodies.lean ====
section
/-! SUPPORT. Every request at once: the operation it runs, what holds when it completes, and what holds when it ends with
an error. -/

namespace Sys2Proof.Machine

/-- The operation of each request. -/
def body : Instr → Op Answer
  | .readRegister la n => answerOf <$> rreg la n
  | .writeRegister la v => answerOf <$> wreg la v
  | .readRxPayload n => do
    check (lengthCheck n)
    answerOf <$> issue .readRxPayload 0 [] n
  | .writeTxPayload v => do
    check (lengthCheck v.length)
    answerOf <$> issue .writeTxPayload 0 v v.length
  | .writeTxPayloadNoAck v => do
    check (lengthCheck v.length)
    answerOf <$> issue .writeTxPayloadNoAck 0 v v.length
  | .writeAckPayload p v => do
    check (ackCheck p v.length)
    answerOf <$> issue .writeAckPayload (BitVec.ofNat 8 p) v v.length
  | .flushTx => answerOf <$> issue .flushTx 0 [] 0
  | .flushRx => answerOf <$> issue .flushRx 0 [] 0
  | .reuseTxPayload => answerOf <$> issue .reuseTxPayload 0 [] 0
  | .activate b => answerOf <$> issue .activate 0 [b] 1
  | .readRxPayloadWidth => answerOf <$> issue .readRxPayloadWidth 0 [] 1
  | .nop => answerOf <$> issue .nop 0 [] 0
  | .modePD => powerDownBody
  | .modeSB => standbyBody
  | .modeRX => rxBody
  | .modeTX => txBody
  | .setPwr level => powerBody Config.powerLevels Config.powerFold level
  | .init => replay initBlob none
  | .reset => fun s => .ok (none, []) s.construct

/-- Running a request runs its operation between acceptance and conclusion. -/
theorem exec_eq (i : Instr) (s : State) : exec i s = .next (conclude ((body i).run (s.accept i))) := by
  cases i <;> rfl

/-! ### Checks -/

theorem definedAddr_iff (la : Byte) : definedAddr la = true ↔ RegisterAddr la := by
  simp [definedAddr, RegisterAddr]

theorem check_run (c : Option Err) (s : State) :
    (check c).run s = match c with | some e => .error e s | none => .ok () s := by
  cases c <;> rfl

/-- A checked operation: the error of the check, or the operation. -/
theorem checked_run {α : Type} (c : Option Err) (x : Op α) (s : State) :
    (check c >>= fun _ => x).run s = match c with | some e => .error e s | none => x.run s := by
  cases c <;> rfl

/-- The model's checks of a register request are the operand errors of Safety.lean. -/
theorem registerCheck_eq (la : Byte) (n : Nat) :
    registerCheck la n = if ¬ RegisterAddr la ∨ n = 0 then some .invalidOperand
      else if regWidth la < n then some .payloadTooLarge else none := by
  unfold registerCheck
  by_cases hd : RegisterAddr la
  · rw [(definedAddr_iff la).2 hd]
    by_cases hn : n = 0 <;> simp [hd, hn]
  · rw [Bool.eq_false_iff.2 (fun h => hd ((definedAddr_iff la).1 h))]
    simp [hd]

theorem lengthCheck_eq (n : Nat) :
    lengthCheck n = if n = 0 then some .invalidOperand else if 32 < n then some .payloadTooLarge else none := rfl

theorem ackCheck_eq (p n : Nat) :
    ackCheck p n = if 5 < p ∨ n = 0 then some .invalidOperand
      else if 32 < n then some .payloadTooLarge else none := by
  unfold ackCheck numPipes
  rw [lengthCheck_eq]
  by_cases hp : 6 ≤ p
  · rw [if_pos hp, if_pos (by omega)]
  · rw [if_neg hp]
    by_cases hn : n = 0 <;> simp [hn, show ¬ 5 < p by omega]

/-- The width of a defined register is at least one byte. -/
theorem regWidth_pos {la : Byte} (h : RegisterAddr la) : 1 ≤ regWidth la := by
  have key : ∀ la : Byte, definedAddr la = true → 1 ≤ regWidth la := by decide +kernel
  exact key la ((definedAddr_iff la).2 h)

/-! ### The command byte of every command is one the block emits (spec/30_encoding.md R62) -/

theorem emitted_ack {p : Nat} (h : p ≤ 5) :
    emittedByte (commandEncoder .writeAckPayload (BitVec.ofNat 8 p)).byte = true := by
  have key : ∀ p : Fin 6, emittedByte (commandEncoder .writeAckPayload (BitVec.ofNat 8 p.val)).byte = true := by decide
  exact key ⟨p, by omega⟩

theorem emitted_bare (o : Opcode) (x : Byte) (h : o.format = .N) : emittedByte (commandEncoder o x).byte = true := by
  cases o <;> first | rfl | cases h

/-! ### Completion -/

/-- The events of a request that completed: what every such request has in common. -/
structure Completed (quiet : Prop) (ev : List Event) (own bank : Nat) (a : Answer) (s s' : State) : Prop where
  issued : Issued ev s s'
  framed : Framed ev
  noXf : faultCount ev = 0
  ce : lastLevel s.ce ev = s'.ce
  drives : quiet → NoDrive ev
  closed : Closed ev
  settle : settleDelays ev = transactions ev
  least : own ≤ transactions ev
  most : transactions ev ≤ own + bank
  cs : s.cs = .deasserted → s'.cs = .deasserted
  modeTrack : quiet → s'.modeTrack = s.modeTrack
  noFault : NoFault s → NoFault s'
  status : a.1 = none → a.2 = [] ∧ ev = []
  bus : a.1 ≠ none → 1 ≤ own

/-- A request that issued nothing. -/
theorem Completed.nothing {q : Prop} (s : State) : Completed q [] 0 0 (none, []) s s where
  issued := Issued.refl s
  framed := Framed.nil
  noXf := rfl
  ce := rfl
  drives _ := NoDrive.nil
  closed := Closed.nil
  settle := rfl
  least := Nat.zero_le _
  most := Nat.zero_le _
  cs := id
  modeTrack _ := rfl
  noFault := id
  status _ := ⟨rfl, rfl⟩
  bus h := absurd rfl h

theorem transactions_append {a b : List Event} (h : Closed a) :
    transactions (a ++ b) = transactions a + transactions b := by
  simp [transactions, h b]

/-- A command that completed: at most two transactions of bank work, none where it has no target bank. -/
theorem Completed.of_done {w : CommandWord} {st : Byte} {outs ins d : List Byte} {ev : List Event} {s s' : State}
    (hl : emittedByte w.byte = true) (h : Done w st outs ins ev s s') :
    Completed True (ev ++ frameEvents w.byte st outs ins) 1 (if w.bank = none then 0 else 2) (some st, d) s s' where
  issued := h.issued
  framed := (Framed.of_guardWork h.work).append (.frameEvents hl _ _ _)
  noXf := by simp [faultCount_of_guardWork h.work]
  ce := by rw [lastLevel_append, lastLevel_of_guardWork h.work, lastLevel_frame, h.ce]
  drives _ := (NoDrive.of_guardWork h.work).append (NoDrive.frameEvents _ _ _ _)
  closed := (Closed.of_guardWork h.work).append (Closed.frameEvents _ _ _ _)
  settle := by
    rw [transactions_append (Closed.of_guardWork h.work), settleDelays_append, settleDelays_frame]
    have hw := h.work
    cases hb : w.bank with
    | none => rw [hb] at hw; cases hw; simp [transactions, commandBytes]
    | some t => rw [hb] at hw; simp [transactions, (bankWork_counts hw).2]
  least := by
    rw [transactions_append (Closed.of_guardWork h.work)]
    simp [transactions]
  most := by
    rw [transactions_append (Closed.of_guardWork h.work)]
    have hw := h.work
    cases hb : w.bank with
    | none => rw [hb] at hw; cases hw; simp [transactions, commandBytes]
    | some t =>
      rw [hb] at hw
      have := (bankWork_counts hw).1
      simp [transactions]; omega
  cs _ := h.cs
  modeTrack _ := h.modeTrack
  noFault := h.noFault
  status h := by cases h
  bus _ := le_refl 1

/-- A read-modify-write that completed. -/
theorem Completed.of_modified {la : Byte} {f : Byte → Byte} {st : Byte} {ev : List Event} {s s' : State}
    (hd : definedAddr la = true) (h : Modified la f st ev s s') : Completed True ev 2 2 (some st, []) s s' := by
  obtain ⟨bw, st₁, fl, c, r, hw, rfl⟩ := h.events
  have hl := emitted_register la hd
  have hc : transactions (bw ++ frameEvents (commandEncoder .readRegister la).byte st₁ [fl] [c] ++
      frameEvents (commandEncoder .writeRegister la).byte st [f c] [r]) = (commandBytes bw).length + 2 := by
    rw [transactions_append ((Closed.of_bankWork hw).append (Closed.frameEvents _ _ _ _)),
      transactions_append (Closed.of_bankWork hw)]
    simp [transactions]
  have hb := bankWork_counts hw
  exact
    { issued := h.issued
      framed := ((Framed.of_bankWork hw).append (.frameEvents hl.1 _ _ _)).append (.frameEvents hl.2 _ _ _)
      noXf := by simp [faultCount_of_bankWork hw]
      ce := by simp only [lastLevel_append, lastLevel_of_bankWork hw, lastLevel_frame, h.ce]
      drives := fun _ => ((NoDrive.of_bankWork hw).append (NoDrive.frameEvents _ _ _ _)).append
        (NoDrive.frameEvents _ _ _ _)
      closed := ((Closed.of_bankWork hw).append (Closed.frameEvents _ _ _ _)).append (Closed.frameEvents _ _ _ _)
      settle := by rw [hc]; simp only [settleDelays_append, settleDelays_frame, hb.2]
      least := by rw [hc]; omega
      most := by rw [hc]; omega
      cs := fun _ => h.cs
      modeTrack := fun _ => h.modeTrack
      noFault := h.noFault
      status := fun h => by cases h
      bus := fun _ => by omega }

/-- One completed part after another. -/
theorem Completed.trans {q : Prop} {e₁ e₂ : List Event} {m₁ m₂ b₁ b₂ : Nat} {a₁ a₂ : Answer} {s₁ s₂ s₃ : State}
    (h₁ : Completed q e₁ m₁ b₁ a₁ s₁ s₂) (h₂ : Completed q e₂ m₂ b₂ a₂ s₂ s₃) (hm : 1 ≤ m₁) (hs : a₂.1 ≠ none) :
    Completed q (e₁ ++ e₂) (m₁ + m₂) (b₁ + b₂) a₂ s₁ s₃ where
  issued := h₁.issued.trans h₂.issued
  framed := h₁.framed.append h₂.framed
  noXf := by simp [h₁.noXf, h₂.noXf]
  ce := by rw [lastLevel_append, h₁.ce, h₂.ce]
  drives q := (h₁.drives q).append (h₂.drives q)
  closed := h₁.closed.append h₂.closed
  settle := by rw [settleDelays_append, transactions_append h₁.closed, h₁.settle, h₂.settle]
  least := by rw [transactions_append h₁.closed]; exact Nat.add_le_add h₁.least h₂.least
  most := by
    rw [transactions_append h₁.closed]
    have := h₁.most
    have := h₂.most
    omega
  cs h := h₂.cs (h₁.cs h)
  modeTrack q := (h₂.modeTrack q).trans (h₁.modeTrack q)
  noFault h := h₂.noFault (h₁.noFault h)
  status h := absurd h hs
  bus _ := by omega

/-- Completed quietly, completed. -/
theorem Completed.loud {q : Prop} {ev : List Event} {m b : Nat} {a : Answer} {s s' : State}
    (h : Completed True ev m b a s s') : Completed q ev m b a s s' :=
  { h with drives := fun _ => h.drives trivial, modeTrack := fun _ => h.modeTrack trivial }

theorem driveCe_run (l : Level) (s : State) : (driveCe l).run s = .ok () ((s.setCe l).note (.ce l)) := rfl

theorem enterMode_run (m : Mode) (s : State) : (enterMode m).run s = .ok () (s.setMode m) := rfl

theorem Issued.drive (l : Level) (s : State) : Issued [.ce l] s ((s.setCe l).note (.ce l)) :=
  ⟨by simp, by simp [Phase.advance_eq], by simp, by simp, by simp [exchangeCount], by simp, by simp, trivial⟩

theorem config_check : registerCheck configAddr 1 = none := by decide
theorem status_check : registerCheck statusAddr 1 = none := by decide
theorem rfSetup_check : registerCheck rfSetupAddr 1 = none := by decide

/-! ### The mode transitions -/

/-- Everything PowerDown can do when it completes (spec/43_mode_controller.md R98). -/
theorem powerDown_ok {a : Answer} {s s' : State} (h : powerDownBody.run s = .ok a s') :
    ∃ st ev s₁, a = (some st, []) ∧
      Modified configAddr (fun c => c &&& ~~~pwrUp) st ev ((s.setCe .low).note (.ce .low)) s₁ ∧
      s' = s₁.setMode .powerDown := by
  unfold powerDownBody at h
  rw [Op.bind_of_ok (driveCe_run .low s)] at h
  obtain ⟨st, s₁, h₁, h⟩ := Op.bind_ok.1 h
  obtain ⟨ev, hm⟩ := modifyRegister_ok config_check h₁
  rw [Op.bind_of_ok (enterMode_run _ _)] at h
  cases h
  exact ⟨st, ev, s₁, rfl, hm, rfl⟩

/-- Everything StandbyI can do when it completes (R99). -/
theorem standby_ok {a : Answer} {s s' : State} (h : standbyBody.run s = .ok a s') :
    ∃ st ev s₁, a = (some st, []) ∧
      Modified configAddr (fun c => c ||| pwrUp) st ev ((s.setCe .low).note (.ce .low)) s₁ ∧
      s' = s₁.setMode .standbyI := by
  unfold standbyBody at h
  rw [Op.bind_of_ok (driveCe_run .low s)] at h
  obtain ⟨st, s₁, h₁, h⟩ := Op.bind_ok.1 h
  obtain ⟨ev, hm⟩ := modifyRegister_ok config_check h₁
  rw [Op.bind_of_ok (enterMode_run _ _)] at h
  cases h
  exact ⟨st, ev, s₁, rfl, hm, rfl⟩

/-- Everything TX can do when it completes (R101). -/
theorem tx_ok {a : Answer} {s s' : State} (h : txBody.run s = .ok a s') :
    ∃ st ev s₁, a = (some st, []) ∧
      Modified configAddr (fun c => (c &&& pwrUp) &&& ~~~primRx) st ev ((s.setCe .low).note (.ce .low)) s₁ ∧
      s' = ((s₁.setCe .high).note (.ce .high)).setMode .tx := by
  unfold txBody at h
  rw [Op.bind_of_ok (driveCe_run .low s)] at h
  obtain ⟨st, s₁, h₁, h⟩ := Op.bind_ok.1 h
  obtain ⟨ev, hm⟩ := modifyRegister_ok config_check h₁
  rw [Op.bind_of_ok (driveCe_run .high s₁), Op.bind_of_ok (enterMode_run _ _)] at h
  cases h
  exact ⟨st, ev, s₁, rfl, hm, rfl⟩

/-- Everything RX can do when it completes (R100). -/
theorem rx_ok {a : Answer} {s s' : State} (h : rxBody.run s = .ok a s') :
    ∃ st₁ ev₁ s₁ st ev s₂, a = (some st, []) ∧ Modified statusAddr (fun s => s) st₁ ev₁ s s₁ ∧
      Modified configAddr (fun c => c ||| pwrUp ||| primRx) st ev ((s₁.setCe .low).note (.ce .low)) s₂ ∧
      s' = ((s₂.setCe .high).note (.ce .high)).setMode .rx := by
  unfold rxBody at h
  obtain ⟨st₁, s₁, h₁, h⟩ := Op.bind_ok.1 h
  obtain ⟨ev₁, hm₁⟩ := modifyRegister_ok status_check h₁
  rw [Op.bind_of_ok (driveCe_run .low s₁)] at h
  obtain ⟨st, s₂, h₂, h⟩ := Op.bind_ok.1 h
  obtain ⟨ev, hm⟩ := modifyRegister_ok config_check h₂
  rw [Op.bind_of_ok (driveCe_run .high s₂), Op.bind_of_ok (enterMode_run _ _)] at h
  cases h
  exact ⟨st₁, ev₁, s₁, st, ev, s₂, rfl, hm₁, hm, rfl⟩

/-- A failure after a drive of chip-enable. -/
theorem Failed.afterDrive {l : Level} {e : Err} {s s' : State}
    (h : Failed False e ((s.setCe l).note (.ce l)) s') : Failed False e s s' :=
  h.after (Issued.drive l s) rfl (Framed.ce l) rfl (fun h => h.elim) rfl
    (fun hf => hf.of_le)

/-- A failure after a read-modify-write. -/
theorem Failed.afterModified {q : Prop} {la : Byte} {f : Byte → Byte} {st : Byte} {ev : List Event} {e : Err}
    {s s₁ s' : State} (hd : definedAddr la = true) (hm : Modified la f st ev s s₁) (h : Failed q e s₁ s') :
    Failed q e s s' := by
  have hc := Completed.of_modified hd hm
  exact h.after hc.issued hc.noXf hc.framed hc.ce (fun _ => hc.drives trivial) (hc.modeTrack trivial) hc.noFault

/-- A read-modify-write of CONFIG after chip-enable went low, whatever follows it, when it fails. -/
theorem configBody_error {f : Byte → Byte} {k : Byte → Op Answer} {e : Err} {s s' : State}
    (hk : ∀ st s e s', (k st).run s ≠ .error e s')
    (h : (driveCe .low >>= fun _ => modifyRegister configAddr f >>= k).run s = .error e s') : Failed False e s s' := by
  rw [Op.bind_of_ok (driveCe_run .low s)] at h
  obtain h | ⟨st, s₁, -, h⟩ := Op.bind_error.1 h
  · exact (modifyRegister_error config_check h).afterDrive
  · exact absurd h (hk st s₁ e s')

theorem powerDown_error {e : Err} {s s' : State} (h : powerDownBody.run s = .error e s') : Failed False e s s' := by
  refine configBody_error (k := fun s => enterMode .powerDown >>= fun _ => pure (some s, [])) ?_ h
  intro st s e s' h
  rw [Op.bind_of_ok (enterMode_run _ _)] at h; cases h

theorem standby_error {e : Err} {s s' : State} (h : standbyBody.run s = .error e s') : Failed False e s s' := by
  refine configBody_error (k := fun s => enterMode .standbyI >>= fun _ => pure (some s, [])) ?_ h
  intro st s e s' h
  rw [Op.bind_of_ok (enterMode_run _ _)] at h; cases h

theorem tx_error {e : Err} {s s' : State} (h : txBody.run s = .error e s') : Failed False e s s' := by
  refine configBody_error (k := fun s => driveCe .high >>= fun _ => enterMode .tx >>= fun _ => pure (some s, [])) ?_ h
  intro st s e s' h
  rw [Op.bind_of_ok (driveCe_run _ _), Op.bind_of_ok (enterMode_run _ _)] at h; cases h

theorem rx_error {e : Err} {s s' : State} (h : rxBody.run s = .error e s') : Failed False e s s' := by
  unfold rxBody at h
  obtain h | ⟨st, s₁, h₁, h⟩ := Op.bind_error.1 h
  · exact modifyRegister_error status_check h
  · obtain ⟨ev, hm⟩ := modifyRegister_ok status_check h₁
    refine Failed.afterModified (by decide) hm (configBody_error
      (k := fun s => driveCe .high >>= fun _ => enterMode .rx >>= fun _ => pure (some s, [])) ?_ h)
    intro st s e s' h
    rw [Op.bind_of_ok (driveCe_run _ _), Op.bind_of_ok (enterMode_run _ _)] at h; cases h

/-! ### The power level and the replay -/

/-- Everything SETPWR can do when it completes, for every threshold and fold (spec/44_power_level.md R104, R105). -/
theorem power_ok {levels level : Nat} {fold : Byte → Nat → Byte} {a : Answer} {s s' : State}
    (h : (powerBody levels fold level).run s = .ok a s') :
    (levels ≤ level ∧ a = (none, []) ∧ s' = s) ∨
      (level < levels ∧ ∃ st ev, a = (some st, []) ∧ Modified rfSetupAddr (fun r => fold r level) st ev s s') := by
  unfold powerBody at h
  split at h
  · rename_i hl
    cases h
    exact .inl ⟨hl, rfl, rfl⟩
  · rename_i hl
    obtain ⟨st, s₁, h₁, h⟩ := Op.bind_ok.1 h
    obtain ⟨ev, hm⟩ := modifyRegister_ok rfSetup_check h₁
    cases h
    exact .inr ⟨by omega, st, ev, rfl, hm⟩

theorem power_error {q : Prop} {levels level : Nat} {fold : Byte → Nat → Byte} {e : Err} {s s' : State}
    (h : (powerBody levels fold level).run s = .error e s') : level < levels ∧ Failed q e s s' := by
  unfold powerBody at h
  split at h
  · cases h
  · rename_i hl
    refine ⟨by omega, ?_⟩
    obtain h | ⟨st, s₁, -, h⟩ := Op.bind_error.1 h
    · exact modifyRegister_error rfSetup_check h
    · cases h

/-- What a replay does when it completes (spec/45_init_sequencer.md R108). -/
structure Replayed (blob : List InitEntry) (bw ev : List Event) (last final : Option Byte) (s s' : State) : Prop where
  work : if blob = [] then bw = [] else BankWork s.currentBank .b1 bw
  events : ReplayEvents blob last ev final
  completed : Completed True (bw ++ ev) blob.length (if blob = [] then 0 else 2)
    (if blob = [] then none else final, []) s s'
  belief : if blob = [] then s' = s else s'.currentBank = .known .b1
  cs : blob ≠ [] → s'.cs = .deasserted

theorem entryCommand_eq (e : InitEntry) : (commandEncoder .writeRegister (entryAddr e)).byte = entryCommand e := by
  have h : ∀ la : Byte, (commandEncoder .writeRegister la).byte = 0x20 ||| (la &&& 0x1F) := by decide +kernel
  exact h _

theorem wreg_entry (e : InitEntry) (s : State) :
    (wreg (entryAddr e) (entryBytes e)).run s =
      (issue .writeRegister (entryAddr e) (entryBytes e) (entryBytes e).length).run s := wreg_eq (entry_check e) s

theorem emitted_entry (e : InitEntry) : emittedByte (commandEncoder .writeRegister (entryAddr e)).byte = true :=
  (emitted_register _ (entryAddr_facts e).1).2

/-- Everything the replay of a blob can do when it completes. -/
theorem replay_ok {blob : List InitEntry} {last : Option Byte} {a : Answer} {s s' : State}
    (h : (replay blob last).run s = .ok a s') :
    ∃ bw ev final, a = (final, []) ∧ Replayed blob bw ev last final s s' := by
  induction blob generalizing last s with
  | nil =>
    cases h
    exact ⟨[], [], last, rfl, by simp, ⟨rfl, rfl⟩,
      Completed.nothing _, by simp, fun h => absurd rfl h⟩
  | cons e es ih =>
    unfold replay at h
    obtain ⟨r, s₁, h₁, h⟩ := Op.bind_ok.1 h
    rw [wreg_entry] at h₁
    obtain ⟨outs, ins, bw, hd, hc⟩ := issue_ok h₁
    obtain ⟨rfl, -⟩ := hc
    obtain ⟨bw₂, ev₂, final, rfl, hr⟩ := ih h
    have hbank : (commandEncoder .writeRegister (entryAddr e)).bank = some .b1 := by
      rw [encoder_write, (entryAddr_facts e).2.1]
    have hb₁ : s₁.currentBank = .known .b1 := by rw [hd.belief, hbank]; rfl
    have hw : BankWork s.currentBank .b1 bw := by have := hd.work; rw [hbank] at this; exact this
    have hcd := Completed.of_done (d := []) (emitted_entry e) hd
    rw [hbank, entryCommand_eq] at hcd
    have hb₂ : bw₂ = [] := by
      have := hr.work
      split at this
      · exact this
      · rw [hb₁] at this; exact bankWork_same this
    subst hb₂
    have hev : ReplayEvents (e :: es) last (frameEvents (entryCommand e) r.1 (entryBytes e) ins ++ ev₂) final :=
      ⟨r.1, ins, ev₂, hd.len, rfl, hr.events⟩
    refine ⟨bw, _, final, rfl, by simpa using hw, hev, ?_, ?_, fun _ => ?_⟩
    · have h₂ := hr.completed
      rw [List.nil_append] at h₂
      by_cases hes : es = []
      · subst hes
        obtain ⟨rfl, rfl⟩ := hr.events
        have hs := hr.belief
        simp only [if_true] at hs
        subst hs
        simpa using hcd
      · have hmost : transactions ev₂ = es.length := by
          obtain ⟨h₃, h₄⟩ : ev₂ ≠ [] ∧ True := by
            refine ⟨?_, trivial⟩
            rintro rfl
            have := h₂.least
            simp [transactions, commandBytes] at this
            exact hes this
          have key : ∀ (es : List InitEntry) (l f : Option Byte) (ev : List Event), ReplayEvents es l ev f →
              transactions ev = es.length := by
            intro es
            induction es with
            | nil => rintro l f ev ⟨rfl, -⟩; rfl
            | cons e es ih =>
              rintro l f ev ⟨st, ins, ev', -, rfl, hr⟩
              rw [transactions_append (Closed.frameEvents _ _ _ _), ih _ _ _ hr]
              simp [transactions]; omega
          exact key es _ _ _ hr.events
        have hfin : final ≠ none := by
          have key : ∀ (es : List InitEntry) (l f : Option Byte) (ev : List Event), l ≠ none → ReplayEvents es l ev f →
              f ≠ none := by
            intro es
            induction es with
            | nil => rintro l f ev hl ⟨-, rfl⟩; exact hl
            | cons e es ih =>
              rintro l f ev - ⟨st, ins, ev', -, rfl, hr⟩
              exact ih _ _ _ (by simp) hr
          exact key es _ _ _ (by simp) hr.events
        rw [if_neg hes] at h₂
        have h₃ : Completed True ev₂ es.length 0 (final, []) s₁ s' :=
          { h₂ with
            most := by omega
            status := fun h => absurd h hfin
            bus := fun _ => by have := List.length_pos_iff.2 hes; omega }
        have h₄ := hcd.trans h₃ (le_refl 1) hfin
        simp only [reduceCtorEq, if_false, Nat.add_zero, List.append_assoc] at h₄ ⊢
        rw [show (e :: es).length = 1 + es.length by simp; omega]
        exact h₄
    · simp only [reduceCtorEq, if_false]
      have := hr.belief
      split at this
      · rw [this, hb₁]
      · exact this
    · by_cases hes : es = []
      · have := hr.belief
        rw [if_pos hes] at this
        rw [this]; exact hd.cs
      · exact hr.cs hes

theorem replay_error {blob : List InitEntry} {last : Option Byte} {e : Err} {s s' : State} {q : Prop}
    (h : (replay blob last).run s = .error e s') : Failed q e s s' := by
  induction blob generalizing last s with
  | nil => cases h
  | cons x xs ih =>
    unfold replay at h
    obtain h | ⟨r, s₁, h₁, h⟩ := Op.bind_error.1 h
    · rw [wreg_entry] at h
      exact issue_error (emitted_entry x) h
    · rw [wreg_entry] at h₁
      obtain ⟨outs, ins, bw, hd, hc⟩ := issue_ok h₁
      have hcd := Completed.of_done (d := []) (emitted_entry x) hd
      exact (ih h).after hcd.issued hcd.noXf hcd.framed hcd.ce (fun _ => hcd.drives trivial) (hcd.modeTrack trivial)
        hcd.noFault

/-! ### Every request -/

/-- A checked command that completes. -/
theorem checkedIssue_ok {c : Option Err} {o : Opcode} {operand : Byte} {buf : List Byte} {n : Nat} {a : Answer}
    {s s' : State} (h : (check c >>= fun _ => answerOf <$> issue o operand buf n).run s = .ok a s') :
    c = none ∧ ∃ r, (issue o operand buf n).run s = .ok r s' ∧ a = (some r.1, r.2) := by
  rw [checked_run] at h
  cases c with
  | some e => cases h
  | none =>
    obtain ⟨r, hr, rfl⟩ := Op.map_ok.1 h
    exact ⟨rfl, r, hr, rfl⟩

/-- A checked command that ends with an error: the check's, or the command's. -/
theorem checkedIssue_error {c : Option Err} {o : Opcode} {operand : Byte} {buf : List Byte} {n : Nat} {e : Err}
    {s s' : State} (h : (check c >>= fun _ => answerOf <$> issue o operand buf n).run s = .error e s') :
    (c = some e ∧ s' = s) ∨ (c = none ∧ (issue o operand buf n).run s = .error e s') := by
  rw [checked_run] at h
  cases c with
  | some e => cases h; exact .inl ⟨rfl, rfl⟩
  | none => exact .inr ⟨rfl, Op.map_error.1 h⟩

/-- A command's own transaction and bank work, as `Completed` counts them. -/
theorem Completed.of_issue {o : Opcode} {operand : Byte} {buf : List Byte} {n : Nat} {r : Byte × List Byte}
    {s s' : State} (hl : emittedByte (commandEncoder o operand).byte = true)
    (h : (issue o operand buf n).run s = .ok r s') :
    ∃ ev, Completed True ev 1 (if (commandEncoder o operand).bank = none then 0 else 2) (some r.1, r.2) s s' ∧
      s'.currentBank = beliefAfter s.currentBank (commandEncoder o operand).bank := by
  obtain ⟨outs, ins, ev, hd, -⟩ := issue_ok h
  exact ⟨_, Completed.of_done hl hd, hd.belief⟩

/-- `rreg` and `wreg` as checked commands. -/
theorem body_readRegister (la : Byte) (n : Nat) (s : State) : (body (.readRegister la n)).run s =
    (check (registerCheck la n) >>= fun _ => answerOf <$> issue .readRegister la [] n).run s := by
  show (answerOf <$> rreg la n).run s = _
  rw [checked_run, EStateM.run_map]
  unfold rreg
  rw [checked_run]
  cases registerCheck la n <;> simp

theorem body_writeRegister (la : Byte) (v : List Byte) (s : State) : (body (.writeRegister la v)).run s =
    (check (registerCheck la v.length) >>= fun _ => answerOf <$> issue .writeRegister la v v.length).run s := by
  show (answerOf <$> wreg la v).run s = _
  rw [checked_run, EStateM.run_map]
  unfold wreg
  rw [checked_run]
  cases registerCheck la v.length <;> simp

theorem registerCheck_none {la : Byte} {n : Nat} (h : registerCheck la n = none) : RegisterAddr la :=
  (definedAddr_iff la).1 (definedAddr_of_check h)

theorem ackCheck_none {p n : Nat} (h : ackCheck p n = none) : p ≤ 5 := by
  rw [ackCheck_eq] at h
  by_contra hp
  rw [if_pos (.inl (by omega))] at h
  cases h

/-- The extra transactions of bank work a request may make. -/
def bankAllowance (i : Instr) : Nat := if usesRegisters i = false ∨ ownTransactions i = 0 then 0 else 2

/-- Everything a request other than a reset can do when it completes. -/
theorem body_ok {i : Instr} {a : Answer} {s s' : State} (hi : i ≠ .reset) (h : (body i).run s = .ok a s') :
    operandError i = none ∧
      (∃ ev, Completed (isTransition i = false) ev (ownTransactions i) (bankAllowance i) a s s') ∧
      (usesRegisters i = false → s'.currentBank = s.currentBank) := by
  have bare : ∀ {o : Opcode} {x : Byte} {buf : List Byte} {n : Nat}, o.format = .N →
      (answerOf <$> issue o x buf n).run s = .ok a s' →
      (∃ ev, Completed (True) ev 1 0 a s s') ∧ s'.currentBank = s.currentBank := by
    intro o x buf n ho h
    obtain ⟨r, hr, rfl⟩ := Op.map_ok.1 h
    obtain ⟨ev, hc, hb⟩ := Completed.of_issue (emitted_bare o x ho) hr
    have hn : (commandEncoder o x).bank = none := by unfold commandEncoder; rw [ho]
    rw [hn] at hc hb
    exact ⟨⟨ev, hc⟩, hb⟩
  cases i with
  | readRegister la n =>
    rw [body_readRegister] at h
    obtain ⟨hc, r, hr, rfl⟩ := checkedIssue_ok h
    obtain ⟨ev, hcd, hb⟩ := Completed.of_issue (emitted_register la (definedAddr_of_check hc)).1 hr
    refine ⟨?_, ⟨ev, ?_⟩, by simp [usesRegisters]⟩
    · rw [registerCheck_eq] at hc; exact hc
    · rw [encoder_read, if_neg (by simp)] at hcd
      exact hcd.loud
  | writeRegister la v =>
    rw [body_writeRegister] at h
    obtain ⟨hc, r, hr, rfl⟩ := checkedIssue_ok h
    obtain ⟨ev, hcd, hb⟩ := Completed.of_issue (emitted_register la (definedAddr_of_check hc)).2 hr
    refine ⟨?_, ⟨ev, ?_⟩, by simp [usesRegisters]⟩
    · rw [registerCheck_eq] at hc; exact hc
    · rw [encoder_write, if_neg (by simp)] at hcd
      exact hcd.loud
  | readRxPayload n =>
    obtain ⟨hc, r, hr, rfl⟩ := checkedIssue_ok h
    obtain ⟨⟨ev, hcd⟩, hb⟩ := bare (o := .readRxPayload) rfl (Op.map_ok.2 ⟨r, hr, rfl⟩)
    exact ⟨hc, ⟨ev, hcd.loud⟩, fun _ => hb⟩
  | writeTxPayload v =>
    obtain ⟨hc, r, hr, rfl⟩ := checkedIssue_ok h
    obtain ⟨⟨ev, hcd⟩, hb⟩ := bare (o := .writeTxPayload) rfl (Op.map_ok.2 ⟨r, hr, rfl⟩)
    exact ⟨hc, ⟨ev, hcd.loud⟩, fun _ => hb⟩
  | writeTxPayloadNoAck v =>
    obtain ⟨hc, r, hr, rfl⟩ := checkedIssue_ok h
    obtain ⟨⟨ev, hcd⟩, hb⟩ := bare (o := .writeTxPayloadNoAck) rfl (Op.map_ok.2 ⟨r, hr, rfl⟩)
    exact ⟨hc, ⟨ev, hcd.loud⟩, fun _ => hb⟩
  | writeAckPayload p v =>
    obtain ⟨hc, r, hr, rfl⟩ := checkedIssue_ok h
    obtain ⟨ev, hcd, hb⟩ := Completed.of_issue (emitted_ack (ackCheck_none hc)) hr
    refine ⟨?_, ⟨ev, hcd.loud⟩, fun _ => hb⟩
    rw [ackCheck_eq] at hc; exact hc
  | flushTx => obtain ⟨⟨ev, hcd⟩, hb⟩ := bare (o := .flushTx) rfl h; exact ⟨rfl, ⟨ev, hcd.loud⟩, fun _ => hb⟩
  | flushRx => obtain ⟨⟨ev, hcd⟩, hb⟩ := bare (o := .flushRx) rfl h; exact ⟨rfl, ⟨ev, hcd.loud⟩, fun _ => hb⟩
  | reuseTxPayload =>
    obtain ⟨⟨ev, hcd⟩, hb⟩ := bare (o := .reuseTxPayload) rfl h; exact ⟨rfl, ⟨ev, hcd.loud⟩, fun _ => hb⟩
  | activate b => obtain ⟨⟨ev, hcd⟩, hb⟩ := bare (o := .activate) rfl h; exact ⟨rfl, ⟨ev, hcd.loud⟩, fun _ => hb⟩
  | readRxPayloadWidth =>
    obtain ⟨⟨ev, hcd⟩, hb⟩ := bare (o := .readRxPayloadWidth) rfl h; exact ⟨rfl, ⟨ev, hcd.loud⟩, fun _ => hb⟩
  | nop => obtain ⟨⟨ev, hcd⟩, hb⟩ := bare (o := .nop) rfl h; exact ⟨rfl, ⟨ev, hcd.loud⟩, fun _ => hb⟩
  | modePD =>
    obtain ⟨st, ev, s₁, rfl, hm, rfl⟩ := powerDown_ok h
    have hc := Completed.of_modified (by decide) hm
    refine ⟨rfl, ⟨[.ce .low] ++ ev, ?_⟩, by simp [usesRegisters]⟩
    have ht : transactions ([.ce .low] ++ ev) = transactions ev := rfl
    exact
      { issued := let h := (Issued.drive .low s).trans hc.issued; h.congr
        framed := (Framed.ce .low).append hc.framed
        noXf := by simp only [faultCount_append, faultCount_ce, hc.noXf]
        ce := hc.ce
        drives := fun h => by cases h
        closed := (Closed.ce .low).append hc.closed
        settle := by rw [ht, ← hc.settle]; simp
        least := hc.least
        most := hc.most
        cs := hc.cs
        modeTrack := fun h => by cases h
        noFault := fun hf => hc.noFault hf.of_le
        status := fun h => by cases h
        bus := hc.bus }
  | modeSB =>
    obtain ⟨st, ev, s₁, rfl, hm, rfl⟩ := standby_ok h
    have hc := Completed.of_modified (by decide) hm
    refine ⟨rfl, ⟨[.ce .low] ++ ev, ?_⟩, by simp [usesRegisters]⟩
    have ht : transactions ([.ce .low] ++ ev) = transactions ev := rfl
    exact
      { issued := let h := (Issued.drive .low s).trans hc.issued; h.congr
        framed := (Framed.ce .low).append hc.framed
        noXf := by simp only [faultCount_append, faultCount_ce, hc.noXf]
        ce := hc.ce
        drives := fun h => by cases h
        closed := (Closed.ce .low).append hc.closed
        settle := by rw [ht, ← hc.settle]; simp
        least := hc.least
        most := hc.most
        cs := hc.cs
        modeTrack := fun h => by cases h
        noFault := fun hf => hc.noFault hf.of_le
        status := fun h => by cases h
        bus := hc.bus }
  | modeTX =>
    obtain ⟨st, ev, s₁, rfl, hm, rfl⟩ := tx_ok h
    have hc := Completed.of_modified (by decide) hm
    refine ⟨rfl, ⟨[.ce .low] ++ ev ++ [.ce .high], ?_⟩, by simp [usesRegisters]⟩
    have ht : transactions ([.ce .low] ++ ev ++ [.ce .high]) = transactions ev := by
      rw [transactions_append ((Closed.ce .low).append hc.closed)]; rfl
    exact
      { issued := let h := ((Issued.drive .low s).trans hc.issued).trans (Issued.drive .high s₁); h.congr
        framed := ((Framed.ce .low).append hc.framed).append (Framed.ce .high)
        noXf := by simp only [faultCount_append, faultCount_ce, hc.noXf]
        ce := by rw [lastLevel_append]; rfl
        drives := fun h => by cases h
        closed := ((Closed.ce .low).append hc.closed).append (Closed.ce .high)
        settle := by rw [ht, ← hc.settle]; simp [settleDelays_append]
        least := by rw [ht]; exact hc.least
        most := by rw [ht]; exact hc.most
        cs := hc.cs
        modeTrack := fun h => by cases h
        noFault := fun hf => (hc.noFault hf.of_le).of_le
        status := fun h => by cases h
        bus := hc.bus }
  | modeRX =>
    obtain ⟨st₁, ev₁, s₁, st, ev, s₂, rfl, hm₁, hm, rfl⟩ := rx_ok h
    have hc₁ := Completed.of_modified (by decide) hm₁
    have hc := Completed.of_modified (by decide) hm
    have hb : bankAllowance .modeRX = 2 := rfl
    -- the second read-modify-write needs no bank work
    have hk : transactions ev = 2 := by
      obtain ⟨bw, st₁, fl, c, r, hw, rfl⟩ := hm.events
      have : bw = [] := bankWork_same (t := .b0) (by
        have : ((s₁.setCe .low).note (.ce .low)).currentBank = .known .b0 := hm₁.belief
        rw [this] at hw; exact hw)
      subst this
      rw [List.nil_append, transactions_append (Closed.frameEvents _ _ _ _)]
      simp [transactions]
    refine ⟨rfl, ⟨ev₁ ++ [.ce .low] ++ ev ++ [.ce .high], ?_⟩, by simp [usesRegisters]⟩
    have ht : transactions (ev₁ ++ [.ce .low] ++ ev ++ [.ce .high]) = transactions ev₁ + 2 := by
      rw [transactions_append ((hc₁.closed.append (Closed.ce .low)).append hc.closed),
        transactions_append (hc₁.closed.append (Closed.ce .low)), transactions_append hc₁.closed, hk]
      rfl
    have h₁ := hc₁.least
    have h₂ := hc₁.most
    exact
      { issued := let h := ((hc₁.issued.trans (Issued.drive .low s₁)).trans hc.issued).trans (Issued.drive .high s₂)
                  h.congr
        framed := ((hc₁.framed.append (Framed.ce .low)).append hc.framed).append (Framed.ce .high)
        noXf := by simp only [faultCount_append, faultCount_ce, hc.noXf, hc₁.noXf]
        ce := by rw [lastLevel_append]; rfl
        drives := fun h => by cases h
        closed := ((hc₁.closed.append (Closed.ce .low)).append hc.closed).append (Closed.ce .high)
        settle := by rw [ht]; simp [settleDelays_append, hc.settle, hc₁.settle, hk]
        least := by rw [ht]; show 4 ≤ _; omega
        most := by rw [ht, hb]; show _ ≤ 4 + 2; omega
        cs := fun h => hc.cs (hc₁.cs h)
        modeTrack := fun h => by cases h
        noFault := fun hf => (hc.noFault (hc₁.noFault hf).of_le).of_le
        status := fun h => by cases h
        bus := fun _ => by show 1 ≤ 4; omega }
  | setPwr level =>
    refine ⟨rfl, ?_, by simp [usesRegisters]⟩
    obtain ⟨hl, rfl, rfl⟩ | ⟨hl, st, ev, rfl, hm⟩ := power_ok h
    · have ho : ownTransactions (.setPwr level) = 0 := by simp [ownTransactions, hl]
      have hb : bankAllowance (.setPwr level) = 0 := by simp [bankAllowance, ho]
      rw [ho, hb]
      exact ⟨[], Completed.nothing _⟩
    · have ho : ownTransactions (.setPwr level) = 2 := by simp [ownTransactions, hl]
      have hb : bankAllowance (.setPwr level) = 2 := by simp [bankAllowance, ho, usesRegisters]
      rw [ho, hb]
      exact ⟨ev, (Completed.of_modified (by decide) hm).loud⟩
  | init =>
    refine ⟨rfl, ?_, by simp [usesRegisters]⟩
    obtain ⟨bw, ev, final, rfl, hr⟩ := replay_ok h
    have hne := initBlob_ne_nil
    have hc := hr.completed
    rw [if_neg hne, if_neg hne] at hc
    have hb : bankAllowance .init = 2 := by
      simp [bankAllowance, usesRegisters, ownTransactions, hne]
    rw [hb]
    exact ⟨bw ++ ev, hc.loud⟩
  | reset => exact absurd rfl hi

/-- Everything a request can do when it ends with an error: the operand error, nothing done; or a fault of an
exchange. -/
theorem body_error {i : Instr} {e : Err} {s s' : State} (h : (body i).run s = .error e s') :
    (operandError i = some e ∧ s' = s) ∨ (operandError i = none ∧ Failed (isTransition i = false) e s s') := by
  have bare : ∀ {o : Opcode} {x : Byte} {buf : List Byte} {n : Nat} {q : Prop}, o.format = .N →
      (answerOf <$> issue o x buf n).run s = .error e s' → Failed q e s s' :=
    fun {o} {x} {buf} {n} {q} ho h => issue_error (emitted_bare o x ho) (Op.map_error.1 h)
  cases i with
  | readRegister la n =>
    rw [body_readRegister] at h
    obtain ⟨hc, rfl⟩ | ⟨hc, h⟩ := checkedIssue_error h
    · left; rw [registerCheck_eq] at hc; exact ⟨hc, rfl⟩
    · right
      refine ⟨?_, issue_error (emitted_register la (definedAddr_of_check hc)).1 h⟩
      rw [registerCheck_eq] at hc; exact hc
  | writeRegister la v =>
    rw [body_writeRegister] at h
    obtain ⟨hc, rfl⟩ | ⟨hc, h⟩ := checkedIssue_error h
    · left; rw [registerCheck_eq] at hc; exact ⟨hc, rfl⟩
    · right
      refine ⟨?_, issue_error (emitted_register la (definedAddr_of_check hc)).2 h⟩
      rw [registerCheck_eq] at hc; exact hc
  | readRxPayload n =>
    obtain ⟨hc, rfl⟩ | ⟨hc, h⟩ := checkedIssue_error h
    · exact .inl ⟨hc, rfl⟩
    · exact .inr ⟨hc, issue_error (by decide) h⟩
  | writeTxPayload v =>
    obtain ⟨hc, rfl⟩ | ⟨hc, h⟩ := checkedIssue_error h
    · exact .inl ⟨hc, rfl⟩
    · exact .inr ⟨hc, issue_error (by decide) h⟩
  | writeTxPayloadNoAck v =>
    obtain ⟨hc, rfl⟩ | ⟨hc, h⟩ := checkedIssue_error h
    · exact .inl ⟨hc, rfl⟩
    · exact .inr ⟨hc, issue_error (by decide) h⟩
  | writeAckPayload p v =>
    obtain ⟨hc, rfl⟩ | ⟨hc, h⟩ := checkedIssue_error h
    · left; rw [ackCheck_eq] at hc; exact ⟨hc, rfl⟩
    · right
      refine ⟨?_, issue_error (emitted_ack (ackCheck_none hc)) h⟩
      rw [ackCheck_eq] at hc; exact hc
  | flushTx => exact .inr ⟨rfl, bare (o := .flushTx) rfl h⟩
  | flushRx => exact .inr ⟨rfl, bare (o := .flushRx) rfl h⟩
  | reuseTxPayload => exact .inr ⟨rfl, bare (o := .reuseTxPayload) rfl h⟩
  | activate b => exact .inr ⟨rfl, bare (o := .activate) rfl h⟩
  | readRxPayloadWidth => exact .inr ⟨rfl, bare (o := .readRxPayloadWidth) rfl h⟩
  | nop => exact .inr ⟨rfl, bare (o := .nop) rfl h⟩
  | modePD => right; refine ⟨rfl, ?_⟩; rw [show (isTransition .modePD = false) = False by simp [isTransition]]; exact powerDown_error h
  | modeSB => right; refine ⟨rfl, ?_⟩; rw [show (isTransition .modeSB = false) = False by simp [isTransition]]; exact standby_error h
  | modeRX => right; refine ⟨rfl, ?_⟩; rw [show (isTransition .modeRX = false) = False by simp [isTransition]]; exact rx_error h
  | modeTX => right; refine ⟨rfl, ?_⟩; rw [show (isTransition .modeTX = false) = False by simp [isTransition]]; exact tx_error h
  | setPwr level => exact .inr ⟨rfl, (power_error h).2⟩
  | init => exact .inr ⟨rfl, replay_error h⟩
  | reset => cases h

/-- A command whose checks pass completes where no exchange faults. -/
theorem CommandCompleted.of_issue {i : Instr} {o : Opcode} {x : Byte} {buf : List Byte} {n : Nat} {s : State}
    (hb : (body i).run (s.accept i) = (answerOf <$> issue o x buf n).run (s.accept i)) (hf : NoFault s) :
    ∃ t, exec i s = .next t ∧
      CommandCompleted (commandEncoder o x).byte (commandEncoder o x).bank buf n (commandEncoder o x).dir s t := by
  obtain ⟨r, s', hr⟩ := issue_noFault (hf.accept i) o x buf n
  obtain ⟨outs, ins, ev, hd, hc⟩ := issue_ok hr
  have hr' : (body i).run (s.accept i) = .ok (answerOf r) s' := by rw [hb]; exact Op.map_ok.2 ⟨r, hr, rfl⟩
  refine ⟨conclude (.ok (answerOf r) s'), by rw [exec_eq, hr'], ⟨rfl, hd.issued.port⟩,
    ⟨ev, r.1, outs, ins, r.2, hd.work, hc, hd.len, ?_, ?_⟩, hd.belief, hd.ce, hd.modeTrack, hd.cs⟩
  · have := hd.issued.trace
    simpa [conclude, State.accept] using this
  · have := hd.issued.results
    simp [conclude, answerOf, this, State.accept]

/-- The payload commands as checked commands. -/
theorem body_readRxPayload (n : Nat) (s : State) : (body (.readRxPayload n)).run s =
    (check (lengthCheck n) >>= fun _ => answerOf <$> issue .readRxPayload 0 [] n).run s := rfl

theorem body_writeTxPayload (v : List Byte) (s : State) : (body (.writeTxPayload v)).run s =
    (check (lengthCheck v.length) >>= fun _ => answerOf <$> issue .writeTxPayload 0 v v.length).run s := rfl

theorem body_writeTxPayloadNoAck (v : List Byte) (s : State) : (body (.writeTxPayloadNoAck v)).run s =
    (check (lengthCheck v.length) >>= fun _ => answerOf <$> issue .writeTxPayloadNoAck 0 v v.length).run s := rfl

theorem body_writeAckPayload (p : Nat) (v : List Byte) (s : State) : (body (.writeAckPayload p v)).run s =
    (check (ackCheck p v.length) >>= fun _ => answerOf <$> issue .writeAckPayload (BitVec.ofNat 8 p) v v.length).run s :=
  rfl

/-- Operands within bounds pass their checks. -/
theorem registerCheck_ok {la : Byte} {n : Nat} (h : RegisterAddr la) (h₁ : 1 ≤ n) (h₂ : n ≤ regWidth la) :
    registerCheck la n = none := by
  rw [registerCheck_eq, if_neg (by simp [h]; omega), if_neg (by omega)]

theorem lengthCheck_ok {n : Nat} (h₁ : 1 ≤ n) (h₂ : n ≤ 32) : lengthCheck n = none := by
  rw [lengthCheck_eq, if_neg (by omega), if_neg (by omega)]

theorem ackCheck_ok {p n : Nat} (hp : p ≤ 5) (h₁ : 1 ≤ n) (h₂ : n ≤ 32) : ackCheck p n = none := by
  rw [ackCheck_eq, if_neg (by omega), if_neg (by omega)]

/-- The command bytes of the register commands, for any address. -/
theorem encoder_readRegister (la : Byte) : commandEncoder .readRegister la =
    ⟨0x00 ||| (la &&& 0x1F), .d2h, some (if la.getLsbD 7 then .b1 else .b0)⟩ := by
  revert la; decide +kernel

theorem encoder_writeRegister (la : Byte) : commandEncoder .writeRegister la =
    ⟨0x20 ||| (la &&& 0x1F), .h2d, some (if la.getLsbD 7 then .b1 else .b0)⟩ := by
  revert la; decide +kernel

end Sys2Proof.Machine
end

