-- ==== Sys2Proof/Laws/Memory.lean ====
section
/-! SUPPORT. The memory operations: every one keeps the canonical form; a read after a write. -/

namespace Sys2Proof

open Sys2Proof.Machine

theorem Memory.write_lower {m : Memory} {a b : Nat} {v : Byte} (hb : b < a) (hm : ∀ c ∈ m, b < c.1) :
    ∀ c ∈ Memory.write m a v, b < c.1 := by
  induction m with
  | nil => simpa [Memory.write] using hb
  | cons x m ih =>
    obtain ⟨x, w⟩ := x
    have hx := hm (x, w) (by simp)
    have ht := ih fun c hc => hm c (by simp [hc])
    unfold Memory.write
    split
    · intro c hc
      simp only [List.mem_cons] at hc
      rcases hc with rfl | rfl | hc
      exacts [hb, hx, hm c (by simp [hc])]
    · split
      · intro c hc
        simp only [List.mem_cons] at hc
        rcases hc with rfl | hc
        exacts [hb, hm c (by simp [hc])]
      · intro c hc
        simp only [List.mem_cons] at hc
        rcases hc with rfl | hc
        exacts [hx, ht c hc]

theorem Memory.write_wf {m : Memory} (h : Memory.wf m) (a : Nat) (v : Byte) : Memory.wf (Memory.write m a v) := by
  induction m with
  | nil => simp [Memory.write]
  | cons x m ih =>
    obtain ⟨x, w⟩ := x
    have hh := List.pairwise_cons.1 h
    unfold Memory.write
    split
    · rename_i hlt
      refine List.pairwise_cons.2 ⟨fun c hc => ?_, h⟩
      simp only [List.mem_cons] at hc
      rcases hc with rfl | hc
      exacts [hlt, lt_trans hlt (hh.1 c hc)]
    · split
      · rename_i heq
        subst heq
        exact List.pairwise_cons.2 ⟨fun c hc => hh.1 c hc, hh.2⟩
      · rename_i h₁ h₂
        exact List.pairwise_cons.2 ⟨Memory.write_lower (by omega) hh.1, ih hh.2⟩

theorem Memory.writeBytes_wf {m : Memory} (h : Memory.wf m) (a : Nat) (vs : List Byte) :
    Memory.wf (Memory.writeBytes m a vs) := by
  induction vs generalizing m a with
  | nil => exact h
  | cons v vs ih => exact ih (Memory.write_wf h a v) (a + 1)

theorem Memory.ofCells_wf (cells : List Host.Cell) : Memory.wf (Memory.ofCells cells) := by
  have key : ∀ (cells : List Host.Cell) (m : Memory), Memory.wf m →
      Memory.wf (cells.foldl (fun m c => Memory.write m c.1 c.2) m) := by
    intro cells
    induction cells with
    | nil => exact fun m h => h
    | cons c cs ih => exact fun m h => ih _ (Memory.write_wf h c.1 c.2)
  exact key cells [] List.Pairwise.nil

/-- A write above every listed address appends. -/
theorem Memory.write_append {m : Memory} {a : Nat} (h : ∀ c ∈ m, c.1 < a) (v : Byte) :
    Memory.write m a v = m ++ [(a, v)] := by
  induction m with
  | nil => rfl
  | cons x m ih =>
    obtain ⟨x, w⟩ := x
    have hx : x < a := h (x, w) (by simp)
    simp only [Memory.write, if_neg (by omega : ¬ a < x), if_neg (by omega : ¬ a = x), List.cons_append]
    rw [ih fun c hc => h c (by simp [hc])]

/-- A memory in canonical form is the memory of its cells. -/
theorem Memory.ofCells_of_wf {m : Memory} (h : Memory.wf m) : Memory.ofCells m = m := by
  have key : ∀ (cells m : Memory), Memory.wf (m ++ cells) →
      cells.foldl (fun m c => Memory.write m c.1 c.2) m = m ++ cells := by
    intro cells
    induction cells with
    | nil => intro m _; simp
    | cons c cs ih =>
      intro m h
      rw [List.foldl_cons, Memory.write_append (fun d hd => (List.pairwise_append.1 h).2.2 d hd c (by simp)), ih]
      · simp
      · simpa using h
  exact key m [] h

/-- Reading after a write. -/
theorem Memory.read?_write (m : Memory) (a b : Nat) (v : Byte) :
    Memory.read? (Memory.write m a v) b = if b = a then some v else Memory.read? m b := by
  induction m with
  | nil =>
    simp only [Memory.write, Memory.read?]
    by_cases hb : a = b
    · simp [hb]
    · simp [hb, Ne.symm hb]
  | cons x m ih =>
    obtain ⟨x, w⟩ := x
    simp only [Memory.write]
    split
    · simp only [Memory.read?]
      by_cases hb : a = b
      · simp [hb]
      · simp [hb, Ne.symm hb]
    · split
      · rename_i heq
        subst heq
        simp only [Memory.read?]
        by_cases hb : a = b
        · simp [hb]
        · simp [hb, Ne.symm hb]
      · rename_i h₁ h₂
        simp only [Memory.read?, ih]
        by_cases hb : x = b
        · subst hb; simp [Ne.symm h₂]
        · simp [hb]

/-- A run of written bytes, read back: inside the run the byte written, outside it what was there. -/
theorem Memory.read?_writeBytes (m : Memory) (a : Nat) (vs : List Byte) (b : Nat) :
    Memory.read? (Memory.writeBytes m a vs) b = if a ≤ b ∧ b < a + vs.length then vs[b - a]? else Memory.read? m b := by
  induction vs generalizing m a with
  | nil => simp [Memory.writeBytes]
  | cons v vs ih =>
    rw [Memory.writeBytes, ih, Memory.read?_write]
    by_cases hb : b = a
    · subst hb; simp
    · rw [if_neg hb]
      by_cases hc : a + 1 ≤ b ∧ b < a + 1 + vs.length
      · rw [if_pos hc, if_pos (by simp only [List.length_cons]; omega), show b - a = (b - (a + 1)) + 1 by omega]
        simp
      · rw [if_neg hc, if_neg (by simp only [List.length_cons]; omega)]

/-! ### The device -/

@[simp] theorem Device.cell_bank (d : Device) (b : Bank) (a : Nat) : ({ d with bank := b } : Device).cell a = d.cell a := rfl
@[simp] theorem Device.cell_tx (d : Device) (x : List (List Byte)) (a : Nat) :
    ({ d with tx := x } : Device).cell a = d.cell a := rfl
@[simp] theorem Device.cell_rx (d : Device) (x : List (List Byte)) (a : Nat) :
    ({ d with rx := x } : Device).cell a = d.cell a := rfl
@[simp] theorem Device.cell_ack (d : Device) (x : Vector (List Byte) 6) (a : Nat) :
    ({ d with ack := x } : Device).cell a = d.cell a := rfl
@[simp] theorem Device.cell_frame (d : Device) (f : List Byte) (a : Nat) :
    ({ d with frame := f } : Device).cell a = d.cell a := rfl

/-- A byte after one byte is written. -/
theorem Device.cell_write (d : Device) (a : Nat) (v : Byte) (b : Nat) :
    ({ d with regs := Memory.write d.regs a v } : Device).cell b = if b = a then v else d.cell b := by
  unfold Device.cell
  simp only [Memory.read?_write]
  split <;> rfl

/-- A byte after bytes are written. -/
theorem Device.cell_writeBytes (d : Device) (a : Nat) (vs : List Byte) (b : Nat) :
    ({ d with regs := Memory.writeBytes d.regs a vs } : Device).cell b =
      if hb : a ≤ b ∧ b < a + vs.length then vs[b - a] else d.cell b := by
  unfold Device.cell
  simp only [Memory.read?_writeBytes]
  split
  · rename_i hb
    simp [List.getElem?_eq_getElem (by omega : b - a < vs.length)]
  · rfl

theorem Device.writeRegister_wf {d : Device} (h : Memory.wf d.regs) (a : BitVec 5) (data : List Byte) :
    Memory.wf (d.writeRegister a data).regs := by
  unfold Device.writeRegister
  dsimp only
  split
  · cases data with
    | nil => exact h
    | cons s _ => exact Memory.write_wf h _ _
  · exact Memory.writeBytes_wf h _ _

theorem Device.perform_wf {d : Device} (h : Memory.wf d.regs) (cmd : Byte) (data : List Byte) :
    Memory.wf (d.perform cmd data).regs := by
  unfold Device.perform
  cases opcodeOf cmd with
  | none => exact h
  | some o =>
    cases o
    case writeRegister => exact Device.writeRegister_wf h _ _
    case activate => dsimp only; split <;> exact h
    all_goals exact h

theorem Device.endFrame_wf {d : Device} (h : Memory.wf d.regs) : Memory.wf d.endFrame.regs := by
  unfold Device.endFrame
  split
  · exact h
  · exact Device.perform_wf h _ _

theorem Device.settled_wf (d : Device) : Memory.wf d.settled.regs := Memory.ofCells_wf _

/-! ### STATUS bit 7, stored as 0 (spec/20_memory.md R47) -/

theorem Device.storedByte_status (v : Byte) : Device.storedByte (cellAddr statusAddr 0) v = v &&& 0x7F := if_pos rfl

theorem Device.storedByte_of_ne {a : Nat} (h : a ≠ cellAddr statusAddr 0) (v : Byte) : Device.storedByte a v = v := if_neg h

@[simp] theorem Device.storedByte_storedByte (a : Nat) (v : Byte) :
    Device.storedByte a (Device.storedByte a v) = Device.storedByte a v := by
  have h : ∀ v : Byte, v &&& 0x7F &&& 0x7F = v &&& 0x7F := by decide +kernel
  unfold Device.storedByte
  split
  · exact h v
  · rfl

/-- Cells whose bytes are changed by a function of address and byte, in canonical form as before. -/
theorem Memory.wf_map {m : Memory} (h : Memory.wf m) (f : Nat → Byte → Byte) :
    Memory.wf (m.map fun c => (c.1, f c.1 c.2)) :=
  List.pairwise_map.2 (h.imp fun h => h)

theorem Memory.read?_map (m : Memory) (f : Nat → Byte → Byte) (a : Nat) :
    Memory.read? (m.map fun c => (c.1, f c.1 c.2)) a = (Memory.read? m a).map (f a) := by
  induction m with
  | nil => rfl
  | cons x m ih =>
    obtain ⟨x, w⟩ := x
    simp only [List.map_cons, Memory.read?, ih]
    split
    · rename_i h; subst h; rfl
    · rfl

/-- What a device that an outside event leaves reads as: the byte that event left, STATUS without its bit 7. -/
theorem Device.settled_cell {d : Device} (h : Memory.wf d.regs) (a : Nat) :
    d.settled.cell a = Device.storedByte a (d.cell a) := by
  unfold Device.cell Device.settled
  dsimp only
  rw [Memory.ofCells_of_wf (Memory.wf_map h _), Memory.read?_map]
  cases Memory.read? d.regs a <;> simp

/-- STATUS bit 7 is stored as 0. -/
def Device.statusBitClear (d : Device) : Prop := (d.cell (cellAddr statusAddr 0)).getLsbD 7 = false

theorem Device.storedByte_bit (v : Byte) : (Device.storedByte (cellAddr statusAddr 0) v).getLsbD 7 = false := by
  have h : ∀ v : Byte, (v &&& 0x7F).getLsbD 7 = false := by decide +kernel
  rw [Device.storedByte_status]
  exact h v

/-- The cells of a folded run of writes: the last cell of the address, or what was there. -/
theorem Memory.read?_ofCells_mem {cells : List Host.Cell} {a : Nat} {v : Byte}
    (h : Memory.read? (Memory.ofCells cells) a = some v) : (a, v) ∈ cells := by
  have key : ∀ (cells : List Host.Cell) (m : Memory),
      Memory.read? (cells.foldl (fun m c => Memory.write m c.1 c.2) m) a = some v →
        (a, v) ∈ cells ∨ Memory.read? m a = some v := by
    intro cells
    induction cells with
    | nil => exact fun m h => .inr h
    | cons c cs ih =>
      intro m h
      obtain h | h := ih _ h
      · exact .inl (by simp [h])
      · rw [Memory.read?_write] at h
        split at h
        · rename_i he
          cases h
          exact .inl (by simp [he])
        · exact .inr h
  obtain h | h := key cells [] h
  · exact h
  · cases h

theorem Device.settled_statusBit (d : Device) : d.settled.statusBitClear := by
  unfold Device.statusBitClear Device.cell
  cases h : Memory.read? d.settled.regs (cellAddr statusAddr 0) with
  | none => exact Device.storedByte_bit _
  | some v =>
    obtain ⟨c, -, hc⟩ := List.mem_map.1 (Memory.read?_ofCells_mem h)
    simp only [Prod.mk.injEq] at hc
    obtain ⟨h₁, rfl⟩ := hc
    rw [h₁]
    exact Device.storedByte_bit _

theorem regWidth_lt (la : Byte) : regWidth la < 16 := by revert la; decide +kernel

theorem Device.writeRegister_statusBit {d : Device} (h : d.statusBitClear) (a : BitVec 5) (data : List Byte) :
    (d.writeRegister a data).statusBitClear := by
  unfold Device.writeRegister
  dsimp only
  split
  · cases data with
    | nil => exact h
    | cons s _ =>
      unfold Device.statusBitClear at h ⊢
      dsimp only
      rw [Device.cell_write, if_pos rfl, clearLatched, BitVec.getLsbD_and, h, Bool.false_and]
  · rename_i hla
    unfold Device.statusBitClear at h ⊢
    rw [Device.cell_writeBytes, dif_neg]
    · exact h
    · intro hb
      have hw := regWidth_lt (logicalAddr d.bank a)
      have hl := List.length_take_le (regWidth (logicalAddr d.bank a)) data
      apply hla
      apply BitVec.eq_of_toNat_eq
      unfold cellAddr at hb
      omega

theorem Device.perform_statusBit {d : Device} (h : d.statusBitClear) (cmd : Byte) (data : List Byte) :
    (d.perform cmd data).statusBitClear := by
  unfold Device.perform
  cases opcodeOf cmd with
  | none => exact h
  | some o =>
    cases o
    case writeRegister => exact Device.writeRegister_statusBit h _ _
    case activate => dsimp only; split <;> exact h
    all_goals exact h

theorem Device.endFrame_statusBit {d : Device} (h : d.statusBitClear) : d.endFrame.statusBitClear := by
  unfold Device.endFrame
  split
  · exact h
  · exact Device.perform_statusBit h _ _

theorem Device.endFrame_frame (d : Device) : d.endFrame.frame = [] := by
  unfold Device.endFrame
  split
  · assumption
  · rfl

end Sys2Proof
end

