-- ==== Sys2Proof/Laws/Bench.lean ====
section
/-! SUPPORT. The block against the reference emulation alone (spec/20_memory.md R47 to R52): every operation computed
exactly. -/

namespace Sys2Proof.Machine

/-- The fillers of `n` draws from the `k`-th on. -/
def fillers (k : Nat) : Nat → List Byte
  | 0 => []
  | n + 1 => Config.filler k :: fillers (k + 1) n

@[simp] theorem fillers_length (k n : Nat) : (fillers k n).length = n := by
  induction n generalizing k with
  | zero => rfl
  | succ n ih => simp [fillers, ih]

/-- The emulation's answers to payload exchanges `i` to `i + n - 1` of a frame of command byte `cmd`. -/
def answers (d : Device) (cmd : Byte) (i n : Nat) : List Byte := (List.range' i n).map (d.dataByte cmd)

@[simp] theorem answers_length (d : Device) (cmd : Byte) (i n : Nat) : (answers d cmd i n).length = n := by
  simp [answers]

theorem answers_succ (d : Device) (cmd : Byte) (i n : Nat) :
    answers d cmd i (n + 1) = d.dataByte cmd i :: answers d cmd (i + 1) n := by
  simp [answers, List.range'_succ]

/-- The device with the bytes received so far. -/
abbrev withFrame (d : Device) (f : List Byte) : Device := { d with frame := f }

theorem dataByte_at (d : Device) (f : List Byte) (cmd : Byte) (i : Nat) : (withFrame d f).dataByte cmd i = d.dataByte cmd i :=
  rfl

/-- The state after payload exchanges on the bench. -/
def benchPayload (s : State) (cmd : Byte) (sent outs : List Byte) (draws : Nat) : State :=
  { s with
    trace := s.trace ++ List.zipWith Event.x outs (answers s.dev cmd sent.length outs.length)
    phase := s.phase.advanceBy outs.length
    dev := withFrame s.dev (cmd :: sent ++ outs)
    exchanges := s.exchanges + outs.length
    draws := draws }

section
variable (s : State) (cmd : Byte) (sent outs : List Byte) (draws : Nat)

@[simp] theorem benchPayload_currentBank : (benchPayload s cmd sent outs draws).currentBank = s.currentBank := rfl
@[simp] theorem benchPayload_ce : (benchPayload s cmd sent outs draws).ce = s.ce := rfl
@[simp] theorem benchPayload_cs : (benchPayload s cmd sent outs draws).cs = s.cs := rfl
@[simp] theorem benchPayload_modeTrack : (benchPayload s cmd sent outs draws).modeTrack = s.modeTrack := rfl
@[simp] theorem benchPayload_phase : (benchPayload s cmd sent outs draws).phase = s.phase.advanceBy outs.length := rfl
@[simp] theorem benchPayload_trace : (benchPayload s cmd sent outs draws).trace =
    s.trace ++ List.zipWith Event.x outs (answers s.dev cmd sent.length outs.length) := rfl
@[simp] theorem benchPayload_port : (benchPayload s cmd sent outs draws).port = s.port := rfl
@[simp] theorem benchPayload_results : (benchPayload s cmd sent outs draws).results = s.results := rfl
@[simp] theorem benchPayload_dev : (benchPayload s cmd sent outs draws).dev = withFrame s.dev (cmd :: sent ++ outs) := rfl
@[simp] theorem benchPayload_faultSet : (benchPayload s cmd sent outs draws).faultSet = s.faultSet := rfl
@[simp] theorem benchPayload_exchanges : (benchPayload s cmd sent outs draws).exchanges = s.exchanges + outs.length := rfl
@[simp] theorem benchPayload_sessionFaults : (benchPayload s cmd sent outs draws).sessionFaults = s.sessionFaults := rfl
@[simp] theorem benchPayload_world : (benchPayload s cmd sent outs draws).world = s.world := rfl
@[simp] theorem benchPayload_draws : (benchPayload s cmd sent outs draws).draws = draws := rfl

end

theorem answer_at {s : State} {cmd : Byte} {sent : List Byte} (h : s.dev.frame = cmd :: sent) :
    s.dev.answer = s.dev.dataByte cmd sent.length := by
  simp [Device.answer, h]

theorem benchPayload_nil {s : State} {cmd : Byte} {sent : List Byte} (h : s.dev.frame = cmd :: sent) :
    benchPayload s cmd sent [] s.draws = s := by
  unfold benchPayload
  simp [withFrame, ← h]

theorem benchPayload_cons {s : State} {cmd : Byte} {sent : List Byte}
    (hw : s.world = []) (out : Byte) (outs : List Byte) (draws : Nat) :
    benchPayload (s.exchanged out (s.dev.dataByte cmd sent.length)) cmd (sent ++ [out]) outs draws =
      benchPayload s cmd sent (out :: outs) draws := by
  have hd : ∀ i n, answers (s.dev.receive out) cmd i n = answers s.dev cmd i n := fun _ _ => rfl
  apply State.ext <;> simp [hw, afterExchange, answers_succ, hd, Nat.add_comm 1, Nat.add_assoc]
  exact ⟨rfl, rfl, rfl, rfl, rfl⟩

theorem exchanged_frame {s : State} {cmd : Byte} {sent : List Byte} (h : s.dev.frame = cmd :: sent) (out r : Byte) :
    (s.exchanged out r).dev.frame = cmd :: (sent ++ [out]) := by
  simp [Device.receive, h]

theorem exchanged_world {s : State} (hw : s.world = []) (out r : Byte) : (s.exchanged out r).world = [] := by
  simp [hw, afterExchange]

theorem sendBytes_bench {s : State} {cmd : Byte} {sent : List Byte} (h : s.dev.frame = cmd :: sent)
    (hw : s.world = []) (hF : s.faultSet = []) (bs : List Byte) :
    (sendBytes bs).run s = .ok () (benchPayload s cmd sent bs s.draws) := by
  induction bs generalizing s sent with
  | nil => rw [benchPayload_nil h]; rfl
  | cons b bs ih =>
    have h₁ := exchangeOrAbort_bench hw hF b
    rw [answer_at h] at h₁
    have h₂ := ih (exchanged_frame h b (s.dev.dataByte cmd sent.length)) (exchanged_world hw b _) hF
    rw [State.exchanged_draws, benchPayload_cons hw] at h₂
    exact (Op.bind_of_ok h₁).trans h₂

theorem receiveBytes_bench {s : State} {cmd : Byte} {sent : List Byte} (h : s.dev.frame = cmd :: sent)
    (hw : s.world = []) (hF : s.faultSet = []) (n : Nat) :
    (receiveBytes n).run s = .ok (answers s.dev cmd sent.length n) (benchPayload s cmd sent (fillers s.draws n) (s.draws + n))
    := by
  induction n generalizing s sent with
  | zero => rw [show fillers s.draws 0 = [] from rfl, Nat.add_zero, benchPayload_nil h]; rfl
  | succ n ih =>
    have h₁ := exchangeOrAbort_bench (s := s.countDraw) hw hF (Config.filler s.draws)
    rw [answer_at (s := s.countDraw) h, State.countDraw_dev] at h₁
    have h₂ := ih (s := s.countDraw.exchanged (Config.filler s.draws) (s.dev.dataByte cmd sent.length))
      (exchanged_frame (s := s.countDraw) h _ _) (exchanged_world (s := s.countDraw) hw _ _) hF
    have hc := benchPayload_cons (s := s.countDraw) hw (Config.filler s.draws) (fillers (s.draws + 1) n)
      (s.draws + 1 + n) (cmd := cmd) (sent := sent)
    rw [State.countDraw_dev] at hc
    rw [State.exchanged_draws, State.countDraw_draws, hc] at h₂
    have hs : benchPayload s.countDraw cmd sent (Config.filler s.draws :: fillers (s.draws + 1) n) (s.draws + 1 + n) =
        benchPayload s cmd sent (fillers s.draws (n + 1)) (s.draws + (n + 1)) := by
      apply State.ext <;> simp [fillers, Nat.add_comm 1, Nat.add_assoc]
    have ha : s.dev.dataByte cmd sent.length :: answers s.dev cmd (sent.length + 1) n =
        answers s.dev cmd sent.length (n + 1) := (answers_succ ..).symm
    rw [← hs, ← ha]
    refine (Op.bind_of_ok (show drawFiller.run s = .ok (Config.filler s.draws) s.countDraw from rfl)).trans
      ((Op.bind_of_ok h₁).trans ((Op.bind_of_ok h₂).trans ?_))
    rw [List.length_append]
    rfl

/-- What a transaction sends after its command byte on the bench. -/
def benchOuts (k : Nat) (buf : List Byte) (n : Nat) : Direction → List Byte
  | .h2d => buf
  | .d2h => fillers k n
  | .none => []

/-- The data a transaction returns on the bench. -/
def benchData (d : Device) (cmd : Byte) (n : Nat) : Direction → List Byte
  | .d2h => answers d cmd 0 n
  | _ => []

/-- How many fillers a transaction draws. -/
def drawsOf (n : Nat) : Direction → Nat
  | .d2h => n
  | _ => 0

/-- The state after a transaction on the bench. -/
def benchState (s : State) (cmd : Byte) (buf : List Byte) (n : Nat) (dir : Direction) : State :=
  { s with
    cs := .deasserted
    trace := s.trace ++
      frameEvents cmd s.dev.statusView (benchOuts s.draws buf n dir) (answers s.dev cmd 0 (benchOuts s.draws buf n dir).length)
    phase := s.phase.advanceBy ((benchOuts s.draws buf n dir).length + 4)
    dev := { s.dev.perform cmd (benchOuts s.draws buf n dir) with frame := [] }
    exchanges := s.exchanges + (1 + (benchOuts s.draws buf n dir).length)
    draws := s.draws + drawsOf n dir }

theorem payload_bench {s : State} {cmd : Byte} {sent : List Byte} (h : s.dev.frame = cmd :: sent)
    (hw : s.world = []) (hF : s.faultSet = []) (buf : List Byte) (n : Nat) (dir : Direction) (hs : sent = []) :
    (payload buf n dir).run s = .ok (benchData s.dev cmd n dir)
      (benchPayload s cmd sent (benchOuts s.draws buf n dir) (s.draws + drawsOf n dir)) := by
  subst hs
  cases dir with
  | h2d =>
    exact (Op.bind_of_ok (sendBytes_bench h hw hF buf)).trans rfl
  | d2h => exact receiveBytes_bench h hw hF n
  | none =>
    show EStateM.Result.ok [] s = _
    rw [show benchOuts s.draws buf n .none = [] from rfl, show drawsOf n .none = 0 from rfl, Nat.add_zero, benchPayload_nil h]
    rfl

theorem writeRegister_withFrame (d : Device) (f : List Byte) (a : BitVec 5) (data : List Byte) :
    (withFrame d f).writeRegister a data = withFrame (d.writeRegister a data) f := by
  unfold Device.writeRegister
  cases data <;> dsimp only <;> split <;> rfl

theorem perform_withFrame (d : Device) (f : List Byte) (cmd : Byte) (data : List Byte) :
    (withFrame d f).perform cmd data = withFrame (d.perform cmd data) f := by
  unfold Device.perform
  cases opcodeOf cmd with
  | none => rfl
  | some o =>
    cases o
    case writeRegister => exact writeRegister_withFrame d f _ data
    case activate => dsimp only; split <;> rfl
    all_goals rfl

/-- The device at the end of a frame on the bench. -/
theorem endFrame_withFrame (d : Device) (cmd : Byte) (data : List Byte) :
    (withFrame d (cmd :: data)).endFrame = { d.perform cmd data with frame := [] } :=
  congrArg (fun d : Device => { d with frame := [] }) (perform_withFrame d (cmd :: data) cmd data)

/-- The end of a transaction on the bench: chip-select deasserted, the device's frame ended, the delay. -/
theorem benchPayload_aborted {s : State} (hw : s.world = []) (cmd : Byte) (outs : List Byte) (draws : Nat) :
    (benchPayload (s.opened.exchanged cmd s.dev.statusView) cmd [] outs draws).aborted =
      { s with
        cs := .deasserted
        trace := s.trace ++ frameEvents cmd s.dev.statusView outs (answers s.dev cmd 0 outs.length)
        phase := s.phase.advanceBy (outs.length + 4)
        dev := { s.dev.perform cmd outs with frame := [] }
        exchanges := s.exchanges + (1 + outs.length)
        draws := draws } := by
  apply State.ext <;> simp [State.aborted, frameEvents, hw, afterExchange, Phase.advance_eq, Nat.add_comm 1, Nat.add_assoc,
    frameEnd, afterFrame]
  · congr 1; omega
  · rfl
  · exact endFrame_withFrame s.dev cmd outs

/-- A transaction on the bench, computed (R48 to R51). -/
theorem execute_bench {s : State} (hb : OnBench s) (cmd : Byte) (buf : List Byte) (n : Nat) (dir : Direction) :
    (execute cmd buf n dir).run s = .ok (s.dev.statusView, benchData s.dev cmd n dir) (benchState s cmd buf n dir) := by
  obtain ⟨hw, hF, -, hf⟩ := hb
  have h₀ : csAssert.run s = .ok () s.opened := rfl
  have h₁ := exchangeOrAbort_bench (s := s.opened) hw hF cmd
  have ha : s.opened.dev.answer = s.dev.statusView := by simp [Device.answer, hf]
  rw [ha] at h₁
  have hfr : (s.opened.exchanged cmd s.dev.statusView).dev.frame = [cmd] := by simp [Device.receive, hf]
  have h₂ := payload_bench hfr (exchanged_world (s := s.opened) hw cmd _) hF buf n dir rfl
  refine (Op.bind_of_ok h₀).trans ((Op.bind_of_ok h₁).trans ((Op.bind_of_ok h₂).trans
    ((Op.bind_of_ok (show csDeassert.run _ = .ok () _ from rfl)).trans
      ((Op.bind_of_ok (show (delay settleMs).run _ = .ok () _ from rfl)).trans ?_))))
  rw [Op.pure_run]
  exact congrArg₂ EStateM.Result.ok rfl (benchPayload_aborted hw cmd (benchOuts s.draws buf n dir) _)

theorem benchState_onBench {s : State} (hb : OnBench s) (cmd : Byte) (buf : List Byte) (n : Nat) (dir : Direction) :
    OnBench (benchState s cmd buf n dir) := ⟨hb.world, hb.faultSet, hb.sessionFaults, rfl⟩

/-! ### Fields of the state after a transaction on the bench -/

section
variable (s : State) (cmd : Byte) (buf : List Byte) (n : Nat) (dir : Direction)

@[simp] theorem benchState_currentBank : (benchState s cmd buf n dir).currentBank = s.currentBank := rfl
@[simp] theorem benchState_ce : (benchState s cmd buf n dir).ce = s.ce := rfl
@[simp] theorem benchState_cs : (benchState s cmd buf n dir).cs = .deasserted := rfl
@[simp] theorem benchState_modeTrack : (benchState s cmd buf n dir).modeTrack = s.modeTrack := rfl
@[simp] theorem benchState_port : (benchState s cmd buf n dir).port = s.port := rfl
@[simp] theorem benchState_results : (benchState s cmd buf n dir).results = s.results := rfl
@[simp] theorem benchState_world : (benchState s cmd buf n dir).world = s.world := rfl
@[simp] theorem benchState_dev : (benchState s cmd buf n dir).dev =
    { s.dev.perform cmd (benchOuts s.draws buf n dir) with frame := [] } := rfl

end

/-! ### The bank guard on the bench -/

/-- The bank bit of the status view is the selected bank (spec/20_memory.md R43). -/
@[simp] theorem statusBank_statusSeen (b : Byte) (k : Bank) : statusBank (statusSeen b k) = k := by
  have h : ∀ b : Byte, statusBank (statusSeen b .b0) = .b0 ∧ statusBank (statusSeen b .b1) = .b1 := by decide +kernel
  cases k
  · exact (h b).1
  · exact (h b).2

@[simp] theorem statusBank_statusView (d : Device) : statusBank d.statusView = d.bank := statusBank_statusSeen _ _

/-- A read of register number 7 answers the status view first, in either bank (R43). -/
theorem dataByte_status (d : Device) : d.dataByte 0x07 0 = d.statusView := rfl

/-- A read leaves the device, a toggle flips its bank. -/
theorem perform_resolve (d : Device) (data : List Byte) : d.perform 0x07 data = d := rfl

theorem perform_toggle (d : Device) : d.perform 0x50 [0x53] = { d with bank := d.bank.other } := rfl

/-- The state after the resolution read, where it is made. -/
def benchResolve (s : State) : State :=
  match s.currentBank with
  | .unknown => (benchState s 0x07 [] 1 .d2h).setBank (.known s.dev.bank)
  | .known _ => s

/-- The state after the toggle, where it is made. -/
def benchToggle (s : State) (t : Bank) : State :=
  if s.currentBank = .known t then s else (benchState s 0x50 [0x53] 1 .h2d).setBank (.known t)

/-- The state after the bank guard. -/
def benchGuard (s : State) : Option Bank → State
  | none => s
  | some t => benchToggle (benchResolve s) t

/-- A state that agrees with one on the bench in the outside, `F` and the open frame is on the bench. -/
theorem OnBench.congr {s t : State} (h : OnBench s) (hw : t.world = s.world := by rfl)
    (hF : t.faultSet = s.faultSet := by rfl) (hS : t.sessionFaults = s.sessionFaults := by rfl)
    (hf : t.dev.frame = s.dev.frame := by rfl) : OnBench t :=
  ⟨hw.trans h.world, hF.trans h.faultSet, hS.trans h.sessionFaults, hf.trans h.frame⟩

/-- A session constructed on the bench is on the bench: its `F` is empty too (R53). -/
theorem OnBench.construct {s : State} (h : OnBench s) : OnBench s.construct :=
  ⟨h.world, by simp [h.sessionFaults], by simp [h.sessionFaults], h.frame⟩

/-- Nothing faults on the bench. -/
theorem OnBench.noFault {s : State} (h : OnBench s) : NoFault s := by
  intro k hk
  rw [h.faultSet] at hk
  cases hk

theorem OnBench.setBank {s : State} (h : OnBench s) (b : BankBelief) : OnBench (s.setBank b) := h.congr

theorem OnBench.resolve {s : State} (h : OnBench s) : OnBench (benchResolve s) := by
  unfold benchResolve
  split
  · exact (benchState_onBench h _ _ _ _).setBank _
  · exact h

theorem OnBench.toggle {s : State} (h : OnBench s) (t : Bank) : OnBench (benchToggle s t) := by
  unfold benchToggle
  split
  · exact h
  · exact (benchState_onBench h _ _ _ _).setBank _

theorem OnBench.guard {s : State} (h : OnBench s) (t : Option Bank) : OnBench (benchGuard s t) := by
  cases t with
  | none => exact h
  | some t => exact h.resolve.toggle t

theorem resolve_bench {s : State} (hb : OnBench s) :
    resolve.run s = .ok () ((benchState s 0x07 [] 1 .d2h).setBank (.known s.dev.bank)) := by
  unfold resolve
  rw [show (commandEncoder .readRegister statusAddr).byte = 0x07 from rfl, Op.bind_of_ok (execute_bench hb _ _ _ _)]
  show EStateM.Result.ok () (State.setBank _ (.known (statusBank (s.dev.dataByte 0x07 0)))) = _
  rw [dataByte_status, statusBank_statusView]

theorem toggleTo_bench {s : State} (hb : OnBench s) (t : Bank) : (toggleTo t).run s = .ok () (benchToggle s t) := by
  unfold toggleTo benchToggle
  rw [Op.bind_of_ok (belief_run s)]
  by_cases h : s.currentBank = .known t
  · rw [if_neg (by simp [h]), if_pos h]; rfl
  · rw [if_pos h, if_neg h]
    have ht : toggle.run s = .ok () (benchState s 0x50 [0x53] 1 .h2d) := by
      unfold toggle
      rw [show (commandEncoder .activate 0).byte = 0x50 from rfl, Op.bind_of_ok (execute_bench hb _ _ _ _)]
      rfl
    rw [Op.bind_of_ok ht]
    rfl

/-- The bank guard on the bench, computed (spec/40_bank_tracker.md R70). -/
theorem guardBank_bench {s : State} (hb : OnBench s) (t : Option Bank) :
    (guardBank t).run s = .ok () (benchGuard s t) := by
  cases t with
  | none => rfl
  | some t =>
    show (ensureBank t).run s = _
    cases hc : s.currentBank with
    | known c =>
      rw [ensureBank_known hc, toggleTo_bench hb]
      simp [benchGuard, benchResolve, hc]
    | unknown =>
      rw [ensureBank_unknown hc, Op.bind_of_ok (resolve_bench hb),
        toggleTo_bench ((benchState_onBench hb _ _ _ _).setBank _)]
      simp [benchGuard, benchResolve, hc]

/-- A command on the bench, computed. -/
theorem issue_bench {s : State} (hb : OnBench s) (o : Opcode) (x : Byte) (buf : List Byte) (n : Nat) :
    (issue o x buf n).run s =
      .ok ((benchGuard s (commandEncoder o x).bank).dev.statusView,
          benchData (benchGuard s (commandEncoder o x).bank).dev (commandEncoder o x).byte n (commandEncoder o x).dir)
        (benchState (benchGuard s (commandEncoder o x).bank) (commandEncoder o x).byte buf n (commandEncoder o x).dir) := by
  rw [issue_run, Op.bind_of_ok (guardBank_bench hb _)]
  exact execute_bench (hb.guard _) _ _ _ _

/-- The bank the device has selected when a command of target bank `t` is issued. -/
def guardedBank (s : State) (t : Bank) : Bank :=
  match s.currentBank with
  | .known c => if c = t then s.dev.bank else s.dev.bank.other
  | .unknown => t

theorem other_of_ne {b t : Bank} (h : b ≠ t) : b.other = t := by
  cases b <;> cases t <;> first | rfl | exact absurd rfl h

/-- From a right belief the guard selects the target bank (spec/10_state.md R20). -/
theorem guardedBank_of_agrees {s : State} (h : Agrees s) (t : Bank) : guardedBank s t = t := by
  unfold guardedBank
  split
  · rename_i c hc
    have := h c hc
    split
    · rename_i he; rw [this, he]
    · rename_i he; rw [this]; exact other_of_ne he
  · rfl

theorem withBank_self (d : Device) : { d with bank := d.bank } = d := rfl

/-- The bank guard changes nothing of the device but its selected bank. -/
theorem benchGuard_dev {s : State} (hb : OnBench s) (t : Bank) :
    (benchGuard s (some t)).dev = { s.dev with bank := guardedBank s t } := by
  have hf := hb.frame
  have key : ∀ s' : State, s'.dev.frame = [] → ∀ t, (benchToggle s' t).dev =
      { s'.dev with bank := if s'.currentBank = .known t then s'.dev.bank else s'.dev.bank.other } := by
    intro s' hf t
    unfold benchToggle
    split
    · rfl
    · show { s'.dev.perform 0x50 [0x53] with frame := [] } = _
      rw [perform_toggle, ← hf]
  cases hc : s.currentBank with
  | known c =>
    simp only [benchGuard, benchResolve, hc, guardedBank]
    rw [key s hf, hc]
    by_cases h : c = t <;> simp [h]
  | unknown =>
    have hd : ((benchState s 0x07 [] 1 .d2h).setBank (.known s.dev.bank)).dev = s.dev := by
      show { s.dev.perform 0x07 _ with frame := [] } = _
      rw [perform_resolve, ← hf]
    simp only [benchGuard, benchResolve, hc, guardedBank]
    rw [key _ (by rw [hd]; exact hf), hd]
    rw [State.setBank_currentBank]
    by_cases h : s.dev.bank = t
    · subst h; simp
    · rw [if_neg (by simpa using h), other_of_ne h]

theorem benchGuard_belief (s : State) (t : Bank) : (benchGuard s (some t)).currentBank = .known t := by
  show (benchToggle _ t).currentBank = _
  unfold benchToggle
  split
  · assumption
  · rfl

section
variable (s : State) (t : Option Bank)

theorem benchResolve_fields : (benchResolve s).ce = s.ce ∧ (benchResolve s).modeTrack = s.modeTrack ∧
    (benchResolve s).port = s.port ∧ (benchResolve s).results = s.results := by
  unfold benchResolve
  split <;> exact ⟨rfl, rfl, rfl, rfl⟩

/-- The bank guard leaves chip-enable, the mode and the ports. -/
theorem benchGuard_fields : (benchGuard s t).ce = s.ce ∧ (benchGuard s t).modeTrack = s.modeTrack ∧
    (benchGuard s t).port = s.port ∧ (benchGuard s t).results = s.results := by
  cases t with
  | none => exact ⟨rfl, rfl, rfl, rfl⟩
  | some t =>
    obtain ⟨h₁, h₂, h₃, h₄⟩ := benchResolve_fields s
    show (benchToggle _ t).ce = _ ∧ (benchToggle _ t).modeTrack = _ ∧ (benchToggle _ t).port = _ ∧
      (benchToggle _ t).results = _
    unfold benchToggle
    split
    · exact ⟨h₁, h₂, h₃, h₄⟩
    · exact ⟨h₁, h₂, h₃, h₄⟩

end

/-! ### Requests on the bench -/

/-- What a command request leaves on the bench: its bank guard, its transaction, its result. -/
def benchCommand (s : State) (o : Opcode) (x : Byte) (buf : List Byte) (n : Nat) : State :=
  let w := commandEncoder o x
  let g := benchGuard s w.bank
  conclude (.ok (some g.dev.statusView, benchData g.dev w.byte n w.dir) (benchState g w.byte buf n w.dir))

theorem OnBench.accept {s : State} (h : OnBench s) (i : Instr) : OnBench (s.accept i) := h.congr

/-- A command request whose checks pass, on the bench, computed. -/
theorem exec_bench {i : Instr} {o : Opcode} {x : Byte} {buf : List Byte} {n : Nat} {s : State}
    (hbody : (body i).run (s.accept i) = (answerOf <$> issue o x buf n).run (s.accept i)) (hb : OnBench s) :
    exec i s = .next (benchCommand (s.accept i) o x buf n) := by
  rw [exec_eq, hbody, EStateM.run_map, issue_bench (hb.accept i)]
  rfl

/-- The device after a register command. -/
theorem benchCommand_dev {s : State} (hb : OnBench s) {o : Opcode} {x : Byte} {t : Bank}
    (hw : (commandEncoder o x).bank = some t) (buf : List Byte) (n : Nat) :
    (benchCommand s o x buf n).dev =
      { ({ s.dev with bank := guardedBank s t } : Device).perform (commandEncoder o x).byte
          (benchOuts (benchGuard s (some t)).draws buf n (commandEncoder o x).dir) with frame := [] } := by
  unfold benchCommand
  dsimp only
  rw [hw]
  show { (benchGuard s (some t)).dev.perform _ _ with frame := [] } = _
  rw [benchGuard_dev hb]

/-- The device after any other command. -/
theorem benchCommand_dev_unguarded {s : State} {o : Opcode} {x : Byte} (hw : (commandEncoder o x).bank = none)
    (buf : List Byte) (n : Nat) : (benchCommand s o x buf n).dev =
      { s.dev.perform (commandEncoder o x).byte (benchOuts s.draws buf n (commandEncoder o x).dir) with frame := [] } := by
  unfold benchCommand
  dsimp only
  rw [hw]
  rfl

/-- The result of a register command. -/
theorem benchCommand_results {s : State} (hb : OnBench s) {o : Opcode} {x : Byte} {t : Bank}
    (hw : (commandEncoder o x).bank = some t) (buf : List Byte) (n : Nat) :
    (benchCommand s o x buf n).results = s.results ++
      [.ok (some ({ s.dev with bank := guardedBank s t } : Device).statusView)
        (benchData { s.dev with bank := guardedBank s t } (commandEncoder o x).byte n (commandEncoder o x).dir)] := by
  unfold benchCommand
  dsimp only
  rw [hw, benchGuard_dev hb]
  show (benchGuard s (some t)).results ++ _ = _
  rw [(benchGuard_fields s (some t)).2.2.2]

/-- The result of any other command. -/
theorem benchCommand_results_unguarded {s : State} {o : Opcode} {x : Byte} (hw : (commandEncoder o x).bank = none)
    (buf : List Byte) (n : Nat) : (benchCommand s o x buf n).results = s.results ++
      [.ok (some s.dev.statusView) (benchData s.dev (commandEncoder o x).byte n (commandEncoder o x).dir)] := by
  unfold benchCommand
  dsimp only
  rw [hw]
  rfl

theorem benchCommand_onBench {s : State} (hb : OnBench s) (o : Opcode) (x : Byte) (buf : List Byte) (n : Nat) :
    OnBench (benchCommand s o x buf n) := by
  have := benchState_onBench (hb.guard (commandEncoder o x).bank) (commandEncoder o x).byte buf n (commandEncoder o x).dir
  exact this.congr

theorem benchCommand_belief (s : State) (o : Opcode) (x : Byte) (buf : List Byte) (n : Nat) :
    (benchCommand s o x buf n).currentBank = beliefAfter s.currentBank (commandEncoder o x).bank := by
  show (benchGuard s (commandEncoder o x).bank).currentBank = _
  cases (commandEncoder o x).bank with
  | none => rfl
  | some t => exact benchGuard_belief s t

/-! ### The commands at the device -/

/-- A read command leaves the device as it is. -/
theorem perform_read (d : Device) (la : Byte) (data : List Byte) :
    d.perform (commandEncoder .readRegister la).byte data = d := by
  have h : ∀ la, opcodeOf (commandEncoder .readRegister la).byte = some .readRegister := by decide +kernel
  unfold Device.perform
  rw [h]

/-- A write command writes the register of its number in the selected bank. -/
theorem perform_write (d : Device) (la : Byte) (data : List Byte) :
    d.perform (commandEncoder .writeRegister la).byte data = d.writeRegister (regNumber la) data := by
  have h : ∀ la, opcodeOf (commandEncoder .writeRegister la).byte = some .writeRegister ∧
      regNumber (commandEncoder .writeRegister la).byte = regNumber la := by decide +kernel
  unfold Device.perform
  rw [(h la).1, (h la).2]

/-- A read command answers the bytes of the register of its number. -/
theorem dataByte_read (d : Device) (la : Byte) (i : Nat) :
    d.dataByte (commandEncoder .readRegister la).byte i = d.registerByte (regNumber la) i := by
  have h : ∀ la, opcodeOf (commandEncoder .readRegister la).byte = some .readRegister ∧
      regNumber (commandEncoder .readRegister la).byte = regNumber la := by decide +kernel
  unfold Device.dataByte
  rw [(h la).1, (h la).2]

/-- A defined address is its register number in its bank (spec/30_encoding.md R54). -/
theorem logicalAddr_of_defined {la : Byte} (h : definedAddr la = true) : logicalAddr (bankOf la) (regNumber la) = la := by
  have key : ∀ la : Byte, definedAddr la = true → logicalAddr (bankOf la) (regNumber la) = la := by decide +kernel
  exact key la h

end Sys2Proof.Machine
end

