-- ==== Sys2Proof/Laws/Decode.lean ====
section
/-! SUPPORT. The parts of the byte record (notes/assumptions/1.md): each reader takes back what its writer wrote, and
each command byte leads to its own row of R58. -/

namespace Sys2Proof

theorem countOf_countByte {n : Nat} (h : n < 256) : countOf (countByte n) = n := by
  unfold countOf countByte
  simp
  omega

theorem takeCount_countByte {n : Nat} (h : n < 256) (rest : List Byte) :
    takeCount (countByte n :: rest) = .ok (n, rest) := by
  simp [takeCount, countOf_countByte h]

theorem takePayload_payloadBytes {v : List Byte} (h : v.length < 256) (rest : List Byte) :
    takePayload (payloadBytes v ++ rest) = .ok (v, rest) := by
  simp [takePayload, payloadBytes, countOf_countByte h]

theorem opcodeOf_readRegister : ∀ la : Byte, opcodeOf (commandEncoder .readRegister la).byte = some .readRegister := by
  decide +kernel

theorem opcodeOf_writeRegister : ∀ la : Byte, opcodeOf (commandEncoder .writeRegister la).byte = some .writeRegister := by
  decide +kernel

theorem opcodeOf_writeAckPayload :
    ∀ p : Byte, opcodeOf (commandEncoder .writeAckPayload p).byte = some .writeAckPayload := by
  decide +kernel

/-- The command byte and the byte of bits 7:5 give the logical address back (R54, R55). -/
theorem takeAddress_addressBytes {o : Opcode} (ho : o = .readRegister ∨ o = .writeRegister) (la : Byte)
    (rest : List Byte) : takeAddress (commandEncoder o la).byte ((la &&& 0xE0) :: rest) = .ok (la, rest) := by
  have h1 : ∀ la : Byte, la &&& 0xE0 &&& 0x1F = 0 := by decide +kernel
  have h2 : ∀ la : Byte, (la &&& 0xE0) ||| ((commandEncoder .readRegister la).byte &&& 0x1F) = la := by decide +kernel
  have h3 : ∀ la : Byte, (la &&& 0xE0) ||| ((commandEncoder .writeRegister la).byte &&& 0x1F) = la := by decide +kernel
  unfold takeAddress
  dsimp only
  rw [if_pos (h1 la)]
  obtain rfl | rfl := ho
  · rw [h2]
  · rw [h3]

/-- The pipe id is the command byte's bits 2:0 (R56). -/
theorem pipe_of_command {p : Nat} (h : p < 8) :
    ((commandEncoder .writeAckPayload (BitVec.ofNat 8 p)).byte &&& 0x07).toNat = p := by
  have key : ∀ p : Fin 8, ((commandEncoder .writeAckPayload (BitVec.ofNat 8 p.val)).byte &&& 0x07).toNat = p.val := by
    decide +kernel
  exact key ⟨p, h⟩

end Sys2Proof
end

