-- ==== Sys2Proof/Laws/Device.lean ====
section
/-! SUPPORT. What every operation keeps of the device, whatever the outside does: its memory stays in canonical form with
STATUS bit 7 stored as 0, and no frame is left open. -/

namespace Sys2Proof.Machine

/-- The device's memory is as R47 has it: in canonical form, and STATUS bit 7 stored as 0 (spec/20_memory.md R47). -/
abbrev StoresWell (d : Device) : Prop := Memory.wf d.regs ∧ d.statusBitClear

/-- The device's memory stays as R47 has it. -/
abbrev KeepsWf (s s' : State) : Prop := StoresWell s.dev → StoresWell s'.dev

theorem KeepsWf.refl (s : State) : KeepsWf s s := id

theorem KeepsWf.trans {a b c : State} (h₁ : KeepsWf a b) (h₂ : KeepsWf b c) : KeepsWf a c := fun h => h₂ (h₁ h)

theorem frameEnd_wf {d : Device} (h : StoresWell d) (w : List Move) : StoresWell (frameEnd w d) := by
  unfold frameEnd
  split
  · exact ⟨Device.settled_wf _, Device.settled_statusBit _⟩
  · exact ⟨Device.endFrame_wf h.1, Device.endFrame_statusBit h.2⟩

theorem frameEnd_frame (w : List Move) (d : Device) : (frameEnd w d).frame = [] := by
  unfold frameEnd
  split
  · rfl
  · exact Device.endFrame_frame d

theorem keepsWf_abort {α : Type} : Op.Keeps KeepsWf (abort : Op α) := by
  intro s
  refine ⟨fun a s' h => (by rw [abort_run] at h; cases h), fun e s' h => ?_⟩
  rw [abort_run] at h
  cases h
  exact fun hw => frameEnd_wf hw _

theorem keepsWf_exchange (out : Byte) : Op.Keeps KeepsWf (exchange out) := by
  intro s
  refine ⟨fun a s' h => ?_, fun e s' h => ?_⟩
  · rw [exchange_run] at h
    split at h <;> cases h <;> exact id
  · rw [exchange_run] at h
    split at h <;> cases h

theorem keepsWf_exchangeOrAbort (out : Byte) : Op.Keeps KeepsWf (exchangeOrAbort out) := by
  refine Op.keeps_bind (fun h₁ h₂ => h₁.trans h₂) (keepsWf_exchange out) fun o => ?_
  cases o with
  | none => exact keepsWf_abort
  | some r => exact Op.keeps_pure KeepsWf.refl r

theorem keepsWf_sendBytes (bs : List Byte) : Op.Keeps KeepsWf (sendBytes bs) := by
  induction bs with
  | nil => exact Op.keeps_pure KeepsWf.refl ()
  | cons b bs ih => exact Op.keeps_bind (fun h₁ h₂ => h₁.trans h₂) (keepsWf_exchangeOrAbort b) fun _ => ih

theorem keepsWf_receiveBytes (n : Nat) : Op.Keeps KeepsWf (receiveBytes n) := by
  induction n with
  | zero => exact Op.keeps_pure KeepsWf.refl []
  | succ n ih =>
    refine Op.keeps_bind (fun h₁ h₂ => h₁.trans h₂) ?_ fun f => Op.keeps_bind (fun h₁ h₂ => h₁.trans h₂)
      (keepsWf_exchangeOrAbort f) fun r => Op.keeps_bind (fun h₁ h₂ => h₁.trans h₂) ih fun rs =>
        Op.keeps_pure KeepsWf.refl _
    intro s
    exact ⟨fun a s' h => (by cases h; exact id), fun e s' h => by cases h⟩

theorem keepsWf_payload (buf : List Byte) (n : Nat) (dir : Direction) : Op.Keeps KeepsWf (payload buf n dir) := by
  cases dir with
  | h2d => exact Op.keeps_bind (fun h₁ h₂ => h₁.trans h₂) (keepsWf_sendBytes buf) fun _ => Op.keeps_pure KeepsWf.refl _
  | d2h => exact keepsWf_receiveBytes n
  | none => exact Op.keeps_pure KeepsWf.refl _

theorem keepsWf_csDeassert : Op.Keeps KeepsWf csDeassert := by
  intro s
  exact ⟨fun a s' h => (by cases h; exact fun hw => frameEnd_wf hw _), fun e s' h => by cases h⟩

theorem keepsWf_of_dev {α : Type} {x : Op α} (h : ∀ s, ∃ a s', x.run s = .ok a s' ∧ s'.dev = s.dev) :
    Op.Keeps KeepsWf x := by
  intro s
  obtain ⟨a, s', hr, hd⟩ := h s
  refine ⟨fun a s' h => ?_, fun e s' h => by rw [hr] at h; cases h⟩
  rw [hr] at h
  cases h
  intro hw
  rw [hd]
  exact hw

/-- A transaction keeps the canonical form. -/
theorem keepsWf_execute (cmd : Byte) (buf : List Byte) (n : Nat) (dir : Direction) :
    Op.Keeps KeepsWf (execute cmd buf n dir) :=
  Op.keeps_bind (fun h₁ h₂ => h₁.trans h₂) (keepsWf_of_dev fun _ => ⟨_, _, rfl, rfl⟩) fun _ =>
    Op.keeps_bind (fun h₁ h₂ => h₁.trans h₂) (keepsWf_exchangeOrAbort cmd) fun _ =>
      Op.keeps_bind (fun h₁ h₂ => h₁.trans h₂) (keepsWf_payload buf n dir) fun _ =>
        Op.keeps_bind (fun h₁ h₂ => h₁.trans h₂) keepsWf_csDeassert fun _ =>
          Op.keeps_bind (fun h₁ h₂ => h₁.trans h₂) (keepsWf_of_dev fun _ => ⟨_, _, rfl, rfl⟩) fun _ =>
            Op.keeps_pure KeepsWf.refl _

/-- After a payload that failed, no frame is open. -/
theorem payload_error_frame {buf : List Byte} {n : Nat} {dir : Direction} {e : Err} {s s' : State}
    (h : (payload buf n dir).run s = .error e s') : s'.dev.frame = [] := by
  have hx : ∀ {out : Byte} {s s' : State}, (exchangeOrAbort out).run s = .error e s' → s'.dev.frame = [] := by
    intro out s s' h
    obtain ⟨-, -, rfl⟩ := exchangeOrAbort_error h
    exact frameEnd_frame _ _
  have hs : ∀ (bs : List Byte) {s s' : State}, (sendBytes bs).run s = .error e s' → s'.dev.frame = [] := by
    intro bs
    induction bs with
    | nil => intro s s' h; cases h
    | cons b bs ih =>
      intro s s' h
      obtain h | ⟨r, s₁, -, h⟩ := Op.bind_error.1 h
      exacts [hx h, ih h]
  have hr : ∀ (n : Nat) {s s' : State}, (receiveBytes n).run s = .error e s' → s'.dev.frame = [] := by
    intro n
    induction n with
    | zero => intro s s' h; cases h
    | succ n ih =>
      intro s s' h
      obtain h | ⟨f, s₁, h₁, h⟩ := Op.bind_error.1 h
      · cases h
      obtain h | ⟨r, s₂, -, h⟩ := Op.bind_error.1 h
      · exact hx h
      obtain h | ⟨rs, s₃, -, h⟩ := Op.bind_error.1 h
      · exact ih h
      · cases h
  cases dir with
  | h2d =>
    obtain h | ⟨u, s₁, -, h⟩ := Op.bind_error.1 h
    · exact hs _ h
    · cases h
  | d2h => exact hr n h
  | none => cases h

/-- A transaction leaves no frame open, completed or cut short. -/
theorem execute_frame {cmd : Byte} {buf : List Byte} {n : Nat} {dir : Direction} {s s' : State}
    (h : (∃ r, (execute cmd buf n dir).run s = .ok r s') ∨ ∃ e, (execute cmd buf n dir).run s = .error e s') :
    s'.dev.frame = [] := by
  obtain ⟨r, h⟩ | ⟨e, h⟩ := h
  · unfold execute at h
    obtain ⟨_, _, -, h⟩ := Op.bind_ok.1 h
    obtain ⟨_, _, -, h⟩ := Op.bind_ok.1 h
    obtain ⟨_, s₃, -, h⟩ := Op.bind_ok.1 h
    obtain ⟨_, _, h₄, h⟩ := Op.bind_ok.1 h
    obtain ⟨_, _, h₅, h⟩ := Op.bind_ok.1 h
    cases h₄; cases h₅; cases h
    exact frameEnd_frame _ _
  · unfold execute at h
    obtain h | ⟨_, s₁, h₁, h⟩ := Op.bind_error.1 h
    · cases h
    obtain h | ⟨_, s₂, -, h⟩ := Op.bind_error.1 h
    · obtain ⟨-, -, rfl⟩ := exchangeOrAbort_error h
      exact frameEnd_frame _ _
    obtain h | ⟨_, s₃, -, h⟩ := Op.bind_error.1 h
    · exact payload_error_frame h
    obtain h | ⟨_, _, h₄, h⟩ := Op.bind_error.1 h
    · cases h
    obtain h | ⟨_, _, h₅, h⟩ := Op.bind_error.1 h
    · cases h
    · cases h

/-- No frame is left open where none was, and the canonical form is kept. -/
structure KeepsDev (s s' : State) : Prop where
  frame : s.dev.frame = [] → s'.dev.frame = []
  wf : KeepsWf s s'

theorem KeepsDev.refl (s : State) : KeepsDev s s := ⟨id, id⟩

theorem KeepsDev.trans {a b c : State} (h₁ : KeepsDev a b) (h₂ : KeepsDev b c) : KeepsDev a c :=
  ⟨fun h => h₂.frame (h₁.frame h), h₁.wf.trans h₂.wf⟩

theorem keepsDev_bind {α β : Type} {x : Op α} {f : α → Op β} (hx : Op.Keeps KeepsDev x)
    (hf : ∀ a, Op.Keeps KeepsDev (f a)) : Op.Keeps KeepsDev (x >>= f) :=
  Op.keeps_bind (fun h₁ h₂ => h₁.trans h₂) hx hf

theorem keepsDev_of_dev {α : Type} {x : Op α} (h : ∀ s, ∃ a s', x.run s = .ok a s' ∧ s'.dev = s.dev) :
    Op.Keeps KeepsDev x := by
  intro s
  obtain ⟨a, s', hr, hd⟩ := h s
  refine ⟨fun a s' h => ?_, fun e s' h => by rw [hr] at h; cases h⟩
  rw [hr] at h
  cases h
  exact ⟨fun hf => (by rw [hd]; exact hf), fun hw => by rw [hd]; exact hw⟩

theorem keepsDev_pure {α : Type} (a : α) : Op.Keeps KeepsDev (pure a : Op α) := Op.keeps_pure KeepsDev.refl a

theorem keepsDev_execute (cmd : Byte) (buf : List Byte) (n : Nat) (dir : Direction) :
    Op.Keeps KeepsDev (execute cmd buf n dir) := by
  intro s
  exact ⟨fun a s' h => ⟨fun _ => execute_frame (.inl ⟨a, h⟩), (keepsWf_execute cmd buf n dir s).1 a s' h⟩,
    fun e s' h => ⟨fun _ => execute_frame (.inr ⟨e, h⟩), (keepsWf_execute cmd buf n dir s).2 e s' h⟩⟩

theorem keepsDev_ensureBank (t : Bank) : Op.Keeps KeepsDev (ensureBank t) := by
  have hb : Op.Keeps KeepsDev belief := keepsDev_of_dev fun _ => ⟨_, _, rfl, rfl⟩
  have hw : ∀ b, Op.Keeps KeepsDev (believe b) := fun b => keepsDev_of_dev fun _ => ⟨_, _, rfl, rfl⟩
  have ht : Op.Keeps KeepsDev toggle := keepsDev_bind (keepsDev_execute _ _ _ _) fun _ => keepsDev_pure ()
  have hr : Op.Keeps KeepsDev resolve := keepsDev_bind (keepsDev_execute _ _ _ _) fun _ => hw _
  refine keepsDev_bind hb fun b => ?_
  split
  · refine keepsDev_bind hr fun _ => keepsDev_bind hb fun b => ?_
    split
    · exact keepsDev_bind ht fun _ => hw _
    · exact keepsDev_pure ()
  · refine keepsDev_bind hb fun b => ?_
    split
    · exact keepsDev_bind ht fun _ => hw _
    · exact keepsDev_pure ()

theorem keepsDev_issue (o : Opcode) (x : Byte) (buf : List Byte) (n : Nat) : Op.Keeps KeepsDev (issue o x buf n) := by
  refine keepsDev_bind ?_ fun _ => keepsDev_execute _ _ _ _
  cases (commandEncoder o x).bank with
  | none => exact keepsDev_pure ()
  | some t => exact keepsDev_ensureBank t

theorem keepsDev_check (c : Option Err) : Op.Keeps KeepsDev (check c) := by
  cases c with
  | none => exact keepsDev_pure ()
  | some e => exact Op.keeps_throw KeepsDev.refl e

theorem keepsDev_rreg (la : Byte) (n : Nat) : Op.Keeps KeepsDev (rreg la n) :=
  keepsDev_bind (keepsDev_check _) fun _ => keepsDev_issue _ _ _ _

theorem keepsDev_wreg (la : Byte) (v : List Byte) : Op.Keeps KeepsDev (wreg la v) :=
  keepsDev_bind (keepsDev_check _) fun _ => keepsDev_issue _ _ _ _

theorem keepsDev_modifyRegister (la : Byte) (f : Byte → Byte) : Op.Keeps KeepsDev (modifyRegister la f) :=
  keepsDev_bind (keepsDev_rreg la 1) fun _ => keepsDev_bind (keepsDev_wreg la _) fun _ => keepsDev_pure _

theorem keepsDev_driveCe (l : Level) : Op.Keeps KeepsDev (driveCe l) := keepsDev_of_dev fun _ => ⟨_, _, rfl, rfl⟩

theorem keepsDev_enterMode (m : Mode) : Op.Keeps KeepsDev (enterMode m) := keepsDev_of_dev fun _ => ⟨_, _, rfl, rfl⟩

theorem keepsDev_replay (blob : List InitEntry) (last : Option Byte) : Op.Keeps KeepsDev (replay blob last) := by
  induction blob generalizing last with
  | nil => exact keepsDev_pure _
  | cons e es ih => exact keepsDev_bind (keepsDev_wreg _ _) fun r => ih (some r.1)

/-- Every request keeps the device's memory in canonical form and leaves no frame open. -/
theorem keepsDev_body (i : Instr) : Op.Keeps KeepsDev (body i) := by
  cases i with
  | readRegister la n => exact Op.keeps_map _ (keepsDev_rreg la n)
  | writeRegister la v => exact Op.keeps_map _ (keepsDev_wreg la v)
  | readRxPayload n => exact keepsDev_bind (keepsDev_check _) fun _ => Op.keeps_map _ (keepsDev_issue _ _ _ _)
  | writeTxPayload v => exact keepsDev_bind (keepsDev_check _) fun _ => Op.keeps_map _ (keepsDev_issue _ _ _ _)
  | writeTxPayloadNoAck v => exact keepsDev_bind (keepsDev_check _) fun _ => Op.keeps_map _ (keepsDev_issue _ _ _ _)
  | writeAckPayload p v => exact keepsDev_bind (keepsDev_check _) fun _ => Op.keeps_map _ (keepsDev_issue _ _ _ _)
  | flushTx => exact Op.keeps_map _ (keepsDev_issue _ _ _ _)
  | flushRx => exact Op.keeps_map _ (keepsDev_issue _ _ _ _)
  | reuseTxPayload => exact Op.keeps_map _ (keepsDev_issue _ _ _ _)
  | activate b => exact Op.keeps_map _ (keepsDev_issue _ _ _ _)
  | readRxPayloadWidth => exact Op.keeps_map _ (keepsDev_issue _ _ _ _)
  | nop => exact Op.keeps_map _ (keepsDev_issue _ _ _ _)
  | modePD =>
    exact keepsDev_bind (keepsDev_driveCe _) fun _ => keepsDev_bind (keepsDev_modifyRegister _ _) fun _ =>
      keepsDev_bind (keepsDev_enterMode _) fun _ => keepsDev_pure _
  | modeSB =>
    exact keepsDev_bind (keepsDev_driveCe _) fun _ => keepsDev_bind (keepsDev_modifyRegister _ _) fun _ =>
      keepsDev_bind (keepsDev_enterMode _) fun _ => keepsDev_pure _
  | modeTX =>
    exact keepsDev_bind (keepsDev_driveCe _) fun _ => keepsDev_bind (keepsDev_modifyRegister _ _) fun _ =>
      keepsDev_bind (keepsDev_driveCe _) fun _ => keepsDev_bind (keepsDev_enterMode _) fun _ => keepsDev_pure _
  | modeRX =>
    exact keepsDev_bind (keepsDev_modifyRegister _ _) fun _ => keepsDev_bind (keepsDev_driveCe _) fun _ =>
      keepsDev_bind (keepsDev_modifyRegister _ _) fun _ => keepsDev_bind (keepsDev_driveCe _) fun _ =>
        keepsDev_bind (keepsDev_enterMode _) fun _ => keepsDev_pure _
  | setPwr level =>
    show Op.Keeps KeepsDev (powerBody _ _ level)
    unfold powerBody
    split
    · exact keepsDev_pure _
    · exact keepsDev_bind (keepsDev_modifyRegister _ _) fun _ => keepsDev_pure _
  | init => exact keepsDev_replay _ _
  | reset => exact keepsDev_of_dev fun _ => ⟨_, _, rfl, rfl⟩

end Sys2Proof.Machine
end

