-- ==== Sys2Proof/Laws/Failures.lean ====
section
/-! SUPPORT. The toggles and the failures of register commands and read-modify-writes (spec/40_bank_tracker.md R71, R72). -/

namespace Sys2Proof.Machine

/-- A register command that failed where its target bank was already the belief: its own transaction was cut short. -/
theorem FailedAt.from_known {t : Bank} {cmd : Byte} {buf : List Byte} {n : Nat} {dir : Direction} {ev : List Event}
    {b' : BankBelief} (h : FailedAt (.known t) t cmd buf n dir ev b') : CutEvents cmd buf n dir ev ∧ b' = .known t := by
  obtain ⟨h, -⟩ | ⟨c, h, hc, -⟩ | ⟨h, -⟩ | ⟨bw, ev', hw, hc, rfl, hb⟩ := h
  · cases h
  · cases h; exact absurd rfl hc
  · cases h
  · have := bankWork_same hw; subst this; exact ⟨hc, hb⟩

/-- A bank guard that failed: what it has issued and the belief it leaves (R72), and its toggles (R71). -/
theorem ensureBank_failed {t : Bank} {s s' : State} {e : Err} (h : (ensureBank t).run s = .error e s') :
    ∃ ev, Issued ev s s' ∧ FailedAt s.currentBank t 0 [] 0 .none ev s'.currentBank ∧ (commandBytes ev).count 0x50 ≤ 1 ∧
      (s.currentBank = .known t → False) ∧
      (∀ st f d rest, s.currentBank = .unknown → ev = frameEvents 0x07 st [f] [d] ++ rest → statusBank d = t → (commandBytes ev).count 0x50 = 0) := by
  obtain ⟨-, -, -, -, -, h⟩ := ensureBank_error h
  obtain ⟨h1, h2, ev, hc, hi⟩ | ⟨c, h1, hct, h2, ev, hc, hi⟩ | ⟨h1, st, f, d, ev, hd, h2, hc, hi⟩ := h
  · refine ⟨ev, hi, .inl ⟨h1, hc, h2⟩, by rw [commandBytes_cut hc]; decide, by rw [h1]; simp, fun _ _ _ _ _ _ _ => by rw [commandBytes_cut hc]; decide⟩
  · refine ⟨ev, hi, .inr (.inl ⟨c, h1, hct, hc, h2⟩), by rw [commandBytes_cut hc]; decide, ?_, fun _ _ _ _ h => by rw [h1] at h; cases h⟩
    rw [h1]; intro h; cases h; exact hct rfl
  · refine ⟨_, hi, .inr (.inr (.inl ⟨h1, st, f, d, ev, hd, hc, rfl, h2⟩)), ?_, by rw [h1]; simp, ?_⟩
    · rw [commandBytes_frameEvents, commandBytes_cut hc]; decide
    · intro st' f' d' rest _ he hs
      exfalso
      apply hd
      have : d' = d := by
        simp [frameEvents] at he
        tauto
      rw [← this]; exact hs

/-- The toggles of complete bank work (R71). -/
theorem bankWork_toggles {b : BankBelief} {t : Bank} {ev : List Event} (h : BankWork b t ev) :
    (commandBytes ev).count 0x50 ≤ 1 ∧ (b = .known t → commandBytes ev = []) ∧
    (∀ st f d rest post, b = .unknown → ev ++ post = frameEvents 0x07 st [f] [d] ++ rest → statusBank d = t → (commandBytes ev).count 0x50 = 0) := by
  cases b with
  | known c =>
    refine ⟨?_, ?_, fun _ _ _ _ _ h => by cases h⟩
    · rw [commandBytes_toggleWork h]; split <;> decide
    · intro hc; cases hc; rw [commandBytes_toggleWork h]; simp
  | unknown =>
    obtain ⟨st, f, d, ev', rfl, hw⟩ := h
    refine ⟨?_, fun h => (by cases h), ?_⟩
    · rw [commandBytes_frameEvents, commandBytes_toggleWork hw]; split <;> decide
    · intro st' f' d' rest post _ he hs
      have : d' = d := by
        simp [frameEvents] at he
        tauto
      subst this
      rw [commandBytes_frameEvents, commandBytes_toggleWork hw, if_pos hs]; decide

/-- Everything a register command can do, completed or failed (R71, R72). -/
theorem issue_register {o : Opcode} {la : Byte} {buf : List Byte} {n : Nat} (ho : o = .readRegister ∨ o = .writeRegister) (hd : RegisterAddr la)
    {s : State} {s' : State} (h : (∃ r, (issue o la buf n).run s = .ok r s') ∨ ∃ e, (issue o la buf n).run s = .error e s') :
    ∃ ev, Issued ev s s' ∧ (commandBytes ev).count 0x50 ≤ 1 ∧ (s.currentBank = .known (bankOf la) → (commandBytes ev).count 0x50 = 0) ∧
      (∀ st f d rest, s.currentBank = .unknown → ev = frameEvents 0x07 st [f] [d] ++ rest → statusBank d = bankOf la → (commandBytes ev).count 0x50 = 0) ∧
      ((∃ e, (issue o la buf n).run s = .error e s') → FailedAt s.currentBank (bankOf la) (commandEncoder o la).byte buf n
        (commandEncoder o la).dir ev s'.currentBank) := by
  have hcmd : (commandEncoder o la).byte ≠ 0x50 := by
    have : ∀ la : Byte, definedAddr la = true → (commandEncoder .readRegister la).byte ≠ 0x50 ∧ (commandEncoder .writeRegister la).byte ≠ 0x50 := by decide +kernel
    rcases ho with rfl | rfl
    · exact (this la ((definedAddr_iff la).2 hd)).1
    · exact (this la ((definedAddr_iff la).2 hd)).2
  have hbank : (commandEncoder o la).bank = some (bankOf la) := by rcases ho with rfl | rfl <;> rfl
  have hc1 : List.count 0x50 [(commandEncoder o la).byte] = 0 := by rw [List.count_singleton]; simpa using hcmd
  obtain ⟨r, h⟩ | ⟨e, h⟩ := h
  · obtain ⟨outs, ins, ev, hdn, -⟩ := issue_ok h
    have hw := hdn.work; rw [hbank] at hw
    obtain ⟨h1, h2, h3⟩ := bankWork_toggles hw
    refine ⟨_, hdn.issued, ?_, ?_, ?_, fun ⟨e, he⟩ => by rw [h] at he; cases he⟩
    · rw [Closed.of_bankWork hw, commandBytes_frame, List.count_append, hc1]; exact h1
    · intro hk; rw [Closed.of_bankWork hw, commandBytes_frame, List.count_append, hc1, h2 hk]; rfl
    · intro st f d rest hk he hs
      rw [Closed.of_bankWork hw, commandBytes_frame, List.count_append, hc1, h3 st f d rest _ hk he hs]
  · have h' := h
    rw [issue_run, hbank] at h'
    obtain h' | ⟨u, s₁, h₁, h'⟩ := Op.bind_error.1 h'
    · obtain ⟨ev, hi, hF, h1, h2, h3⟩ := ensureBank_failed h'
      refine ⟨ev, hi, h1, fun hk => (h2 hk).elim, h3, fun _ => ?_⟩
      obtain hF | hF | hF | hF := hF
      · exact .inl hF
      · exact .inr (.inl hF)
      · exact .inr (.inr (.inl hF))
      · obtain ⟨bw, ev', hbw, hcut, rfl, hb⟩ := hF
        -- not from ensureBank: rule out by direct use
        obtain ⟨-, -, -, -, -, hx⟩ := ensureBank_error h'
        exfalso
        obtain ⟨h1, h2, -⟩ | ⟨c, h1, hct, h2, -⟩ | ⟨h1, st, f, d, ev, hd, h2, -⟩ := hx
        · rw [hb] at h2; cases h2
        · exact hct (BankBelief.known.inj (h2.symm.trans hb))
        · exact hd (BankBelief.known.inj (h2.symm.trans hb))
    · have hg := ensureBank_ok h₁
      obtain ⟨bw, hw, hi⟩ := hg.work
      obtain ⟨-, ha⟩ := execute_error h'
      obtain ⟨ev', hev, hi'⟩ := ha.issued
      obtain ⟨h1, h2, h3⟩ := bankWork_toggles hw
      refine ⟨bw ++ ev', hi.trans hi', ?_, ?_, ?_, fun _ => .inr (.inr (.inr ⟨bw, ev', hw, hev, rfl, ?_⟩))⟩
      · rw [Closed.of_bankWork hw, commandBytes_cut hev, List.count_append, hc1]; exact h1
      · intro hk; rw [Closed.of_bankWork hw, commandBytes_cut hev, List.count_append, hc1, h2 hk]; rfl
      · intro st f d rest hk he hs
        rw [Closed.of_bankWork hw, commandBytes_cut hev, List.count_append, hc1, h3 st f d rest _ hk he hs]
      · rw [ha.untouched.currentBank, hg.belief]

/-- A read-modify-write that failed (R72): at its first register access, or after it, the write of
`f` of the byte read cut short. -/
theorem modifyRegister_failed {la : Byte} {f : Byte → Byte} {e : Err} {s s' : State} (hc : registerCheck la 1 = none)
    (h : (modifyRegister la f).run s = .error e s') :
    ∃ ev, Issued ev s s' ∧
      (FailedAt s.currentBank (bankOf la) (commandEncoder .readRegister la).byte [] 1 .d2h ev s'.currentBank ∨
        (s'.currentBank = .known (bankOf la) ∧ ∃ bw st fl d ev', BankWork s.currentBank (bankOf la) bw ∧
          ev = bw ++ frameEvents (commandEncoder .readRegister la).byte st [fl] [d] ++ ev' ∧
          CutEvents (commandEncoder .writeRegister la).byte [f d] 1 .h2d ev')) := by
  have hd := (definedAddr_iff la).1 (definedAddr_of_check hc)
  unfold modifyRegister at h
  obtain h₁ | ⟨r₁, s₁, h₁, h⟩ := Op.bind_error.1 h
  · rw [rreg_eq hc] at h₁
    obtain ⟨ev, hi, -, -, -, hf⟩ := issue_register (.inl rfl) hd (.inr ⟨e, h₁⟩)
    exact ⟨ev, hi, .inl (hf ⟨e, h₁⟩)⟩
  rw [rreg_eq hc] at h₁
  obtain ⟨o₁, i₁, bw, hd₁, hl₁, hr₁⟩ := issue_ok h₁
  obtain ⟨fl, rfl⟩ := List.length_eq_one_iff.1 hl₁
  obtain ⟨d, rfl⟩ := List.length_eq_one_iff.1 hd₁.len
  obtain h₂ | ⟨r₂, s₂, h₂, h⟩ := Op.bind_error.1 h
  · rw [wreg_eq (by simpa using hc)] at h₂
    obtain ⟨ev, hi, -, -, -, hf⟩ := issue_register (.inr rfl) hd (.inr ⟨e, h₂⟩)
    have hb : s₁.currentBank = .known (bankOf la) := hd₁.belief
    have hf := hf ⟨e, h₂⟩
    rw [hb] at hf
    obtain ⟨hcut, hb'⟩ := hf.from_known
    rw [hr₁] at hcut
    exact ⟨_, hd₁.issued.trans hi, .inr ⟨hb', bw, r₁.1, fl, d, ev, hd₁.work, by simp, hcut⟩⟩
  · cases h

end Sys2Proof.Machine
end

