-- ==== Sys2Proof/Laws/PerInstr.lean ====
section
/-! SUPPORT. Laws of every request, one lemma per constructor. -/

namespace Sys2Proof.Laws.EncodeBound

/-- The byte record of a well-formed request is not empty and no longer than the longest. -/
def Statement (i : Instr) : Prop := WellFormed i = true → 0 < (encode i).length ∧ (encode i).length ≤ maxRecord

theorem readRegister (la : Byte) (n : Nat) : Statement (.readRegister la n) := by
  intro; simp [encode, addressBytes, maxRecord]

theorem writeRegister (la : Byte) (v : List Byte) : Statement (.writeRegister la v) := by
  intro h; simp [WellFormed] at h; simp [encode, addressBytes, payloadBytes, maxRecord]; omega

theorem readRxPayload (n : Nat) : Statement (.readRxPayload n) := by
  intro; simp [encode, maxRecord]

theorem writeTxPayload (v : List Byte) : Statement (.writeTxPayload v) := by
  intro h; simp [WellFormed] at h; simp [encode, payloadBytes, maxRecord]; omega

theorem writeTxPayloadNoAck (v : List Byte) : Statement (.writeTxPayloadNoAck v) := by
  intro h; simp [WellFormed] at h; simp [encode, payloadBytes, maxRecord]; omega

theorem writeAckPayload (p : Nat) (v : List Byte) : Statement (.writeAckPayload p v) := by
  intro h; simp [WellFormed] at h; simp [encode, payloadBytes, maxRecord]; omega

theorem flushTx : Statement .flushTx := by intro; simp [encode, maxRecord]

theorem flushRx : Statement .flushRx := by intro; simp [encode, maxRecord]

theorem reuseTxPayload : Statement .reuseTxPayload := by intro; simp [encode, maxRecord]

theorem activate (b : Byte) : Statement (.activate b) := by intro; simp [encode, maxRecord]

theorem readRxPayloadWidth : Statement .readRxPayloadWidth := by intro; simp [encode, maxRecord]

theorem nop : Statement .nop := by intro; simp [encode, maxRecord]

theorem modePD : Statement .modePD := by intro; simp [encode, maxRecord]

theorem modeSB : Statement .modeSB := by intro; simp [encode, maxRecord]

theorem modeRX : Statement .modeRX := by intro; simp [encode, maxRecord]

theorem modeTX : Statement .modeTX := by intro; simp [encode, maxRecord]

theorem setPwr (level : Nat) : Statement (.setPwr level) := by intro; simp [encode, maxRecord]

theorem init : Statement .init := by intro; simp [encode, maxRecord]

theorem reset : Statement .reset := by intro; simp [encode, maxRecord]

end Sys2Proof.Laws.EncodeBound
end

