-- ==== Sys2Proof/Laws/Registers.lean ====
section
/-! SUPPORT. The register requests against the reference emulation (spec/20_memory.md R47 to R50): for each shared
operation over a register, one lemma that says what it answers and what it leaves of the device. -/

namespace Sys2Proof.Machine

/-! ### The device -/

theorem Device.noFrame_eta {d : Device} (h : d.frame = []) : ({ d with frame := [] } : Device) = d := by
  cases d; simp only at h; subst h; rfl

@[simp] theorem Device.writeRegister_frame (d : Device) (a : BitVec 5) (data : List Byte) :
    (d.writeRegister a data).frame = d.frame := by
  unfold Device.writeRegister; dsimp only; split
  · split <;> rfl
  · rfl

@[simp] theorem Device.writeRegister_bank (d : Device) (a : BitVec 5) (data : List Byte) :
    (d.writeRegister a data).bank = d.bank := by
  unfold Device.writeRegister; dsimp only; split
  · split <;> rfl
  · rfl

theorem regNumber_seven (la : Byte) : regNumber la = 7 ↔ la &&& 0x1F = 7 := by
  have : ∀ la : Byte, regNumber la = 7 ↔ la &&& 0x1F = 7 := by decide +kernel
  exact this la

/-- A byte read from a register of the selected bank (R43, R49). -/
theorem Device.registerByte_register {d : Device} {la : Byte} (hd : RegisterAddr la) (hbk : d.bank = bankOf la) {i : Nat}
    (hi : i < regWidth la) :
    d.registerByte (regNumber la) i =
      if la &&& 0x1F = 7 ∧ i = 0 then d.statusView else d.cell (cellAddr la i) := by
  have hdef := (definedAddr_iff la).2 hd
  unfold Device.registerByte
  rw [hbk, logicalAddr_of_defined hdef]
  simp only [hdef, hi]
  by_cases h : la &&& 0x1F = 7 ∧ i = 0
  · rw [if_pos h, if_pos (by simp [(regNumber_seven la).2 h.1, h.2])]
  · rw [if_neg h, if_neg (by
      intro hx
      simp only [Bool.and_eq_true, decide_eq_true_eq] at hx
      exact h ⟨(regNumber_seven la).1 hx.1, hx.2⟩)]
    simp

/-- A write to a register of the selected bank that is not STATUS (R49). -/
theorem Device.writeRegister_register {d : Device} {la : Byte} (hd : RegisterAddr la) (hbk : d.bank = bankOf la)
    (h7 : la ≠ 0x07) {v : List Byte} (hv : v.length ≤ regWidth la) :
    d.writeRegister (regNumber la) v = { d with regs := Memory.writeBytes d.regs (cellAddr la 0) v } := by
  unfold Device.writeRegister
  rw [hbk, logicalAddr_of_defined ((definedAddr_iff la).2 hd)]
  simp only
  rw [if_neg (show ¬ la = statusAddr from h7), List.take_of_length_le hv, ← hbk]

/-! ### The block beside it -/

/-- Everything a read of a register does (R49). -/
theorem rreg_bench {s : State} (hb : OnBench s) {la : Byte} {n : Nat} (hc : registerCheck la n = none) :
    ∃ s', (rreg la n).run s =
        .ok (({ s.dev with bank := guardedBank s (bankOf la) } : Device).statusView,
          (List.range n).map fun i =>
            ({ s.dev with bank := guardedBank s (bankOf la) } : Device).registerByte (regNumber la) i) s' ∧
      OnBench s' ∧ s'.currentBank = .known (bankOf la) ∧ s'.ce = s.ce ∧ s'.modeTrack = s.modeTrack ∧
      s'.dev = { s.dev with bank := guardedBank s (bankOf la) } := by
  have h1 := issue_bench hb .readRegister la [] n
  rw [encoder_read] at h1
  set g := benchGuard s (some (bankOf la)) with hg
  have hgd : g.dev = { s.dev with bank := guardedBank s (bankOf la) } := by rw [hg, benchGuard_dev hb]
  refine ⟨benchState g (commandEncoder .readRegister la).byte [] n (commandEncoder .readRegister la).dir, ?_,
    benchState_onBench (hb.guard _) _ _ _ _, benchGuard_belief s (bankOf la), (benchGuard_fields s _).1,
    (benchGuard_fields s _).2.1, ?_⟩
  · rw [rreg_eq hc, h1, hgd]
    have : benchData ({ s.dev with bank := guardedBank s (bankOf la) } : Device) (commandEncoder .readRegister la).byte n
        (commandEncoder .readRegister la).dir = (List.range n).map fun i =>
            ({ s.dev with bank := guardedBank s (bankOf la) } : Device).registerByte (regNumber la) i := by
      show benchData _ _ n .d2h = _
      unfold benchData answers
      simp only [List.range_eq_range']
      exact List.map_congr_left fun i _ => dataByte_read _ la i
    rw [this]
  · rw [benchState_dev, perform_read, hgd]
    exact Device.noFrame_eta hb.frame

/-- Everything a write of a register does (R49, R50). -/
theorem wreg_bench {s : State} (hb : OnBench s) {la : Byte} {v : List Byte} (hc : registerCheck la v.length = none) :
    ∃ st s', (wreg la v).run s = .ok (st, []) s' ∧ OnBench s' ∧ s'.currentBank = .known (bankOf la) ∧ s'.ce = s.ce ∧
      s'.modeTrack = s.modeTrack ∧
      s'.dev = ({ s.dev with bank := guardedBank s (bankOf la) } : Device).writeRegister (regNumber la) v := by
  have h1 := issue_bench hb .writeRegister la v v.length
  rw [encoder_write] at h1
  set g := benchGuard s (some (bankOf la)) with hg
  have hgd : g.dev = { s.dev with bank := guardedBank s (bankOf la) } := by rw [hg, benchGuard_dev hb]
  refine ⟨g.dev.statusView, benchState g (commandEncoder .writeRegister la).byte v v.length
    (commandEncoder .writeRegister la).dir, (wreg_eq hc s).trans h1,
    benchState_onBench (hb.guard _) _ _ _ _, benchGuard_belief s (bankOf la), (benchGuard_fields s _).1,
    (benchGuard_fields s _).2.1, ?_⟩
  rw [benchState_dev, perform_write, hgd]
  refine Device.noFrame_eta ?_
  rw [Device.writeRegister_frame]
  exact hb.frame

/-- Everything a read-modify-write of a one-byte register does, from a right belief. -/
theorem modifyRegister_bench {s : State} (hb : OnBench s) (ha : Agrees s) {la : Byte} (hc : registerCheck la 1 = none)
    (f : Byte → Byte) :
    ∃ st s', (modifyRegister la f).run s = .ok st s' ∧ OnBench s' ∧ Agrees s' ∧ s'.ce = s.ce ∧
      s'.modeTrack = s.modeTrack ∧
      s'.dev = ({ s.dev with bank := bankOf la } : Device).writeRegister (regNumber la)
        [f (({ s.dev with bank := bankOf la } : Device).registerByte (regNumber la) 0)] := by
  obtain ⟨s₁, h1, hb₁, hk₁, hce₁, hm₁, hd₁⟩ := rreg_bench hb hc
  rw [guardedBank_of_agrees ha] at h1 hd₁
  have ha₁ : Agrees s₁ := by intro b hk; rw [hk₁] at hk; cases hk; rw [hd₁]
  obtain ⟨st, s₂, h2, hb₂, hk₂, hce₂, hm₂, hd₂⟩ := wreg_bench hb₁ (la := la)
    (v := [f (({ s.dev with bank := bankOf la } : Device).registerByte (regNumber la) 0)]) hc
  rw [guardedBank_of_agrees ha₁, hd₁] at hd₂
  refine ⟨st, s₂, ?_, hb₂, ?_, hce₂.trans hce₁, hm₂.trans hm₁, hd₂⟩
  · unfold modifyRegister
    rw [Op.bind_of_ok h1]
    simp only []
    exact Op.bind_of_ok h2
  · intro b hk
    rw [hk₂] at hk; cases hk
    rw [hd₂, Device.writeRegister_bank]

/-- What CONFIG's and RF_SETUP's read-modify-writes store. -/
theorem modify_device {d : Device} {la : Byte} (hc : registerCheck la 1 = none) (h7 : la &&& 0x1F ≠ 7)
    (f : Byte → Byte) :
    ({ d with bank := bankOf la } : Device).writeRegister (regNumber la)
        [f (({ d with bank := bankOf la } : Device).registerByte (regNumber la) 0)] =
      { d with bank := bankOf la, regs := Memory.write d.regs (cellAddr la 0) (f (d.cell (cellAddr la 0))) } := by
  have hr := registerCheck_none hc
  have hw : 1 ≤ regWidth la := by
    by_contra h
    unfold registerCheck at hc
    split at hc
    · cases hc
    · rw [if_neg (by decide), if_pos (by omega)] at hc; cases hc
  rw [Device.registerByte_register hr rfl hw, if_neg (fun h => h7 h.1),
    Device.writeRegister_register hr rfl (by rintro rfl; exact h7 rfl) (by simpa using hw)]
  rfl

/-- What RX's read-modify-write of STATUS stores (spec/43_mode_controller.md R100, R25). -/
theorem modify_status (d : Device) :
    ({ d with bank := bankOf statusAddr } : Device).writeRegister (regNumber statusAddr)
        [({ d with bank := bankOf statusAddr } : Device).registerByte (regNumber statusAddr) 0] =
      { d with
        bank := .b0
        regs := Memory.write d.regs (cellAddr 0x07 0)
          (clearLatched (d.cell (cellAddr 0x07 0)) (statusSeen (d.cell (cellAddr 0x07 0)) .b0)) } := rfl

end Sys2Proof.Machine
end

