-- ==== Sys2Proof/Tests/Slice0.lean ====
section
/-! SUPPORT. Tests. The expected values are those of spec/95_test_vectors.md (its S and T numbers are cited) or of the
tables of spec/30_encoding.md, and the names begin `test_`; the theorems that begin `witness_` show that the hypotheses
of a statement of Certificates/Slice0/Obligations.lean can be met. -/

namespace Sys2Proof.Tests

open Sys2Proof Sys2Proof.Machine

/-! ### Helpers -/

/-- An emulated device with empty FIFOs, the given bank and the given bytes. -/
def device (bank : Bank) (regs : Memory) : Device :=
  { bank := bank, regs := regs, tx := [], rx := [], ack := Vector.replicate 6 [], frame := [] }

/-- The block just after reset, but with the given belief, beside the given device and nothing else. -/
def bench (b : BankBelief) (d : Device) : State := { State.reset with currentBank := b, dev := d, world := [] }

/-- The start of S1: bank 0, STATUS 0x0E, CONFIG 0x08, both believed and real. -/
def start : State := bench (.known .b0) (device .b0 [(0x000, 0x08), (0x070, 0x0E)])

/-- The same with the bank not known to the block. -/
def fresh : State := bench .unknown (device .b0 [(0x000, 0x08), (0x070, 0x0E)])

/-- The device in bank 1, as in S3. -/
def start1 (b : BankBelief) : State :=
  bench b (device .b1 [(0x070, 0x0E), (0x800, 0x11), (0x801, 0x22), (0x802, 0x33), (0x803, 0x44)])

/-- The start of T42: one payload in the RX FIFO. -/
def received : State := bench (.known .b0) { device .b0 [(0x070, 0x0E)] with rx := [[0x01, 0x02, 0x03]] }

/-- The same state with the answers to the exchanges of the next transactions as given. -/
def withWires (s : State) (ws : List (List Wire)) : State := { s with world := ws.map fun w => ⟨w, none⟩ }

/-- The same state with the given set `F` of exchanges that fault in this session (R53). -/
def withFaults (s : State) (F : List Nat) : State := { s with faultSet := F }

/-- The state a request leaves. -/
def after (i : Instr) (s : State) : State :=
  match exec i s with
  | .next t => t
  | _ => s

/-- The state an operation leaves, completed or failed. -/
def runState {α : Type} (x : Op α) (s : State) : State :=
  match x.run s with
  | .ok _ t => t
  | .error _ t => t

/-! ### WellFormed refuses an ill-formed term of each check -/

theorem test_illFormed_readRegister : WellFormed (.readRegister 0x00 256) = false := by decide

theorem test_illFormed_writeRegister : WellFormed (.writeRegister 0x00 (List.replicate 256 0)) = false := by
  decide +kernel

theorem test_illFormed_readRxPayload : WellFormed (.readRxPayload 256) = false := by decide

theorem test_illFormed_writeTxPayload : WellFormed (.writeTxPayload (List.replicate 256 0)) = false := by
  decide +kernel

theorem test_illFormed_writeTxPayloadNoAck :
    WellFormed (.writeTxPayloadNoAck (List.replicate 256 0)) = false := by decide +kernel

theorem test_illFormed_writeAckPayload_pipe : WellFormed (.writeAckPayload 8 [0x01]) = false := by decide

theorem test_illFormed_writeAckPayload_length :
    WellFormed (.writeAckPayload 7 (List.replicate 256 0)) = false := by decide +kernel

theorem test_illFormed_setPwr : WellFormed (.setPwr 256) = false := by decide

/-! ### Decoding: command bytes written out from R58, one for every constructor

The bytes after the command byte, and the codes of the composite requests, are the model's record
(notes/assumptions/1.md). -/

/-- 000AAAAA, register 0x0A. -/
theorem test_decode_readRegister : decode [0b00001010, 0x00, 0x04] = .ok (.readRegister 0x0A 5, []) := by decide

/-- 001AAAAA, register 0x0E of bank 1 (T21b). -/
theorem test_decode_writeRegister :
    decode [0b00101110, 0x80, 0x01, 0x41, 0x42] = .ok (.writeRegister 0x8E [0x41, 0x42], []) := by decide

theorem test_decode_readRxPayload : decode [0b01100001, 0x1F] = .ok (.readRxPayload 32, []) := by decide

theorem test_decode_writeTxPayload :
    decode [0b10100000, 0x01, 0xAA, 0x55] = .ok (.writeTxPayload [0xAA, 0x55], []) := by decide

theorem test_decode_writeTxPayloadNoAck :
    decode [0b10110000, 0x00, 0x01, 0x99] = .ok (.writeTxPayloadNoAck [0x01], [0x99]) := by decide

/-- 10101PPP, pipe 5 (T48a). -/
theorem test_decode_writeAckPayload :
    decode [0b10101101, 0x01, 0x01, 0x02] = .ok (.writeAckPayload 5 [0x01, 0x02], []) := by decide

theorem test_decode_flushTx : decode [0b11100001] = .ok (.flushTx, []) := by decide

theorem test_decode_flushRx : decode [0b11100010] = .ok (.flushRx, []) := by decide

theorem test_decode_reuseTxPayload : decode [0b11100011] = .ok (.reuseTxPayload, []) := by decide

theorem test_decode_activate : decode [0b01010000, 0x73] = .ok (.activate 0x73, []) := by decide

theorem test_decode_readRxPayloadWidth : decode [0b01100000] = .ok (.readRxPayloadWidth, []) := by decide

theorem test_decode_nop : decode [0b11111111] = .ok (.nop, []) := by decide

theorem test_decode_composites :
    decode [0x40] = .ok (.modePD, []) ∧ decode [0x41] = .ok (.modeSB, []) ∧ decode [0x42] = .ok (.modeRX, []) ∧
    decode [0x43] = .ok (.modeTX, []) ∧ decode [0x44, 0x03] = .ok (.setPwr 3, []) ∧ decode [0x45] = .ok (.init, []) ∧
    decode [0x46] = .ok (.reset, []) := by decide

/-- Bytes that match no row of R58 (R62), and records that are cut short or set a bit fixed at zero. -/
theorem test_decode_rejects :
    decode [] = .error .empty ∧ decode [0x51] = .error (.unknownCode 0x51) ∧
    decode [0xE0] = .error (.unknownCode 0xE0) ∧ decode [0x80, 0x00] = .error (.unknownCode 0x80) ∧
    decode [0x20] = .error .truncated ∧ decode [0xA0, 0x01, 0xAA] = .error .truncated ∧
    decode [0x44] = .error .truncated ∧ decode [0x50] = .error .truncated ∧
    decode [0x07, 0x07, 0x00] = .error (.reservedBits 0x07) := by decide

/-- T21f, T21g: a byte matches its own row only. -/
theorem test_match_one_row :
    (Opcode.all.filter fun o => o.matchesByte 0x24) = [.writeRegister] ∧
    (Opcode.all.filter fun o => o.matchesByte 0xAD) = [.writeAckPayload] ∧
    (Opcode.all.filter fun o => o.matchesByte 0xA0) = [.writeTxPayload] := by decide

/-- T19, T21, T21a, T21c. -/
theorem test_commandEncoder :
    commandEncoder .readRegister 0x07 = ⟨0x07, .d2h, some .b0⟩ ∧
    commandEncoder .readRegister 0x80 = ⟨0x00, .d2h, some .b1⟩ ∧
    commandEncoder .writeRegister 0x1D = ⟨0x3D, .h2d, some .b0⟩ ∧
    commandEncoder .readRegister 0x87 = ⟨0x07, .d2h, some .b1⟩ := by decide

/-- T22 to T27. -/
theorem test_serialise :
    serialise 0x84 0xD99E860B 4 = [0xD9, 0x9E, 0x86, 0x0B] ∧ serialise 0x8C 0xD99E860B 4 = [0x0B, 0x86, 0x9E, 0xD9] ∧
    serialise 0x87 0x01020304 4 = [0x01, 0x02, 0x03, 0x04] ∧ serialise 0x88 0x01020304 4 = [0x04, 0x03, 0x02, 0x01] ∧
    serialise 0x10 0x0102030405 5 = [0x05, 0x04, 0x03, 0x02, 0x01] ∧
    serialise 0x8E 0x0A09080706050403020100 11 = [0, 1, 2, 3, 4, 5, 6, 7, 8, 9, 0x0A] := by decide

/-! ### The commands against the emulation -/

/-- T29 and T34: the byte read, and the trace. -/
theorem test_readRegister_trace :
    (after (.readRegister 0x00 1) start).trace =
      [.csa, .x 0x00 0x0E, .x (Config.filler 0) 0x08, .csd, .dly 20] := rfl

/-- S3: one resolution read and no toggle. -/
theorem test_readRegister_resolves :
    (after (.readRegister 0x80 1) (start1 .unknown)).results = [.ok (some 0x8E) [0x11]] ∧
    commandBytes (after (.readRegister 0x80 1) (start1 .unknown)).trace = [0x07, 0x00] := by decide

/-- S1. -/
theorem test_writeRegister_config :
    (after (.writeRegister 0x00 [0x0B]) start).trace = [.csa, .x 0x20 0x0E, .x 0x0B 0x00, .csd, .dly 20] ∧
    (after (.writeRegister 0x00 [0x0B]) start).dev.regs = [(0x000, 0x0B), (0x070, 0x0E)] := by decide

/-- S2: the toggle, then the write, in bank 1. -/
theorem test_writeRegister_toggles :
    (after (.writeRegister 0x84 [0xD9, 0x9E, 0x86, 0x0B]) start).trace =
      [.csa, .x 0x50 0x0E, .x 0x53 0x00, .csd, .dly 20,
        .csa, .x 0x24 0x8E, .x 0xD9 0x00, .x 0x9E 0x00, .x 0x86 0x00, .x 0x0B 0x00, .csd, .dly 20] ∧
    (after (.writeRegister 0x84 [0xD9, 0x9E, 0x86, 0x0B]) start).results = [.ok (some 0x8E) []] := by decide

/-- T43. -/
theorem test_readRxPayload :
    (after (.readRxPayload 3) received).results = [.ok (some 0x0E) [0x01, 0x02, 0x03]] ∧
    (after (.readRxPayload 3) received).dev.rx = [] := by decide

/-- T45: an empty FIFO gives zeros. -/
theorem test_readRxPayload_empty :
    (after (.readRxPayload 2) start).results = [.ok (some 0x0E) [0x00, 0x00]] := by decide

/-- T42, T44. -/
theorem test_readRxPayloadWidth :
    (after .readRxPayloadWidth received).results = [.ok (some 0x0E) [0x03]] ∧
    (after .readRxPayloadWidth received).dev.rx = [[0x01, 0x02, 0x03]] ∧
    (after .readRxPayloadWidth start).results = [.ok (some 0x0E) [0x00]] := by decide

/-- T46, with no bank work from an unknown belief. -/
theorem test_writeTxPayload :
    (after (.writeTxPayload [0xAA, 0x55]) fresh).trace =
      [.csa, .x 0xA0 0x0E, .x 0xAA 0x00, .x 0x55 0x00, .csd, .dly 20] ∧
    (after (.writeTxPayload [0xAA, 0x55]) fresh).dev.tx = [[0xAA, 0x55]] ∧
    (after (.writeTxPayload [0xAA, 0x55]) fresh).currentBank = .unknown := by decide

/-- T47. -/
theorem test_writeTxPayloadNoAck :
    (after (.writeTxPayloadNoAck [0x01]) start).trace = [.csa, .x 0xB0 0x0E, .x 0x01 0x00, .csd, .dly 20] ∧
    (after (.writeTxPayloadNoAck [0x01]) start).dev.tx = [[0x01]] := by decide

/-- T48. -/
theorem test_writeAckPayload :
    (after (.writeAckPayload 2 [0x10]) start).trace = [.csa, .x 0xAA 0x0E, .x 0x10 0x00, .csd, .dly 20] ∧
    (after (.writeAckPayload 2 [0x10]) start).dev.ack.toList = [[], [], [0x10], [], [], []] := by decide

/-- T53r: the pipe is checked before the length. -/
theorem test_writeAckPayload_priority :
    (after (.writeAckPayload 7 (List.replicate 33 0)) start).results = [.err .invalidOperand] := by decide

/-- T48b. -/
theorem test_flushTx :
    (after .flushTx { start with dev := { start.dev with tx := [[0x01], [0x02]] } }).dev.tx = [] ∧
    (after .flushTx start).trace = [.csa, .x 0xE1 0x0E, .csd, .dly 20] := by decide

/-- T48d. -/
theorem test_flushRx :
    (after .flushRx received).dev.rx = [] ∧ (after .flushRx start).trace = [.csa, .x 0xE2 0x0E, .csd, .dly 20] := by
  decide

/-- T48c. -/
theorem test_reuseTxPayload :
    (after .reuseTxPayload received).dev = received.dev ∧
    (after .reuseTxPayload start).trace = [.csa, .x 0xE3 0x0E, .csd, .dly 20] := by decide

/-- T75: the raw toggle. -/
theorem test_activate_toggle :
    (after (.activate 0x53) start).dev.bank = .b1 ∧ (after (.activate 0x53) start).currentBank = .known .b0 ∧
    (after (.activate 0x53) start).results = [.ok (some 0x0E) []] := by decide

/-- T48e. -/
theorem test_activate_other :
    (after (.activate 0x73) start).dev = start.dev ∧
    (after (.activate 0x73) start).trace = [.csa, .x 0x50 0x0E, .x 0x73 0x00, .csd, .dly 20] := by decide

/-- The example of R95: bank 1, STATUS 0x40. -/
theorem test_nop :
    (after .nop (bench .unknown (device .b1 [(0x070, 0x40)]))).trace = [.csa, .x 0xFF 0xC0, .csd, .dly 20] ∧
    (after .nop (bench .unknown (device .b1 [(0x070, 0x40)]))).results = [.ok (some 0xC0) []] := by decide

/-- T53a to T53j: errors before any bus access. -/
theorem test_register_errors :
    (after (.readRegister 0x1E 1) fresh).results = [.err .invalidOperand] ∧
    (after (.readRegister 0x7F 1) fresh).results = [.err .invalidOperand] ∧
    (after (.readRegister 0x8F 1) fresh).results = [.err .invalidOperand] ∧
    (after (.writeRegister 0x1F []) fresh).results = [.err .invalidOperand] ∧
    (after (.readRegister 0x00 2) fresh).results = [.err .payloadTooLarge] ∧
    (after (.readRegister 0x8E 12) fresh).results = [.err .payloadTooLarge] := by decide

/-! ### Transport failures -/

/-- T51, `F = {2}`: the toggle fails after a resolution. -/
theorem test_fault_in_toggle :
    (after (.readRegister 0x00 1) (withFaults (start1 .unknown) [2])).trace =
      [.csa, .x 0x07 0x8E, .x (Config.filler 0) 0x8E, .csd, .dly 20, .csa, .xf 0x50, .csd, .dly 20] ∧
    (after (.readRegister 0x00 1) (withFaults (start1 .unknown) [2])).currentBank = .known .b1 := ⟨rfl, rfl⟩

/-- T31, `F = {1}`: CONFIG stays, and the delay is made on the failure path too. -/
theorem test_fault_in_write :
    (after (.writeRegister 0x00 [0x0B]) (withFaults start [1])).trace =
      [.csa, .x 0x20 0x0E, .xf 0x0B, .csd, .dly 20] ∧
    (after (.writeRegister 0x00 [0x0B]) (withFaults start [1])).dev = start.dev := by decide

/-- T53, `F = {4}`: RX fails at its third transaction. -/
theorem test_fault_in_rx :
    let s := withFaults (bench (.known .b0) (device .b0 [(0x000, 0x0A), (0x070, 0x70)])) [4]
    (after .modeRX s).results = [.err .transportFailure] ∧ (after .modeRX s).ce = .low ∧
    (after .modeRX s).modeTrack = none ∧ (after .modeRX s).dev.regs = [(0x000, 0x0A), (0x070, 0x00)] := by decide

/-- T52, T52a, `F = {3}`: the count of exchanges goes on over requests, and a passed ordinal faults no more. -/
theorem test_fault_ordinals :
    let t := after (.readRegister 0x00 1) (withFaults (start1 .unknown) [3])
    t.results = [.err .transportFailure] ∧ t.exchanges = 4 ∧ t.dev.bank = .b1 ∧
    commandBytes (after (.readRegister 0x00 1) t).trace = [0x07, 0x50, 0x50, 0x00] ∧
    (after (.readRegister 0x00 1) t).exchanges = 8 := by decide

/-- P4, steps 1 and 5: the reset constructs the session whose `F` is `{2}`. -/
theorem test_session_faults :
    let t := after .reset { start1 .unknown with sessionFaults := [[2]] }
    (after (.readRegister 0x00 1) t).results = t.results ++ [.err .transportFailure] ∧
    (after (.readRegister 0x00 1) t).currentBank = .known .b1 := by decide

/-- P4, steps 7 and 8: the next reset constructs a session whose `F` is empty. -/
theorem test_session_without_faults :
    let t := after .reset (withFaults (bench (.known .b0) (device .b0 [(0x000, 0x08), (0x070, 0x0E), (0x800, 0x00)])) [2])
    (after (.readRegister 0x80 1) t).results = t.results ++ [.ok (some 0x8E) [0x00]] ∧
    commandBytes (after (.readRegister 0x80 1) t).trace = [0x07, 0x50, 0x00] := by decide

/-- Both clauses on `F`: no session given, and one given. -/
theorem witness_ResetValues :
    start.sessionFaults = [] ∧ { start with sessionFaults := [[2], [0, 5]] }.sessionFaults = [2] :: [[0, 5]] := by decide

/-! ### The modes -/

/-- T56. -/
theorem test_modePD :
    let s := bench (.known .b0) (device .b0 [(0x000, 0x0B), (0x070, 0x0E)])
    (after .modePD s).dev.regs = [(0x000, 0x09), (0x070, 0x0E)] ∧ (after .modePD s).ce = .low ∧
    (after .modePD s).modeTrack = some .powerDown ∧ commandBytes (after .modePD s).trace = [0x00, 0x20] := by decide

/-- T64: the toggle comes after the drive of chip-enable. -/
theorem test_modeSB :
    let s := bench (.known .b1) (device .b1 [(0x000, 0x08), (0x070, 0x0E)])
    (after .modeSB s).dev.regs = [(0x000, 0x0A), (0x070, 0x0E)] ∧ (after .modeSB s).trace.head? = some (.ce .low) ∧
    commandBytes (after .modeSB s).trace = [0x50, 0x00, 0x20] ∧ (after .modeSB s).currentBank = .known .b0 := by decide

/-- S7. -/
theorem test_modeRX :
    let s := bench (.known .b0) (device .b0 [(0x000, 0x0A), (0x070, 0x70)])
    (after .modeRX s).trace =
      [.csa, .x 0x07 0x70, .x (Config.filler 0) 0x70, .csd, .dly 20,
        .csa, .x 0x27 0x70, .x 0x70 0x00, .csd, .dly 20, .ce .low,
        .csa, .x 0x00 0x00, .x (Config.filler 1) 0x0A, .csd, .dly 20,
        .csa, .x 0x20 0x00, .x 0x0B 0x00, .csd, .dly 20, .ce .high] := rfl

/-- T60: the flags written back are cleared, the rest of STATUS stays. -/
theorem test_modeRX_latches :
    let s := bench (.known .b0) (device .b0 [(0x000, 0x08), (0x070, 0x4E)])
    (after .modeRX s).dev.regs = [(0x000, 0x0B), (0x070, 0x0E)] ∧ (after .modeRX s).ce = .high ∧
    (after .modeRX s).results = [.ok (some 0x0E) []] := by decide

/-- T62, T63. -/
theorem test_modeTX :
    let s := fun c : Byte => bench (.known .b0) (device .b0 [(0x000, c), (0x070, 0x0E)])
    (after .modeTX (s 0x09)).dev.regs = [(0x000, 0x00), (0x070, 0x0E)] ∧
    (after .modeTX (s 0x7F)).dev.regs = [(0x000, 0x02), (0x070, 0x0E)] ∧ (after .modeTX (s 0x7F)).ce = .high := by decide

/-! ### Power level, initialisation, reset -/

/-- T66, with the spec's illustrative threshold and fold. -/
theorem test_setPwr :
    let fold := fun (r : Byte) (l : Nat) => (r &&& 0xF9) ||| (BitVec.ofNat 8 (l &&& 3) <<< 1)
    let s := bench (.known .b0) (device .b0 [(0x060, 0x07), (0x070, 0x0E)])
    (runState (powerBody 4 fold 1) s).dev.regs = [(0x060, 0x03), (0x070, 0x0E)] ∧
    commandBytes (runState (powerBody 4 fold 1) s).trace = [0x06, 0x26] := by decide

/-- T69. -/
theorem test_setPwr_threshold :
    (powerBody 4 (fun r _ => r) 4).run start = .ok (none, []) start := rfl

/-- T70 and T71: bank work once, the byte order of R109. -/
theorem test_init_replay :
    (runState (replay [⟨0x0C, 0x00731200⟩] none) start).trace =
      [.csa, .x 0x50 0x0E, .x 0x53 0x00, .csd, .dly 20,
        .csa, .x 0x2C 0x8E, .x 0x00 0x00, .x 0x12 0x00, .x 0x73 0x00, .x 0x00 0x00, .csd, .dly 20] ∧
    commandBytes (runState (replay [⟨0x04, 0xD99E860B⟩, ⟨0x0C, 0xD99E860B⟩] none) (start1 (.known .b1))).trace =
      [0x24, 0x2C] := by decide

/-- The pulse of P1: the register 0x84, bits 7 and 6 of its high byte. -/
theorem test_init_pulse :
    (pulseEntries 0x04 0x00000005 6 0).map (fun e => (entryAddr e, entryBytes e)) =
      [(0x84, [0xC0, 0x00, 0x00, 0x05]), (0x84, [0x00, 0x00, 0x00, 0x05])] := by decide

/-- T74. -/
theorem test_reset :
    (after .reset (start1 (.known .b1))).currentBank = .unknown ∧
    (after .reset (start1 (.known .b1))).dev = (start1 (.known .b1)).dev ∧
    (after .reset (start1 (.known .b1))).trace = [] := by decide

/-- A word of the table runs as the first request after reset. -/
theorem test_first_request : ∃ t, step (State.reset.withFetchWord 8 0xFF) = .next t := ⟨_, rfl⟩

/-! ### Witnesses: states and operands that meet the hypotheses of the statements, each clause at its boundary -/

/-- A WriteRegister of the longest register, the ramp. -/
def ramp : List Byte := [0x41, 0x42, 0x43, 0x44, 0x45, 0x46, 0x47, 0x48, 0x49, 0x4A, 0x4B]

/-- A payload of the greatest length. -/
def longest : List Byte := List.replicate 32 0x5A

theorem noFault_start : NoFault start := by intro m h; cases h

theorem noFault_fresh : NoFault fresh := by intro m h; cases h

theorem onBench_start : OnBench start := ⟨rfl, rfl, rfl, rfl⟩

theorem agrees_start : Agrees start := by intro b h; cases h; rfl

theorem onBench_fresh : OnBench fresh := ⟨rfl, rfl, rfl, rfl⟩

theorem agrees_fresh : Agrees fresh := by intro b h; cases h

/-- Every request answers a next state. -/
theorem exec_after (i : Instr) (s : State) : exec i s = .next (after i s) := by
  unfold after; rw [exec_eq]

/-- A state whose first exchange will fault. -/
def broken : State := withFaults fresh [0]

theorem witness_DecodeReadsBackEncode :
    WellFormed (.readRegister 0xFF 255) = true ∧ WellFormed (.writeRegister 0xFF (List.replicate 255 0)) = true ∧
    WellFormed (.writeAckPayload 7 (List.replicate 255 0)) = true ∧ WellFormed (.setPwr 255) = true := by decide +kernel

theorem witness_EmittedByteMatchesOneRow :
    emittedByte 0x1D = true ∧ emittedByte 0x3D = true ∧ emittedByte 0xA8 = true ∧ emittedByte 0xAD = true := by decide

/-- Both clauses, at the last register of one byte order and the first of the other. -/
theorem witness_SerialiseByteOrder :
    0xFFFFFFFF < 256 ^ 4 ∧ (0x80 ≤ (0x87 : Byte).toNat ∧ (0x87 : Byte).toNat ≤ 0x87) ∧
    ¬ (0x80 ≤ (0x88 : Byte).toNat ∧ (0x88 : Byte).toNat ≤ 0x87) := by decide

theorem witness_RequestsEmitLegalFrames :
    exec (.readRegister 0x80 1) start = .next (after (.readRegister 0x80 1) start) ∧ LegalTrace start.trace ∧
    start.cs = .deasserted :=
  ⟨exec_after _ _, rfl, rfl⟩

/-- The sequencer at Busy(NOP, 0): each operation completing, and failing. -/
theorem witness_SequencerCountsActions :
    let s := fresh.accept .nop
    let f := broken.accept .nop
    s.phase = .busy .nop 0 ∧ f.phase = .busy .nop 0 ∧
    (∃ r t, (execute 0xE1 [] 0 .none).run s = .ok r t) ∧ (∃ e t, (execute 0xE1 [] 0 .none).run f = .error e t) ∧
    (∃ r t, (ensureBank .b1).run s = .ok r t) ∧ (∃ e t, (ensureBank .b1).run f = .error e t) ∧
    (∃ r t, (rreg 0x00 1).run s = .ok r t) ∧ (∃ e t, (rreg 0x00 1).run f = .error e t) ∧
    (∃ r t, (wreg 0x00 [0x0B]).run s = .ok r t) ∧ ∃ e t, (wreg 0x00 [0x0B]).run f = .error e t :=
  ⟨rfl, rfl, ⟨_, _, rfl⟩, ⟨_, _, rfl⟩, ⟨_, _, rfl⟩, ⟨_, _, rfl⟩, ⟨_, _, rfl⟩, ⟨_, _, rfl⟩, ⟨_, _, rfl⟩, ⟨_, _, rfl⟩⟩

theorem witness_ReadRegisterCompletes :
    RegisterAddr 0x1D ∧ 1 ≤ regWidth 0x1D ∧ RegisterAddr 0x80 ∧ 4 ≤ regWidth 0x80 ∧ RegisterAddr 0x8E ∧
    11 ≤ regWidth 0x8E ∧ NoFault fresh := ⟨by decide, by decide, by decide, by decide, by decide, by decide, noFault_fresh⟩

theorem witness_WriteRegisterCompletes :
    RegisterAddr 0x8E ∧ 1 ≤ ramp.length ∧ ramp.length ≤ regWidth 0x8E ∧ NoFault fresh :=
  ⟨by decide, by decide, by decide, noFault_fresh⟩

theorem witness_PayloadReadsComplete : 1 ≤ 32 ∧ 32 ≤ 32 ∧ NoFault fresh := ⟨by decide, by decide, noFault_fresh⟩

theorem witness_PayloadWritesComplete : 1 ≤ longest.length ∧ longest.length ≤ 32 ∧ 5 ≤ 5 ∧ NoFault fresh :=
  ⟨by decide, by decide, by decide, noFault_fresh⟩

theorem witness_BareCommandsComplete : NoFault fresh := noFault_fresh

/-- Every width of the table, a length above it by one, and the addresses beside the two ranges. -/
theorem witness_RegisterRequestsRefused :
    fresh.phase = .idle ∧ ¬ RegisterAddr 0x1E ∧ ¬ RegisterAddr 0x7F ∧ ¬ RegisterAddr 0x8F ∧ RegisterAddr 0x8E ∧
    RegisterAddr 0x0A ∧ RegisterAddr 0x1D ∧ RegisterAddr 0x8D ∧ regWidth 0x0A = 5 ∧ regWidth 0x1D = 1 ∧
    regWidth 0x8D = 4 ∧ 5 < 6 ∧ 1 < 2 ∧ 4 < 5 ∧ 11 < 12 ∧ 11 < (0x4C :: ramp).length := by decide

theorem witness_PayloadRequestsRefused :
    fresh.phase = .idle ∧ 5 < 6 ∧ 32 < 33 ∧ 32 < (0x5A :: longest).length ∧ 5 ≤ 5 := by decide

/-- A request with each operand error, one that completes, and one whose exchange faults. -/
theorem witness_ErrorsInOrder :
    broken.phase = .idle ∧ operandError (.writeAckPayload 7 (0x5A :: longest)) = some .invalidOperand ∧
    operandError (.writeTxPayload (0x5A :: longest)) = some .payloadTooLarge ∧ operandError .nop = none ∧
    (after .nop fresh).results = [.ok (some 0x0E) []] ∧ (after .nop broken).results = [.err .transportFailure] := by
  decide

theorem witness_TransportFailureExactlyOnFault :
    Instr.nop ≠ .reset ∧ exec .nop broken = .next (after .nop broken) ∧
    (after .nop broken).results = broken.results ++ [.err .transportFailure] ∧
    exec .nop fresh = .next (after .nop fresh) :=
  ⟨by decide, exec_after _ _, rfl, exec_after _ _⟩

/-- A request that issues a transaction, and one that issues none. -/
theorem witness_EveryRequestReturnsOneResult :
    Instr.nop ≠ .reset ∧ exec .nop fresh = .next (after .nop fresh) ∧
    (after .nop fresh).results = fresh.results ++ [.ok (some 0x0E) []] ∧
    exec (.setPwr Config.powerLevels) fresh = .next (fresh.putResult (.ok none [])) := by
  refine ⟨by decide, rfl, rfl, ?_⟩
  show request _ (powerBody _ _ _) _ = _
  unfold powerBody
  rw [if_pos (Nat.le_refl _)]
  rfl

theorem witness_TargetBankIsBitSeven :
    (0x1D : Byte).getLsbD 7 = false ∧ (0x8E : Byte).getLsbD 7 = true ∧ Opcode.nop ≠ .readRegister ∧
    Opcode.nop ≠ .writeRegister := by decide

/-- A known belief in the target bank, and a resolution that finds the device there. -/
theorem witness_AtMostOneToggle :
    exec (.readRegister 0x00 1) start = .next (after (.readRegister 0x00 1) start) ∧
    start.currentBank = .known (bankOf 0x00) ∧
    exec (.readRegister 0x00 1) fresh = .next (after (.readRegister 0x00 1) fresh) ∧ fresh.currentBank = .unknown ∧
    (after (.readRegister 0x00 1) fresh).trace = fresh.trace ++ (frameEvents 0x07 0x0E [Config.filler 0] [0x0E] ++
      frameEvents 0x00 0x0E [Config.filler 1] [0x08]) ∧ statusBank 0x0E = bankOf 0x00 :=
  ⟨exec_after _ _, rfl, exec_after _ _, rfl, rfl, rfl⟩

/-- The eight rows of the table of R70. -/
theorem witness_BankWorkTable :
    OnBench start ∧ OnBench fresh ∧ OnBench (start1 .unknown) ∧ OnBench (start1 (.known .b1)) ∧
    RegisterAddr 0x1D ∧ 1 ≤ regWidth 0x1D ∧ RegisterAddr 0x8E ∧ 11 ≤ regWidth 0x8E ∧
    start.currentBank = .known .b0 ∧ fresh.currentBank = .unknown ∧ fresh.dev.bank = .b0 ∧
    (start1 .unknown).dev.bank = .b1 :=
  ⟨⟨rfl, rfl, rfl, rfl⟩, ⟨rfl, rfl, rfl, rfl⟩, ⟨rfl, rfl, rfl, rfl⟩, ⟨rfl, rfl, rfl, rfl⟩, by decide, by decide, by decide, by decide, rfl, rfl,
    rfl, rfl⟩

/-- T49, T51 from a known belief, T51, and T31: the four disjuncts of the conclusion; and a payload cut at its third byte. -/
theorem witness_BeliefAfterFailure :
    (after (.readRegister 0x00 1) broken).results = [.err .transportFailure] ∧
    (after (.readRegister 0x80 1) (withFaults start [0])).results = [.err .transportFailure] ∧
    (after (.readRegister 0x00 1) (withFaults (start1 .unknown) [2])).results = [.err .transportFailure] ∧
    (after (.writeRegister 0x00 [0x0B]) (withFaults start [0])).results = [.err .transportFailure] ∧
    (after (.writeRegister 0x0A [0x11, 0x22, 0x33, 0x44, 0x55]) (withFaults start [3])).results = [.err .transportFailure] ∧
    (after (.writeRegister 0x0A [0x11, 0x22, 0x33, 0x44, 0x55]) (withFaults start [3])).trace =
      [.csa, .x 0x2A 0x0E] ++ List.zipWith Event.x [0x11, 0x22] [0x00, 0x00] ++ [.xf 0x33, .csd, .dly settleMs] ∧
    CutPayload [0x11, 0x22, 0x33, 0x44, 0x55] 5 .h2d [0x11, 0x22] 0x33 ∧
    (0x20 : Byte) = 0x20 ||| (0x00 &&& 0x1F) ∧ (0x2A : Byte) = 0x20 ||| (0x0A &&& 0x1F) :=
  ⟨by decide, by decide, by decide, by decide, by decide, by decide, ⟨[0x44, 0x55], rfl⟩, by decide, by decide⟩

/-- The outside answers the resolution read with a zero byte. -/
theorem witness_ResolutionTakesTheByte :
    let s := withWires fresh [[.byte 0x0E, .byte 0x00]]
    s.world = ⟨[.byte 0x0E, .byte 0x00], none⟩ :: [] ∧ s.exchanges ∉ s.faultSet ∧ s.exchanges + 1 ∉ s.faultSet := by
  decide

theorem witness_UnguardedRequestsKeepBelief :
    usesRegisters .flushTx = false ∧ Instr.flushTx ≠ .reset ∧ exec .flushTx start = .next (after .flushTx start) :=
  ⟨rfl, by decide, exec_after _ _⟩

theorem witness_BeliefStaysRight :
    OnBench start ∧ Agrees start ∧ Instr.activate 0x73 ≠ .activate 0x53 ∧
    exec (.activate 0x73) start = .next (after (.activate 0x73) start) :=
  ⟨onBench_start, agrees_start, by decide, exec_after _ _⟩

theorem witness_RegisterRequestReachesItsBank :
    OnBench start ∧ Agrees start ∧ operandError (.readRegister 0x8E 11) = none ∧
    exec (.readRegister 0x8E 11) start = .next (after (.readRegister 0x8E 11) start) :=
  ⟨onBench_start, agrees_start, by decide, exec_after _ _⟩

theorem witness_RawToggleDesynchronises :
    OnBench start ∧ start.currentBank = .known .b0 ∧ Agrees start ∧ (0x73 : Byte) ≠ 0x53 :=
  ⟨onBench_start, rfl, agrees_start, by decide⟩

theorem witness_DesynchronisedWriteMissesConfig :
    OnBench (start1 (.known .b0)) ∧ (start1 (.known .b0)).currentBank = .known .b0 ∧
    (start1 (.known .b0)).dev.bank = .b1 := ⟨⟨rfl, rfl, rfl, rfl⟩, rfl, rfl⟩

theorem witness_PowerDownCompletes : NoFault fresh := noFault_fresh

theorem witness_StandbyICompletes : NoFault fresh := noFault_fresh

theorem witness_RxCompletes : NoFault fresh := noFault_fresh

theorem witness_TxCompletes : NoFault fresh := noFault_fresh

/-- MODE PD and RX at their first exchange; MODE PD, SB and TX at their write, the belief then bank 0. -/
theorem witness_FailedTransitionStops :
    (after .modePD broken).results = broken.results ++ [.err .transportFailure] ∧
    (after .modeRX broken).results = broken.results ++ [.err .transportFailure] ∧
    (after .modePD (withFaults start [2])).results = start.results ++ [.err .transportFailure] ∧
    (after .modePD (withFaults start [2])).currentBank = .known .b0 ∧
    (after .modeSB (withFaults start [3])).trace.drop 6 = [.csa, .x 0x20 0x0E, .xf 0x0A, .csd, .dly settleMs] ∧
    (after .modeTX (withFaults start [3])).results = start.results ++ [.err .transportFailure] := by decide

/-- MODE RX after its STATUS read, which returns 0x0E: the write-back cut short, then the CONFIG read, then the CONFIG write. -/
theorem witness_FailedTransitionStops_rx :
    (after .modeRX (withFaults start [3])).trace.drop 5 = [.csa, .x 0x27 0x0E, .xf 0x0E, .csd, .dly settleMs] ∧
    (after .modeRX (withFaults start [4])).trace.drop 5 =
      frameEvents 0x27 0x0E [0x0E] [0x00] ++ [.ce .low] ++ [.csa, .xf 0x00, .csd, .dly settleMs] ∧
    (after .modeRX (withFaults start [7])).trace.drop 16 = [.csa, .x 0x20 0x0E, .xf 0x0B, .csd, .dly settleMs] ∧
    (after .modeRX (withFaults start [7])).results = start.results ++ [.err .transportFailure] ∧
    CutPayload [0x0B] 1 .h2d [] 0x0B := ⟨by decide, by decide, by decide, by decide, ⟨[], rfl⟩⟩

/-- SETPWR below the threshold, for a threshold of the witness's own: the threshold of this machine is open (R10). -/
theorem witness_FailedTransitionStops_setPwr :
    (powerBody 4 (fun r _ => r) 3).run broken = .error .transportFailure (runState (powerBody 4 (fun r _ => r) 3) broken) ∧
    (runState (powerBody 4 (fun r _ => r) 3) broken).currentBank = .unknown := ⟨rfl, rfl⟩

/-- A transition, and a request that is none. -/
theorem witness_OnlyTransitionsDriveChipEnable :
    Instr.modeTX ≠ .reset ∧ exec .modeTX start = .next (after .modeTX start) ∧ isTransition .nop = false ∧
    exec .nop start = .next (after .nop start) :=
  ⟨by decide, exec_after _ _, rfl, exec_after _ _⟩

theorem witness_ModeTable : OnBench start ∧ Agrees start := ⟨onBench_start, agrees_start⟩

theorem witness_PowerUpSequence : OnBench fresh ∧ Agrees fresh := ⟨onBench_fresh, agrees_fresh⟩

/-- RX, and a transition that is not RX. -/
theorem witness_OnlyRxClearsLatches :
    OnBench start ∧ Agrees start ∧ isTransition .modeRX = true ∧ exec .modeRX start = .next (after .modeRX start) ∧
    isTransition .modeTX = true ∧ exec .modeTX start = .next (after .modeTX start) :=
  ⟨onBench_start, agrees_start, rfl, exec_after _ _, rfl, exec_after _ _⟩

/-- The threshold itself. -/
theorem witness_PowerLevelAtThresholdDoesNothing : Config.powerLevels ≤ Config.powerLevels ∧ start.phase = .idle :=
  ⟨Nat.le_refl _, rfl⟩

/-- The clause below the threshold is met for some threshold in `witness_PowerLevelForEveryFold`: the threshold of this
machine is open (R10). -/
theorem witness_SetPowerLevelCompletes : NoFault start ∧ ¬ Config.powerLevels < Config.powerLevels :=
  ⟨noFault_start, Nat.lt_irrefl _⟩

theorem witness_PowerLevelForEveryFold : 3 < 4 ∧ NoFault start := ⟨by decide, noFault_start⟩

theorem witness_InitCompletes :
    NoFault fresh ∧ (⟨Config.pulseReg, Config.pulseValue ||| pulseMask Config.pulseReg Config.pulseBit Config.pulseGap⟩ :
      InitEntry) ∈ initBlob := ⟨noFault_fresh, List.mem_append_right _ (List.mem_cons_self ..)⟩

theorem witness_ReplayOfAnyBlob : NoFault fresh ∧ [(⟨0x0E, 1⟩ : InitEntry)] ≠ [] := ⟨noFault_fresh, by decide⟩

theorem witness_InitEndsWithTogglePulse : NoFault fresh := noFault_fresh

/-- INIT whose first exchange, the resolution, faults. -/
theorem witness_FailedInitIsAPrefix :
    exec .init broken = .next (after .init broken) ∧
    (after .init broken).results = broken.results ++ [.err .transportFailure] := by
  refine ⟨rfl, ?_⟩
  obtain ⟨e, es, h⟩ := List.exists_cons_of_ne_nil initBlob_ne_nil
  have hw : (wreg (entryAddr e) (entryBytes e)).run (broken.accept .init) =
      .error .transportFailure (runState resolve (broken.accept .init)) := by
    rw [wreg_entry, issue_run, encoder_write, (entryAddr_facts e).2.1]
    rfl
  have hr : (replay initBlob none).run (broken.accept .init) =
      .error .transportFailure (runState resolve (broken.accept .init)) := by
    rw [h]
    exact Op.bind_error.2 (.inl hw)
  show (conclude ((replay initBlob none).run (broken.accept .init))).results = _
  rw [hr]
  rfl

/-- The port with a request, the port empty, a word that decodes, and a Busy block. -/
theorem witness_StepRunsThePresentedRequest :
    (start.present .nop).phase = .idle ∧ (start.present .nop).port = .request .nop :: [] ∧
    decodeTableWord 8 0xFF = some .nop ∧ start.phase = .idle ∧ start.port = [] ∧
    (start.accept .nop).phase = .busy .nop 0 := by decide

theorem witness_ExternalEventIsInvisible :
    let d := device .b1 [(0x070, 0x4E)]
    (start.setPort [.external d]).phase = .idle ∧ (start.setPort [.external d]).port = .external d :: [] ∧
    Memory.wf d.regs := by decide

/-- R47: a STATUS byte given from outside is stored with bit 7 as 0, and so is the unknown one of construction. -/
theorem test_status_bit_stored :
    ((start.externalEvent (device .b0 [(0x070, 0xFE)])).dev.cell 0x070) = 0x7E ∧
    (State.reset.dev.cell 0x070) = Config.deviceByte 0x070 &&& 0x7F := ⟨by decide, rfl⟩

theorem witness_StepKeepsInv :
    Inv (start.present (.readRegister 0x80 1)) ∧
    step (start.present (.readRegister 0x80 1)) = .next (after (.readRegister 0x80 1) start) :=
  ⟨⟨rfl, rfl, rfl, rfl, by decide, by decide⟩, rfl⟩

theorem witness_WriteThenReadRoundTrip :
    OnBench start ∧ Agrees start ∧ RegisterAddr 0x8E ∧ (0x8E : Byte) &&& 0x1F ≠ 7 ∧ 1 ≤ ramp.length ∧
    ramp.length ≤ regWidth 0x8E := ⟨onBench_start, agrees_start, by decide, by decide, by decide, by decide⟩

/-- Bank-1 register 7 is no exception here: it is not STATUS. -/
theorem witness_WriteRegisterStores :
    OnBench start ∧ Agrees start ∧ RegisterAddr 0x87 ∧ (0x87 : Byte) ≠ 0x07 ∧
    1 ≤ ([0x09, 0x08, 0x07, 0x06] : List Byte).length ∧
    ([0x09, 0x08, 0x07, 0x06] : List Byte).length ≤ regWidth 0x87 :=
  ⟨onBench_start, agrees_start, by decide, by decide, by decide, by decide⟩

theorem witness_WriteStatusClearsFlags : OnBench start ∧ Agrees start := ⟨onBench_start, agrees_start⟩

/-- Register 7 of bank 1 at its full width, and STATUS itself. -/
theorem witness_ReadRegisterReturnsRegister :
    OnBench start ∧ Agrees start ∧ RegisterAddr 0x87 ∧ 1 ≤ 4 ∧ 4 ≤ regWidth 0x87 ∧ RegisterAddr 0x07 ∧
    1 ≤ regWidth 0x07 := ⟨onBench_start, agrees_start, by decide, by decide, by decide, by decide, by decide⟩

theorem witness_OtherRequestsKeepRegisters :
    OnBench received ∧ usesRegisters (.readRxPayload 3) = false ∧
    exec (.readRxPayload 3) received = .next (after (.readRxPayload 3) received) ∧
    exec (.readRegister 0x80 4) received = .next (after (.readRegister 0x80 4) received) :=
  ⟨⟨rfl, rfl, rfl, rfl⟩, rfl, exec_after _ _, exec_after _ _⟩

theorem witness_SequencesStore : OnBench start ∧ Agrees start := ⟨onBench_start, agrees_start⟩

theorem witness_PayloadWriteEffects : OnBench start ∧ 1 ≤ longest.length ∧ longest.length ≤ 32 ∧ 5 < 6 :=
  ⟨onBench_start, by decide, by decide, by decide⟩

theorem witness_PayloadReadEffects :
    OnBench received ∧ 1 ≤ 32 ∧ 32 ≤ 32 ∧ (received.dev.rx.headD []).length < 256 :=
  ⟨⟨rfl, rfl, rfl, rfl⟩, by decide, by decide, by decide⟩

theorem witness_FillerChangesNothing :
    OnBench start ∧ exec (.readRegister 0x8E 11) start = .next (after (.readRegister 0x8E 11) start) :=
  ⟨onBench_start, exec_after _ _⟩

/-- A faulted transaction of which the outside says nothing, and one after which it leaves another device; a read cut short
before its second byte, and a command without payload. -/
theorem witness_FailedTransactionDevice :
    let d := device .b1 [(0x000, 0x0B), (0x070, 0x8E)]
    let s := withFaults start [1]
    let u := { withFaults start [0] with world := [⟨[], some d⟩] }
    (∃ t, (execute 0x20 [0x0B] 1 .h2d).run s = .error .transportFailure t) ∧ afterFrame s.world = none ∧
    (∃ t, (execute 0x20 [0x0B] 1 .h2d).run u = .error .transportFailure t) ∧ afterFrame u.world = some d ∧
    (∃ t, (execute 0x0A [] 5 .d2h).run (withFaults start [2]) = .error .transportFailure t) ∧
    (∃ t, (execute 0xFF [] 0 .none).run (withFaults start [0]) = .error .transportFailure t) ∧
    s.dev.frame = [] ∧ u.dev.frame = [] ∧ Memory.wf d.regs :=
  ⟨⟨_, rfl⟩, rfl, ⟨_, rfl⟩, rfl, ⟨_, rfl⟩, ⟨_, rfl⟩, rfl, rfl, by decide⟩

/-- A request with bank work, and one that never has any. -/
theorem witness_TransactionCounts :
    Instr.modeRX ≠ .reset ∧ operandError .modeRX = none ∧ NoFault fresh ∧
    exec .modeRX fresh = .next (after .modeRX fresh) ∧ usesRegisters .nop = false ∧ operandError .nop = none ∧
    exec .nop fresh = .next (after .nop fresh) :=
  ⟨by decide, rfl, noFault_fresh, exec_after _ _, rfl, rfl, exec_after _ _⟩

end Sys2Proof.Tests
end

section
/-! The byte order of register values (spec/20_memory.md R33). -/

namespace Sys2Proof.Machine

/-- The addresses of R33's first line. -/
theorem msbFirstAddr_iff (la : Byte) : msbFirstAddr la = true ↔ 0x80 ≤ la.toNat ∧ la.toNat ≤ 0x87 := by
  simp [msbFirstAddr]

/-- The bytes of a value, most significant first. -/
theorem reverse_lsbFirst_eq (v w : Nat) :
    (lsbFirst v w).reverse = (List.range w).map fun i => BitVec.ofNat 8 (v >>> (8 * (w - 1 - i))) := by
  apply List.ext_getElem
  · simp
  · intro i h₁ h₂
    rw [List.getElem_reverse, lsbFirst_getElem]
    simp

/-- R33's formula, which holds of a value that does not fit its width too: the bytes above the width are dropped. -/
theorem serialise_eq (la : Byte) (v w : Nat) :
    serialise la v w =
      if 0x80 ≤ la.toNat ∧ la.toNat ≤ 0x87 then
        (List.range w).map fun i => BitVec.ofNat 8 (v >>> (8 * (w - 1 - i)))
      else (List.range w).map fun i => BitVec.ofNat 8 (v >>> (8 * i)) := by
  rw [serialise, reverse_lsbFirst_eq, lsbFirst_eq]
  exact if_congr (msbFirstAddr_iff la) rfl rfl

/-- Settles O5: R33's formula in both orders, and the two inverse laws of `serialise` and `deserialise`. -/
theorem serialiseByteOrder : Obligations.SerialiseByteOrder := by
  intro la v w hv
  exact ⟨serialise_eq la v w, deserialise_serialise la hv, serialise_deserialise la⟩

end Sys2Proof.Machine
end

section
/-! The target bank of a command (spec/40_bank_tracker.md R66). -/

namespace Sys2Proof.Machine

theorem bankOf_of_bit_clear {la : Byte} (h : la.getLsbD 7 = false) : bankOf la = .b0 := by
  rw [bankOf, h]
  rfl

theorem bankOf_of_bit_set {la : Byte} (h : la.getLsbD 7 = true) : bankOf la = .b1 := by
  rw [bankOf, h]
  rfl

/-- The commands of format R (R55) are the two register commands. -/
theorem format_eq_R_iff (o : Opcode) : o.format = .R ↔ o = .readRegister ∨ o = .writeRegister := by
  cases o <;> simp [Opcode.format]

/-- The encoder gives a target bank to format R alone: the operand's own bank. -/
theorem commandEncoder_bank (o : Opcode) (x : Byte) :
    (commandEncoder o x).bank = if o.format = .R then some (bankOf x) else none := by
  unfold commandEncoder
  cases o.format <;> rfl

/-- Settles O18: the target bank is the operand's `bankOf` for format R, which only the register commands have. -/
theorem targetBankIsBitSeven : Obligations.TargetBankIsBitSeven := by
  intro o x
  rw [commandEncoder_bank]
  refine ⟨fun ho => ?_, fun hr hw => if_neg ?_⟩
  · rw [if_pos ((format_eq_R_iff o).2 ho)]
    exact ⟨fun h => congrArg some (bankOf_of_bit_clear h), fun h => congrArg some (bankOf_of_bit_set h)⟩
  · rw [format_eq_R_iff]
    exact not_or.2 ⟨hr, hw⟩

end Sys2Proof.Machine
end

section
/-! The power level at or above the threshold (spec/44_power_level.md R105). -/

namespace Sys2Proof.Machine

/-- The first branch of R104's pseudocode, for every threshold and fold: the answer, in the state it found. -/
theorem powerBody_run_of_le {levels level : Nat} (h : levels ≤ level) (fold : Byte → Nat → Byte) (s : State) :
    (powerBody levels fold level).run s = .ok (none, []) s := by
  rw [powerBody, if_pos h]
  rfl

/-- Acceptance and the end of a request touch the phase alone, beside the result: an Idle state gets its phase back. -/
theorem State.putResult_accept_idle {s : State} (h : s.phase = .idle) (i : Instr) (r : Result) :
    ((s.accept i).putResult r).setPhase .idle = s.putResult r := by
  apply State.ext
  case phase => exact h.symm
  all_goals rfl

/-- A request that completes in the very state in which it was accepted changes an Idle block by its result alone. -/
theorem request_of_unchanged {i : Instr} {body : Op Answer} {s : State} {a : Answer} (hs : s.phase = .idle)
    (h : body.run (s.accept i) = .ok a (s.accept i)) : request i body s = .next (s.putResult (.ok a.1 a.2)) := by
  rw [request_ok h, State.putResult_accept_idle hs]

/-- Settles O37: the body answers in the state in which the request was accepted, so the result is all that is new. -/
theorem powerLevelAtThresholdDoesNothing : Obligations.PowerLevelAtThresholdDoesNothing := by
  intro level s hl hs
  exact request_of_unchanged hs (powerBody_run_of_le hl Config.powerFold _)

end Sys2Proof.Machine
end

section
/-! How every request ends (spec/60_exceptions.md R112, R115, R116, R117): one inversion lemma, from which the statements
about all requests follow. -/

namespace Sys2Proof.Machine

/-- Every request answers a next state. -/
theorem exec_total (i : Instr) (s : State) : ∃ t, exec i s = .next t := ⟨_, exec_eq i s⟩

/-- A request's next state is its body's last state with the result put at the port, Idle again. -/
theorem exec_cases {i : Instr} {s t : State} (h : exec i s = .next t) :
    (∃ a s', (body i).run (s.accept i) = .ok a s' ∧ t = (s'.putResult (.ok a.1 a.2)).setPhase .idle) ∨
      ∃ e s', (body i).run (s.accept i) = .error e s' ∧ t = (s'.putResult (.err e)).setPhase .idle := by
  rw [exec_eq] at h
  cases hr : (body i).run (s.accept i) with
  | ok a s' =>
    rw [hr] at h
    cases h
    exact .inl ⟨a, s', rfl, rfl⟩
  | error e s' =>
    rw [hr] at h
    cases h
    exact .inr ⟨e, s', rfl, rfl⟩

theorem exec_of_ok {i : Instr} {s s' : State} {a : Answer} (h : (body i).run (s.accept i) = .ok a s') :
    exec i s = .next ((s'.putResult (.ok a.1 a.2)).setPhase .idle) := by
  rw [exec_eq, h]
  rfl

theorem exec_of_error {i : Instr} {s s' : State} {e : Err} (h : (body i).run (s.accept i) = .error e s') :
    exec i s = .next ((s'.putResult (.err e)).setPhase .idle) := by
  rw [exec_eq, h]
  rfl

/-- The three ways a request other than a reset can end: completed, refused before any bus access (R116), or failed at an
exchange (R115). -/
inductive RequestEnd (i : Instr) (s t : State) : Prop where
  | completed (a : Answer) (ev : List Event) (s' : State) (operands : operandError i = none)
      (done : Completed (isTransition i = false) ev (ownTransactions i) (bankAllowance i) a (s.accept i) s')
      (last : t = (s'.putResult (.ok a.1 a.2)).setPhase .idle)
  | refused (e : Err) (operands : operandError i = some e)
      (last : t = ((s.accept i).putResult (.err e)).setPhase .idle)
  | failed (s' : State) (operands : operandError i = none)
      (failure : Failed (isTransition i = false) .transportFailure (s.accept i) s')
      (last : t = (s'.putResult (.err .transportFailure)).setPhase .idle)

theorem RequestEnd.of_exec {i : Instr} {s t : State} (hi : i ≠ .reset) (h : exec i s = .next t) : RequestEnd i s t := by
  obtain ⟨a, s', hr, rfl⟩ | ⟨e, s', hr, rfl⟩ := exec_cases h
  · obtain ⟨ho, ⟨ev, hc⟩, -⟩ := body_ok hi hr
    exact .completed a ev s' ho hc rfl
  · obtain ⟨ho, rfl⟩ | ⟨ho, hf⟩ := body_error hr
    · exact .refused e ho rfl
    · obtain rfl := hf.error
      exact .failed s' ho hf rfl

/-- RESET completes with session construction (spec/70_reset_and_hazards.md R126). -/
theorem exec_reset (s : State) :
    exec .reset s = .next (((s.accept .reset).construct.putResult (.ok none [])).setPhase .idle) := rfl

/-- TransportFailure is no operand error (R115). -/
theorem operandError_ne_transportFailure (i : Instr) : operandError i ≠ some .transportFailure := by
  have h : ∀ {p q : Prop} [Decidable p] [Decidable q], (if p then some Err.invalidOperand
      else if q then some .payloadTooLarge else none) ≠ some .transportFailure := by
    intro p q _ _
    split
    · simp
    · split <;> simp
  cases i
  case readRegister => exact h
  case writeRegister => exact h
  case readRxPayload => exact h
  case writeTxPayload => exact h
  case writeTxPayloadNoAck => exact h
  case writeAckPayload => exact h
  all_goals exact nofun

/-- Events that end in a failure hold one fault. -/
theorem FailEvents.faultCount {ev : List Event} (h : FailEvents ev) : faultCount ev = 1 := by
  obtain ⟨pre, out, hz, rfl⟩ := h
  rw [faultCount_append, hz]
  rfl

/-- Complete frames after a legal trace keep it legal. -/
theorem LegalTrace.append {tr ev : List Event} (h : LegalTrace tr) (hf : Framed ev) : LegalTrace (tr ++ ev) :=
  Framed.append h hf

/-! ### The events of a request -/

/-- Settles O6: each of the three ends issues complete frames, and a reset empties the trace. -/
theorem requestsEmitLegalFrames : Obligations.RequestsEmitLegalFrames := by
  intro i s t h hl hcs
  by_cases hi : i = .reset
  · subst hi
    cases h
    exact ⟨rfl, rfl⟩
  cases RequestEnd.of_exec hi h with
  | completed a ev s' _ done last =>
    subst last
    exact ⟨by simpa [done.issued.trace] using hl.append done.framed, done.cs hcs⟩
  | refused e _ last =>
    subst last
    exact ⟨hl, hcs⟩
  | failed s' _ failure last =>
    obtain ⟨ev, -, hf, -, -, hi⟩ := failure.issued
    subst last
    exact ⟨by simpa [hi.trace] using hl.append hf, failure.cs⟩

/-- Settles O33: the drives of chip-enable are among the events, and a request that is no transition has none. -/
theorem onlyTransitionsDriveChipEnable : Obligations.OnlyTransitionsDriveChipEnable := by
  intro i s t hi h
  cases RequestEnd.of_exec hi h with
  | completed a ev s' _ done last =>
    subst last
    exact ⟨ev, done.issued.trace, done.ce.symm, fun hq => ⟨done.modeTrack hq, done.drives hq⟩⟩
  | refused e _ last =>
    subst last
    exact ⟨[], by simp, rfl, fun _ => ⟨rfl, by simp⟩⟩
  | failed s' _ failure last =>
    obtain ⟨ev, -, -, hce, hq, hi⟩ := failure.issued
    subst last
    exact ⟨ev, hi.trace, hce.symm, fun h => ⟨failure.modeTrack, hq h⟩⟩

/-- Settles O60: with no fault to come and no operand error a request completes, and `Completed` counts its
transactions. -/
theorem transactionCounts : Obligations.TransactionCounts := by
  intro i s t hi ho hf h
  cases RequestEnd.of_exec hi h with
  | completed a ev s' _ done last =>
    subst last
    have hmost := done.most
    refine ⟨ev, done.issued.trace, done.settle, done.least, ?_, fun hb => ?_⟩
    · have hle : bankAllowance i ≤ 2 := by unfold bankAllowance; split <;> omega
      omega
    · rw [bankAllowance, if_pos hb] at hmost
      exact le_antisymm hmost done.least
  | refused e he last => rw [ho] at he; cases he
  | failed s' _ failure last => exact absurd (hf.accept i) failure.faulted

/-! ### The result of a request -/

/-- Settles O15: an operand error refuses the request in the state it found; else it completes or fails at an exchange. -/
theorem errorsInOrder : Obligations.ErrorsInOrder := by
  intro i s hs
  obtain ⟨t, h⟩ := exec_total i s
  refine ⟨t, h, ?_⟩
  by_cases hi : i = .reset
  · subst hi
    cases h
    exact ⟨fun e he => (by cases he), fun _ => .inl ⟨none, [], rfl⟩⟩
  cases RequestEnd.of_exec hi h with
  | completed a ev s' ho done last =>
    subst last
    refine ⟨fun e he => (by rw [ho] at he; cases he), fun _ => .inl ⟨a.1, a.2, ?_⟩⟩
    simp [done.issued.results]
  | refused e ho last =>
    subst last
    rw [State.putResult_accept_idle hs, ho]
    exact ⟨fun e' he => (by cases he; rfl), nofun⟩
  | failed s' ho failure last =>
    subst last
    exact ⟨fun e he => (by rw [ho] at he; cases he), fun _ => .inr (TransportFailed.of_failed failure).2⟩

/-- Settles O16: a completed request has no faulted exchange, a refused one no exchange, and a failed one exactly one
fault. -/
theorem transportFailureExactlyOnFault : Obligations.TransportFailureExactlyOnFault := by
  intro i s t hi h
  cases RequestEnd.of_exec hi h with
  | completed a ev s' _ done last =>
    subst last
    have hi := done.issued
    refine ⟨ev, hi.trace, by rw [done.noXf]; omega, ?_, ?_, hi.faults, hi.exchanges, hi.faultSet, hi.sessionFaults⟩
    · simp [done.noXf, hi.results]
    · simp [hi.results]
  | refused e ho last =>
    subst last
    have he : e ≠ .transportFailure := fun he => operandError_ne_transportFailure i (he ▸ ho)
    exact ⟨[], by simp, by simp, by simp [he], by simp [he], trivial, rfl, rfl, rfl⟩
  | failed s' _ failure last =>
    obtain ⟨ev, hfe, -, -, -, hi⟩ := failure.issued
    have ht := (TransportFailed.of_failed failure).2
    subst last
    exact ⟨ev, hi.trace, by rw [hfe.faultCount], ⟨fun _ => ht.result, fun _ => hfe.faultCount⟩, fun _ => ht, hi.faults,
      hi.exchanges, hi.faultSet, hi.sessionFaults⟩

/-- The one result of a request tells whether it issued a transaction: `Ok` with a status byte where it did, `Ok(None, [])`
where it emitted nothing. -/
theorem result_matches_events {i : Instr} {s t : State} (hi : i ≠ .reset) (h : exec i s = .next t) :
    ∃ r ev, t.results = s.results ++ [r] ∧ t.phase = .idle ∧ t.port = s.port ∧ t.trace = s.trace ++ ev ∧
      (∀ d, r = .ok none d → d = [] ∧ ev = []) ∧ ∀ st d, r = .ok (some st) d → 1 ≤ transactions ev := by
  cases RequestEnd.of_exec hi h with
  | completed a ev s' _ done last =>
    subst last
    have hi := done.issued
    refine ⟨.ok a.1 a.2, ev, by simp [hi.results], rfl, hi.port, hi.trace, fun d hd => ?_, fun st d hd => ?_⟩
    · obtain ⟨h₁, h₂⟩ := Result.ok.inj hd
      obtain ⟨h₃, h₄⟩ := done.status h₁
      exact ⟨h₂.symm.trans h₃, h₄⟩
    · obtain ⟨h₁, -⟩ := Result.ok.inj hd
      exact (done.bus (by simp [h₁])).trans done.least
  | refused e _ last =>
    subst last
    exact ⟨.err e, [], rfl, rfl, rfl, by simp, nofun, nofun⟩
  | failed s' _ failure last =>
    obtain ⟨ev, -, -, -, -, hi⟩ := failure.issued
    subst last
    exact ⟨.err .transportFailure, ev, by simp [hi.results], rfl, hi.port, hi.trace, nofun, nofun⟩

/-- Settles O17: a reset returns `Ok(None, [])`, every other request by the three ends. -/
theorem everyRequestReturnsOneResult : Obligations.EveryRequestReturnsOneResult := by
  refine ⟨fun i s => ?_, rfl, rfl, rfl⟩
  by_cases hi : i = .reset
  · subst hi
    exact ⟨_, .ok none [], exec_reset s, rfl, rfl, rfl, fun h => absurd rfl h⟩
  obtain ⟨t, h⟩ := exec_total i s
  obtain ⟨r, ev, hr, hp, hport, htr, hnone, hsome⟩ := result_matches_events hi h
  exact ⟨t, r, h, hr, hp, hport, fun _ => ⟨ev, htr, hnone, hsome⟩⟩

end Sys2Proof.Machine
end

section
/-! The twelve command requests (spec/42_commands.md R83): each is its operand check, then one command. -/

namespace Sys2Proof.Machine

/-- One command as the block issues it: opcode, operand of the command byte, payload and length. -/
structure Command where
  opcode : Opcode
  operand : Byte
  buf : List Byte
  n : Nat

/-- What the CommandEncoder answers for a command (spec/30_encoding.md R59). -/
abbrev Command.word (c : Command) : CommandWord := commandEncoder c.opcode c.operand

/-- The operation of a command: bank guard and transaction. -/
abbrev Command.issue (c : Command) : Op (Byte × List Byte) := Machine.issue c.opcode c.operand c.buf c.n

/-- The command of a command request; the composite requests have none. -/
def commandOf : Instr → Option Command
  | .readRegister la n => some ⟨.readRegister, la, [], n⟩
  | .writeRegister la v => some ⟨.writeRegister, la, v, v.length⟩
  | .readRxPayload n => some ⟨.readRxPayload, 0, [], n⟩
  | .writeTxPayload v => some ⟨.writeTxPayload, 0, v, v.length⟩
  | .writeTxPayloadNoAck v => some ⟨.writeTxPayloadNoAck, 0, v, v.length⟩
  | .writeAckPayload p v => some ⟨.writeAckPayload, BitVec.ofNat 8 p, v, v.length⟩
  | .flushTx => some ⟨.flushTx, 0, [], 0⟩
  | .flushRx => some ⟨.flushRx, 0, [], 0⟩
  | .reuseTxPayload => some ⟨.reuseTxPayload, 0, [], 0⟩
  | .activate b => some ⟨.activate, 0, [b], 1⟩
  | .readRxPayloadWidth => some ⟨.readRxPayloadWidth, 0, [], 1⟩
  | .nop => some ⟨.nop, 0, [], 0⟩
  | .modePD | .modeSB | .modeRX | .modeTX | .setPwr _ | .init | .reset => none

/-- The operand errors of the register requests and the ACK payload are the model's own checks. -/
theorem operandError_readRegister (la : Byte) (n : Nat) : operandError (.readRegister la n) = registerCheck la n :=
  (registerCheck_eq la n).symm

theorem operandError_writeRegister (la : Byte) (v : List Byte) :
    operandError (.writeRegister la v) = registerCheck la v.length := (registerCheck_eq la v.length).symm

theorem operandError_writeAckPayload (p : Nat) (v : List Byte) :
    operandError (.writeAckPayload p v) = ackCheck p v.length := (ackCheck_eq p v.length).symm

/-- A command request is its check and then its command (R83, R116). -/
theorem body_command {i : Instr} {c : Command} (h : commandOf i = some c) (s : State) :
    (body i).run s = (check (operandError i) >>= fun _ => answerOf <$> c.issue).run s := by
  cases i <;> cases h
  case readRegister.refl la n =>
    rw [operandError_readRegister]
    exact body_readRegister la n s
  case writeRegister.refl la v =>
    rw [operandError_writeRegister]
    exact body_writeRegister la v s
  case writeAckPayload.refl p v =>
    rw [operandError_writeAckPayload]
    exact body_writeAckPayload p v s
  all_goals rfl

/-- A command request with valid operands is its command. -/
theorem body_command_valid {i : Instr} {c : Command} (h : commandOf i = some c) (ho : operandError i = none) (s : State) :
    (body i).run s = (answerOf <$> c.issue).run s := by
  rw [body_command h, ho]
  rfl

/-- A command request that completes has run its command. -/
theorem body_command_ok {i : Instr} {c : Command} {a : Answer} {s s' : State} (h : commandOf i = some c)
    (hr : (body i).run s = .ok a s') : operandError i = none ∧ ∃ r, c.issue.run s = .ok r s' ∧ a = (some r.1, r.2) := by
  rw [body_command h] at hr
  exact checkedIssue_ok hr

/-- A command request that ends with an error: its operand error, or its command failed. -/
theorem body_command_error {i : Instr} {c : Command} {e : Err} {s s' : State} (h : commandOf i = some c)
    (hr : (body i).run s = .error e s') :
    (operandError i = some e ∧ s' = s) ∨ (operandError i = none ∧ c.issue.run s = .error e s') := by
  rw [body_command h] at hr
  exact checkedIssue_error hr

/-- The register requests alone have a target bank (spec/40_bank_tracker.md R66). -/
theorem commandOf_unguarded {i : Instr} (hu : usesRegisters i = false) (hi : i ≠ .reset) :
    ∃ c, commandOf i = some c ∧ c.word.bank = none := by
  cases i
  case readRegister => cases hu
  case writeRegister => cases hu
  case modePD => cases hu
  case modeSB => cases hu
  case modeRX => cases hu
  case modeTX => cases hu
  case setPwr => cases hu
  case init => cases hu
  case reset => exact absurd rfl hi
  all_goals exact ⟨_, rfl, rfl⟩

/-! ### Completion -/

/-- Where no exchange faults, a command request with valid operands completes. -/
theorem exec_command_completes {i : Instr} {c : Command} {s : State} (h : commandOf i = some c)
    (ho : operandError i = none) (hf : NoFault s) :
    ∃ t, exec i s = .next t ∧ CommandCompleted c.word.byte c.word.bank c.buf c.n c.word.dir s t :=
  CommandCompleted.of_issue (body_command_valid h ho _) hf

theorem operandError_readRegister_none {la : Byte} {n : Nat} (hd : RegisterAddr la) (h₁ : 1 ≤ n)
    (h₂ : n ≤ regWidth la) : operandError (.readRegister la n) = none :=
  (operandError_readRegister la n).trans (registerCheck_ok hd h₁ h₂)

theorem operandError_writeRegister_none {la : Byte} {v : List Byte} (hd : RegisterAddr la) (h₁ : 1 ≤ v.length)
    (h₂ : v.length ≤ regWidth la) : operandError (.writeRegister la v) = none :=
  (operandError_writeRegister la v).trans (registerCheck_ok hd h₁ h₂)

/-- The command byte of WriteAckPayload for a pipe of the device (spec/30_encoding.md R56). -/
theorem encoder_writeAckPayload {p : Nat} (hp : p ≤ 5) :
    commandEncoder .writeAckPayload (BitVec.ofNat 8 p) = ⟨0xA8 ||| BitVec.ofNat 8 p, .h2d, none⟩ := by
  have key : ∀ p : Fin 6, commandEncoder .writeAckPayload (BitVec.ofNat 8 p.val) =
      ⟨0xA8 ||| BitVec.ofNat 8 p.val, .h2d, none⟩ := by decide
  exact key ⟨p, by omega⟩

/-- Settles O8: the operands are valid, and the command byte is R84's. -/
theorem readRegisterCompletes : Obligations.ReadRegisterCompletes := by
  intro la n s hd h₁ h₂ hf
  have h := exec_command_completes rfl (operandError_readRegister_none hd h₁ h₂) hf
  rwa [Command.word, encoder_readRegister] at h

/-- Settles O9: the operands are valid, and the command byte is R85's. -/
theorem writeRegisterCompletes : Obligations.WriteRegisterCompletes := by
  intro la v s hd h₁ h₂ hf
  have h := exec_command_completes rfl (operandError_writeRegister_none hd h₁ h₂) hf
  rwa [Command.word, encoder_writeRegister] at h

/-- Settles O10: both payload reads are commands without a target bank. -/
theorem payloadReadsComplete : Obligations.PayloadReadsComplete := by
  intro n s h₁ h₂ hf
  exact ⟨exec_command_completes (i := .readRxPayload n) rfl (lengthCheck_ok h₁ h₂) hf,
    exec_command_completes (i := .readRxPayloadWidth) rfl rfl hf⟩

/-- Settles O11: the payload writes and Activate are commands without a target bank. -/
theorem payloadWritesComplete : Obligations.PayloadWritesComplete := by
  intro v p b s h₁ h₂ hp hf
  have hl := lengthCheck_ok h₁ h₂
  have hack := exec_command_completes rfl ((operandError_writeAckPayload p v).trans (ackCheck_ok hp h₁ h₂)) hf
  rw [Command.word, encoder_writeAckPayload hp] at hack
  exact ⟨exec_command_completes (i := .writeTxPayload v) rfl hl hf,
    exec_command_completes (i := .writeTxPayloadNoAck v) rfl hl hf, hack,
    exec_command_completes (i := .activate b) rfl rfl hf⟩

/-- Settles O12: the four commands carry no payload, so their transaction is the one exchange. -/
theorem bareCommandsComplete : Obligations.BareCommandsComplete := by
  intro s hf
  exact ⟨exec_command_completes (i := .flushTx) rfl rfl hf, exec_command_completes (i := .flushRx) rfl rfl hf,
    exec_command_completes (i := .reuseTxPayload) rfl rfl hf, exec_command_completes (i := .nop) rfl rfl hf⟩

/-! ### Refusal -/

/-- An operand error leaves an Idle block as it was but for the result (spec/60_exceptions.md R116). -/
theorem exec_refused {i : Instr} {e : Err} {s : State} (hs : s.phase = .idle) (ho : operandError i = some e) :
    exec i s = .next (s.putResult (.err e)) := by
  obtain ⟨t, h, hrefused, -⟩ := errorsInOrder i s hs
  rw [h, hrefused e ho]

/-- The width table of R29 for the addresses that name a register. -/
theorem regWidth_of_registerAddr {la : Byte} (hd : RegisterAddr la) :
    regWidth la = if la = 0x0A ∨ la = 0x0B ∨ la = 0x10 then 5 else if la.toNat ≤ 0x1D then 1
      else if la = 0x8E then 11 else 4 := by
  unfold regWidth
  rw [(definedAddr_iff la).2 hd]
  simp [or_assoc]

/-- Settles O13: the operand errors of the two register requests, with R29's widths. -/
theorem registerRequestsRefused : Obligations.RegisterRequestsRefused := by
  intro la n v s hs
  have zero : registerCheck la 0 = some .invalidOperand := by rw [registerCheck_eq, if_pos (.inr rfl)]
  have long : ∀ n, RegisterAddr la → regWidth la < n → registerCheck la n = some .payloadTooLarge := by
    intro n hd hw
    rw [registerCheck_eq, if_neg (by simp only [hd, not_true, false_or]; omega), if_pos hw]
  have undefined : ∀ n, ¬ RegisterAddr la → registerCheck la n = some .invalidOperand := by
    intro n hd
    rw [registerCheck_eq, if_pos (.inl hd)]
  refine ⟨fun hd => ⟨?_, ?_⟩, ?_, ?_, fun w hw hd => ?_⟩
  · exact exec_refused hs ((operandError_readRegister la n).trans (undefined _ hd))
  · exact exec_refused hs ((operandError_writeRegister la v).trans (undefined _ hd))
  · exact exec_refused hs ((operandError_readRegister la 0).trans zero)
  · exact exec_refused hs ((operandError_writeRegister la []).trans zero)
  · have hwidth : regWidth la = w := (regWidth_of_registerAddr hd).trans hw.symm
    refine ⟨hwidth, fun h => ?_, fun h => ?_⟩
    · exact exec_refused hs ((operandError_readRegister la n).trans (long _ hd (hwidth ▸ h)))
    · exact exec_refused hs ((operandError_writeRegister la v).trans (long _ hd (hwidth ▸ h)))

/-- Settles O14: the operand errors of the four payload requests. -/
theorem payloadRequestsRefused : Obligations.PayloadRequestsRefused := by
  intro n p v s hs
  have long : ∀ n, 32 < n → lengthCheck n = some .payloadTooLarge := by
    intro n hn
    rw [lengthCheck_eq, if_neg (by omega), if_pos hn]
  have ack : ∀ v : List Byte, 5 < p ∨ v.length = 0 →
      exec (.writeAckPayload p v) s = .next (s.putResult (.err .invalidOperand)) := by
    intro v h
    exact exec_refused hs (if_pos h)
  refine ⟨exec_refused hs rfl, exec_refused hs rfl, exec_refused hs rfl, ack [] (.inr rfl), fun hp => ack v (.inl hp),
    fun hn => exec_refused hs (long n hn), fun hv => ⟨exec_refused hs (long _ hv), exec_refused hs (long _ hv),
      fun hp => exec_refused hs ?_⟩⟩
  rw [operandError_writeAckPayload, ackCheck_eq, if_neg (by omega), if_pos hv]

/-! ### Commands without a target bank -/

/-- A command without a target bank leaves the belief, completed or cut short, and is one transaction (R67). -/
theorem issue_unguarded_belief {c : Command} (hb : c.word.bank = none) {s s' : State}
    (h : (∃ r, c.issue.run s = .ok r s') ∨ ∃ e, c.issue.run s = .error e s') :
    s'.currentBank = s.currentBank ∧ ∃ ev, s'.trace = s.trace ++ ev ∧ commandBytes ev = [c.word.byte] := by
  obtain ⟨r, h⟩ | ⟨e, h⟩ := h
  · rw [issue_unguarded hb] at h
    obtain ⟨outs, ins, he, -⟩ := execute_ok h
    exact ⟨he.untouched.currentBank, _, he.issued.trace, commandBytes_frame _ _ _ _⟩
  · rw [issue_unguarded hb] at h
    obtain ⟨ev, hcut, hi⟩ := (execute_error h).2.issued
    exact ⟨(execute_error h).2.untouched.currentBank, ev, hi.trace, commandBytes_cut hcut⟩

/-- Settles O23: the request is one command without a target bank, or is refused with nothing emitted. -/
theorem unguardedRequestsKeepBelief : Obligations.UnguardedRequestsKeepBelief := by
  intro i s t hu hi h
  obtain ⟨c, hc, hb⟩ := commandOf_unguarded hu hi
  have one : ∀ {ev : List Event}, commandBytes ev = [c.word.byte] → transactions ev ≤ 1 := by
    intro ev hev
    rw [transactions, hev]
    exact le_refl 1
  obtain ⟨a, s', hr, rfl⟩ | ⟨e, s', hr, rfl⟩ := exec_cases h
  · obtain ⟨-, r, hr, -⟩ := body_command_ok hc hr
    obtain ⟨hbel, ev, htr, hev⟩ := issue_unguarded_belief hb (.inl ⟨r, hr⟩)
    exact ⟨hbel, ev, htr, one hev⟩
  · obtain ⟨-, rfl⟩ | ⟨-, hr⟩ := body_command_error hc hr
    · exact ⟨rfl, [], by simp, Nat.zero_le _⟩
    · obtain ⟨hbel, ev, htr, hev⟩ := issue_unguarded_belief hb (.inr ⟨e, hr⟩)
      exact ⟨hbel, ev, htr, one hev⟩

/-! ### Register commands, completed or failed -/

/-- The command of a register request (R84, R85): which one, and where its address goes. -/
theorem commandOf_register {i : Instr} {la : Byte} (h : (∃ n, i = .readRegister la n) ∨ ∃ v, i = .writeRegister la v) :
    ∃ c, commandOf i = some c ∧ (c.opcode = .readRegister ∨ c.opcode = .writeRegister) ∧ c.operand = la ∧
      operandError i = registerCheck la c.n := by
  obtain ⟨n, rfl⟩ | ⟨v, rfl⟩ := h
  · exact ⟨_, rfl, .inl rfl, rfl, operandError_readRegister la n⟩
  · exact ⟨_, rfl, .inr rfl, rfl, operandError_writeRegister la v⟩

/-- Settles O19: a register request is refused with nothing emitted, or `issue_register` counts its toggles. -/
theorem atMostOneToggle : Obligations.AtMostOneToggle := by
  intro i la s t hreg h
  obtain ⟨⟨o, x, buf, n⟩, hc, ho, rfl, hchk⟩ := commandOf_register hreg
  obtain ⟨a, s', hr, rfl⟩ | ⟨e, s', hr, rfl⟩ := exec_cases h
  · obtain ⟨hnone, r, hr, -⟩ := body_command_ok hc hr
    obtain ⟨ev, hi, hle, hsame, hres, -⟩ := issue_register ho (registerCheck_none (hchk.symm.trans hnone)) (.inl ⟨r, hr⟩)
    exact ⟨ev, hi.trace, hle, hsame, hres⟩
  · obtain ⟨-, rfl⟩ | ⟨hnone, hr⟩ := body_command_error hc hr
    · exact ⟨[], by simp, by simp [commandBytes], fun _ => rfl, fun _ _ _ _ _ _ _ => rfl⟩
    · obtain ⟨ev, hi, hle, hsame, hres, -⟩ :=
        issue_register ho (registerCheck_none (hchk.symm.trans hnone)) (.inr ⟨e, hr⟩)
      exact ⟨ev, hi.trace, hle, hsame, hres⟩

/-- A request that returned TransportFailure is one whose body failed after its operand checks (R115). -/
theorem exec_transportFailure {i : Instr} {s t : State} (h : exec i s = .next t)
    (hr : t.results = s.results ++ [.err .transportFailure]) :
    operandError i = none ∧ ∃ s', (body i).run (s.accept i) = .error .transportFailure s' ∧
      Failed (isTransition i = false) .transportFailure (s.accept i) s' ∧
      t = (s'.putResult (.err .transportFailure)).setPhase .idle := by
  have hi : i ≠ .reset := by
    rintro rfl
    rw [exec_reset] at h
    cases h
    simp at hr
  obtain ⟨a, s', hb, rfl⟩ | ⟨e, s', hb, rfl⟩ := exec_cases h
  · obtain ⟨-, ⟨ev, hc⟩, -⟩ := body_ok hi hb
    simp [hc.issued.results] at hr
  · obtain ⟨ho, rfl⟩ | ⟨ho, hf⟩ := body_error hb
    · obtain rfl : e = .transportFailure := by simpa using hr
      exact absurd ho (operandError_ne_transportFailure i)
    · obtain rfl := hf.error
      exact ⟨ho, s', hb, hf, rfl⟩

/-- A register command that failed, as R72 has it. -/
theorem issue_register_failed {o : Opcode} {la : Byte} {buf : List Byte} {n : Nat} {e : Err} {s s' : State}
    (ho : o = .readRegister ∨ o = .writeRegister) (hd : RegisterAddr la) (h : (issue o la buf n).run s = .error e s') :
    ∃ ev, Issued ev s s' ∧ FailedAt s.currentBank (bankOf la) (commandEncoder o la).byte buf n (commandEncoder o la).dir
      ev s'.currentBank := by
  obtain ⟨ev, hi, -, -, -, hf⟩ := issue_register ho hd (.inr ⟨e, h⟩)
  exact ⟨ev, hi, hf ⟨e, h⟩⟩

/-- Settles O21: the failed request is its failed register command. -/
theorem beliefAfterFailure : Obligations.BeliefAfterFailure := by
  intro i la cmd buf n dir s t hcase h hr
  obtain ⟨hnone, s', hb, -, rfl⟩ := exec_transportFailure h hr
  obtain ⟨rfl, rfl, rfl, rfl⟩ | ⟨rfl, rfl, rfl, rfl⟩ := hcase
  · obtain ⟨hs, -⟩ | ⟨-, hb⟩ := body_command_error (i := .readRegister la n) rfl hb
    · rw [hnone] at hs
      cases hs
    · have hd := registerCheck_none ((operandError_readRegister la n).symm.trans hnone)
      obtain ⟨ev, hi, hf⟩ := issue_register_failed (.inl rfl) hd hb
      rw [encoder_readRegister] at hf
      exact ⟨ev, hi.trace, hf⟩
  · obtain ⟨hs, -⟩ | ⟨-, hb⟩ := body_command_error (i := .writeRegister la buf) rfl hb
    · rw [hnone] at hs
      cases hs
    · have hd := registerCheck_none ((operandError_writeRegister la buf).symm.trans hnone)
      obtain ⟨ev, hi, hf⟩ := issue_register_failed (.inr rfl) hd hb
      rw [encoder_writeRegister] at hf
      exact ⟨ev, hi.trace, hf⟩

end Sys2Proof.Machine
end

section
/-! The sequencer's count of primitive actions (spec/10_state.md R16, R18). -/

namespace Sys2Proof.Machine

/-- Some events were issued, one primitive action each. -/
def Issues (s s' : State) : Prop := ∃ ev, Issued ev s s'

theorem Issues.refl (s : State) : Issues s s := ⟨[], Issued.refl s⟩

theorem Issues.trans {a b c : State} (h₁ : Issues a b) (h₂ : Issues b c) : Issues a c := by
  obtain ⟨ev₁, h₁⟩ := h₁
  obtain ⟨ev₂, h₂⟩ := h₂
  exact ⟨ev₁ ++ ev₂, h₁.trans h₂⟩

theorem issues_bind {α β : Type} {x : Op α} {f : α → Op β} (hx : Op.Keeps Issues x) (hf : ∀ a, Op.Keeps Issues (f a)) :
    Op.Keeps Issues (x >>= f) :=
  Op.keeps_bind (fun h₁ h₂ => h₁.trans h₂) hx hf

theorem issues_execute (cmd : Byte) (buf : List Byte) (n : Nat) (dir : Direction) :
    Op.Keeps Issues (execute cmd buf n dir) := by
  intro s
  refine ⟨fun r s' h => ?_, fun e s' h => ?_⟩
  · obtain ⟨outs, ins, he, -⟩ := execute_ok h
    exact ⟨_, he.issued⟩
  · obtain ⟨ev, -, hi⟩ := (execute_error h).2.issued
    exact ⟨ev, hi⟩

theorem issues_ensureBank (t : Bank) : Op.Keeps Issues (ensureBank t) := by
  intro s
  refine ⟨fun u s' h => ?_, fun e s' h => ?_⟩
  · obtain ⟨ev, -, hi⟩ := (ensureBank_ok h).work
    exact ⟨ev, hi⟩
  · obtain ⟨ev, hi, -⟩ := ensureBank_failed h
    exact ⟨ev, hi⟩

theorem issues_check (c : Option Err) : Op.Keeps Issues (check c) := by
  cases c with
  | none => exact Op.keeps_pure Issues.refl ()
  | some e => exact Op.keeps_throw Issues.refl e

theorem issues_issue (o : Opcode) (x : Byte) (buf : List Byte) (n : Nat) : Op.Keeps Issues (issue o x buf n) := by
  refine issues_bind ?_ fun _ => issues_execute _ _ _ _
  cases (commandEncoder o x).bank with
  | none => exact Op.keeps_pure Issues.refl ()
  | some t => exact issues_ensureBank t

theorem issues_rreg (la : Byte) (n : Nat) : Op.Keeps Issues (rreg la n) :=
  issues_bind (issues_check _) fun _ => issues_issue _ _ _ _

theorem issues_wreg (la : Byte) (v : List Byte) : Op.Keeps Issues (wreg la v) :=
  issues_bind (issues_check _) fun _ => issues_issue _ _ _ _

/-- From Busy(i, k), an operation that issues events leaves Busy(i, k + m), `m` their number. -/
theorem phase_of_issues {α : Type} {x : Op α} (hx : Op.Keeps Issues x) {i : Instr} {k : Nat} {s t : State}
    (hs : s.phase = .busy i k) {a : α} (h : x.run s = .ok a t ∨ ∃ e, x.run s = .error e t) :
    ∃ ev, t.trace = s.trace ++ ev ∧ t.phase = .busy i (k + ev.length) := by
  have hi : Issues s t := by
    obtain h | ⟨e, h⟩ := h
    · exact (hx s).1 _ _ h
    · exact (hx s).2 _ _ h
  obtain ⟨ev, hi⟩ := hi
  refine ⟨ev, hi.trace, ?_⟩
  rw [hi.phase, hs]
  rfl

/-- Settles O7: every operation over the bus issues its events one primitive action each. -/
theorem sequencerCountsActions : Obligations.SequencerCountsActions := by
  intro i k s hs
  refine ⟨fun cmd buf n dir r t h => phase_of_issues (issues_execute cmd buf n dir) hs h,
    fun b u t h => phase_of_issues (issues_ensureBank b) hs h,
    fun la n r t h => phase_of_issues (issues_rreg la n) hs h,
    fun la v r t h => phase_of_issues (issues_wreg la v) hs h, fun l => ⟨_, driveCe_run l s, rfl, rfl, ?_⟩⟩
  rw [State.note_phase, State.setCe_phase, hs]
  rfl

end Sys2Proof.Machine
end

section
/-! The composite requests, completed (spec/43_mode_controller.md R98 to R101, spec/44_power_level.md R104,
spec/45_init_sequencer.md R108). -/

namespace Sys2Proof.Machine

/-- Where no exchange faults, the operation of a request with valid operands completes. -/
theorem body_completes {i : Instr} {s : State} (ho : operandError i = none) (hf : NoFault s) :
    ∃ a s', (body i).run (s.accept i) = .ok a s' := by
  cases h : (body i).run (s.accept i) with
  | ok a s' => exact ⟨a, s', rfl⟩
  | error e s' =>
    obtain ⟨he, -⟩ | ⟨-, hfail⟩ := body_error h
    · rw [ho] at he
      cases he
    · exact absurd (hf.accept i) hfail.faulted

/-- The trace of a completed read-modify-write. -/
theorem Modified.trace {la : Byte} {f : Byte → Byte} {st : Byte} {ev : List Event} {s s' : State}
    (h : Modified la f st ev s s') : ∃ bw st₁ fl c r, BankWork s.currentBank (bankOf la) bw ∧
      s'.trace = s.trace ++ bw ++ frameEvents (commandEncoder .readRegister la).byte st₁ [fl] [c] ++
        frameEvents (commandEncoder .writeRegister la).byte st [f c] [r] := by
  obtain ⟨bw, st₁, fl, c, r, hw, rfl⟩ := h.events
  exact ⟨bw, st₁, fl, c, r, hw, by simp [h.issued.trace]⟩

/-- The same in the bank the belief already names: no bank work. -/
theorem Modified.trace_known {la : Byte} {f : Byte → Byte} {st : Byte} {ev : List Event} {s s' : State}
    (h : Modified la f st ev s s') (hb : s.currentBank = .known (bankOf la)) : ∃ st₁ fl c r,
      s'.trace = s.trace ++ frameEvents (commandEncoder .readRegister la).byte st₁ [fl] [c] ++
        frameEvents (commandEncoder .writeRegister la).byte st [f c] [r] := by
  obtain ⟨bw, st₁, fl, c, r, hw, ht⟩ := h.trace
  rw [hb] at hw
  obtain rfl := bankWork_same hw
  exact ⟨st₁, fl, c, r, by simpa using ht⟩

/-- The masks of R98, R101 and R100, written out. -/
theorem and_not_pwrUp (c : Byte) : c &&& ~~~pwrUp = c &&& 0xFD := congrArg (c &&& ·) (by decide)

theorem and_pwrUp_and_not_primRx (c : Byte) : (c &&& pwrUp) &&& ~~~primRx = c &&& 0x02 := BitVec.and_assoc c pwrUp _

theorem or_pwrUp_or_primRx (c : Byte) : c ||| pwrUp ||| primRx = c ||| 0x03 := BitVec.or_assoc c pwrUp primRx

/-- Settles O28: chip-enable low, then the read-modify-write of CONFIG. -/
theorem powerDownCompletes : Obligations.PowerDownCompletes := by
  intro s hf
  obtain ⟨a, s', hr⟩ := body_completes (i := .modePD) rfl hf
  obtain ⟨st, ev, s₁, rfl, hm, rfl⟩ := powerDown_ok hr
  obtain ⟨bw, st₁, fl, c, r, hw, ht⟩ := hm.trace
  exact ⟨_, bw, st₁, fl, c, st, r, exec_of_ok hr, ⟨rfl, hm.issued.port⟩, hw, ht,
    congrArg (· ++ [Result.ok (some st) []]) hm.issued.results, hm.ce, rfl, hm.belief, hm.cs⟩

/-- Settles O29: chip-enable low, then the read-modify-write of CONFIG. -/
theorem standbyICompletes : Obligations.StandbyICompletes := by
  intro s hf
  obtain ⟨a, s', hr⟩ := body_completes (i := .modeSB) rfl hf
  obtain ⟨st, ev, s₁, rfl, hm, rfl⟩ := standby_ok hr
  obtain ⟨bw, st₁, fl, c, r, hw, ht⟩ := hm.trace
  exact ⟨_, bw, st₁, fl, c, st, r, exec_of_ok hr, ⟨rfl, hm.issued.port⟩, hw, ht,
    congrArg (· ++ [Result.ok (some st) []]) hm.issued.results, hm.ce, rfl, hm.belief, hm.cs⟩

/-- Settles O31: chip-enable low, the read-modify-write of CONFIG, chip-enable high. -/
theorem txCompletes : Obligations.TxCompletes := by
  intro s hf
  obtain ⟨a, s', hr⟩ := body_completes (i := .modeTX) rfl hf
  obtain ⟨st, ev, s₁, rfl, hm, rfl⟩ := tx_ok hr
  obtain ⟨bw, st₁, fl, c, r, hw, ht⟩ := hm.trace
  rw [and_pwrUp_and_not_primRx] at ht
  exact ⟨_, bw, st₁, fl, c, st, r, exec_of_ok hr, ⟨rfl, hm.issued.port⟩, hw, congrArg (· ++ [Event.ce .high]) ht,
    congrArg (· ++ [Result.ok (some st) []]) hm.issued.results, rfl, rfl, hm.belief, hm.cs⟩

/-- Settles O30: the write-back of STATUS, which leaves the belief at bank 0, so that CONFIG needs no bank work. -/
theorem rxCompletes : Obligations.RxCompletes := by
  intro s hf
  obtain ⟨a, s', hr⟩ := body_completes (i := .modeRX) rfl hf
  obtain ⟨st₁, ev₁, s₁, st, ev, s₂, rfl, hm₁, hm, rfl⟩ := rx_ok hr
  obtain ⟨bw, st₀, f₁, d, r₁, hw, ht₁⟩ := hm₁.trace
  obtain ⟨st₂, f₂, c, r₂, ht₂⟩ := hm.trace_known hm₁.belief
  rw [or_pwrUp_or_primRx, State.note_trace, State.setCe_trace, ht₁] at ht₂
  exact ⟨_, bw, st₀, f₁, d, st₁, r₁, st₂, f₂, c, st, r₂, exec_of_ok hr,
    ⟨rfl, hm.issued.port.trans hm₁.issued.port⟩, hw, congrArg (· ++ [Event.ce .high]) ht₂,
    congrArg (· ++ [Result.ok (some st) []]) (hm.issued.results.trans hm₁.issued.results), rfl, rfl, hm.belief, hm.cs⟩

/-! ### The power level -/

/-- Settles O39: below the threshold the body is the read-modify-write of RF_SETUP. -/
theorem powerLevelForEveryFold : Obligations.PowerLevelForEveryFold := by
  intro levels level fold s hl hf
  cases hr : (powerBody levels fold level).run s with
  | error e s' => exact absurd hf (power_error (q := True) hr).2.faulted
  | ok a s' =>
    obtain ⟨hle, -⟩ | ⟨-, st, ev, rfl, hm⟩ := power_ok hr
    · omega
    · obtain ⟨bw, st₁, fl, c, r, hw, ht⟩ := hm.trace
      exact ⟨s', bw, st₁, fl, c, st, r, rfl, hw, ht, hm.belief⟩

/-- Settles O38: at or above the threshold the body does nothing, below it is the read-modify-write of RF_SETUP. -/
theorem setPowerLevelCompletes : Obligations.SetPowerLevelCompletes := by
  intro level s hf
  obtain ⟨a, s', hr⟩ := body_completes (i := .setPwr level) rfl hf
  obtain ⟨hl, rfl, rfl⟩ | ⟨hl, st, ev, rfl, hm⟩ := power_ok hr
  · refine ⟨_, exec_of_ok hr, ⟨rfl, rfl⟩, rfl, rfl, ?_⟩
    rw [if_neg (by omega)]
    exact ⟨rfl, rfl, rfl, rfl, rfl⟩
  · obtain ⟨bw, st₁, fl, c, r, hw, ht⟩ := hm.trace
    refine ⟨_, exec_of_ok hr, ⟨rfl, hm.issued.port⟩, hm.ce, hm.modeTrack, ?_⟩
    rw [if_pos hl]
    exact ⟨bw, st₁, fl, c, st, r, hw, ht, congrArg (· ++ [Result.ok (some st) []]) hm.issued.results, hm.belief, hm.cs⟩

/-! ### The replay of a blob -/

/-- A replay of at least one entry ends with the status byte of a write. -/
theorem replayEvents_final {blob : List InitEntry} {last final : Option Byte} {ev : List Event} (hne : blob ≠ [])
    (h : ReplayEvents blob last ev final) : ∃ st, final = some st := by
  induction blob generalizing last ev with
  | nil => exact absurd rfl hne
  | cons e es ih =>
    obtain ⟨st, ins, ev', -, -, h⟩ := h
    cases es with
    | nil => exact ⟨st, h.2⟩
    | cons e' es => exact ih (by simp) h

/-- The replay of a blob is the replay of its first part and then of the rest. -/
theorem replayEvents_append {xs ys : List InitEntry} {last final : Option Byte} {ev : List Event}
    (h : ReplayEvents (xs ++ ys) last ev final) :
    ∃ ev₁ mid ev₂, ev = ev₁ ++ ev₂ ∧ ReplayEvents xs last ev₁ mid ∧ ReplayEvents ys mid ev₂ final := by
  induction xs generalizing last ev with
  | nil => exact ⟨[], last, ev, rfl, ⟨rfl, rfl⟩, h⟩
  | cons x xs ih =>
    obtain ⟨st, ins, ev', hlen, rfl, h⟩ := h
    obtain ⟨ev₁, mid, ev₂, rfl, h₁, h₂⟩ := ih h
    exact ⟨_, mid, ev₂, (List.append_assoc ..).symm, ⟨st, ins, ev₁, hlen, rfl, h₁⟩, h₂⟩

/-- A replay of at least one entry where no exchange faults (R108). -/
theorem replay_completes {blob : List InitEntry} {s : State} (hne : blob ≠ []) (last : Option Byte) (hf : NoFault s) :
    ∃ s' bw ev st, (replay blob last).run s = .ok (some st, []) s' ∧ Replayed blob bw ev last (some st) s s' := by
  cases hr : (replay blob last).run s with
  | error e s' => exact absurd hf (replay_error (q := True) hr).faulted
  | ok a s' =>
    obtain ⟨bw, ev, final, rfl, h⟩ := replay_ok hr
    obtain ⟨st, rfl⟩ := replayEvents_final hne h.events
    exact ⟨s', bw, ev, st, rfl, h⟩

/-- What a completed replay of at least one entry is, with the empty case put aside. -/
theorem Replayed.nonempty {blob : List InitEntry} {bw ev : List Event} {last final : Option Byte} {s s' : State}
    (h : Replayed blob bw ev last final s s') (hne : blob ≠ []) :
    BankWork s.currentBank .b1 bw ∧ s'.currentBank = .known .b1 ∧ s'.trace = s.trace ++ bw ++ ev := by
  have hw := h.work
  have hb := h.belief
  rw [if_neg hne] at hw hb
  exact ⟨hw, hb, by rw [h.completed.issued.trace, List.append_assoc]⟩

/-- Settles O41: the empty blob is answered at once; any other by `replay_ok`. -/
theorem replayOfAnyBlob : Obligations.ReplayOfAnyBlob := by
  intro blob s hf
  refine ⟨rfl, fun hne => ?_⟩
  obtain ⟨s', bw, ev, st, hr, h⟩ := replay_completes hne none hf
  obtain ⟨hw, hb, ht⟩ := h.nonempty hne
  exact ⟨s', bw, ev, st, hr, hw, h.events, ht, hb⟩

theorem entryAddr_range (e : InitEntry) : 0x80 ≤ (entryAddr e).toNat ∧ (entryAddr e).toNat ≤ 0x8E := by
  have key : ∀ r : Fin 15, 0x80 ≤ (blobAddr r).toNat ∧ (blobAddr r).toNat ≤ 0x8E := by decide
  exact key e.reg

/-- Settles O40: INIT is the replay of the blob, whose entries fit their registers by their type. -/
theorem initCompletes : Obligations.InitCompletes := by
  refine ⟨fun s hf => ?_, fun e _ => ?_⟩
  · obtain ⟨s', bw, ev, st, hr, h⟩ := replay_completes initBlob_ne_nil none (hf.accept .init)
    obtain ⟨hw, hb, ht⟩ := h.nonempty initBlob_ne_nil
    have hc := h.completed
    exact ⟨_, bw, ev, some st, exec_of_ok (i := .init) hr, ⟨rfl, hc.issued.port⟩, hw, h.events, ht,
      congrArg (· ++ [Result.ok (some st) []]) hc.issued.results, hb,
      hc.ce.symm.trans (lastLevel_of_noDrive (hc.drives trivial)), hc.modeTrack trivial, h.cs initBlob_ne_nil⟩
  · obtain ⟨h₁, h₂⟩ := entryAddr_range e
    exact ⟨h₁, h₂, entry_value_lt e, deserialise_entryBytes e⟩

/-- Settles O42: the pulse is the end of the blob, so its two writes are the end of the replay. -/
theorem initEndsWithTogglePulse : Obligations.InitEndsWithTogglePulse := by
  intro s hf
  obtain ⟨s', bw, ev, st, hr, h⟩ := replay_completes initBlob_ne_nil none (hf.accept .init)
  obtain ⟨-, -, ht⟩ := h.nonempty initBlob_ne_nil
  obtain ⟨ev₁, mid, ev₂, rfl, -, hpulse⟩ := replayEvents_append h.events
  obtain ⟨x, y, a, b, hxy, hab, ha, hb, hxa, hxb, hy⟩ :=
    pulse_values Config.pulseReg Config.pulseValue Config.pulseBit Config.pulseGap
  rw [hxy] at hpulse
  obtain ⟨st₁, r₁, _, hl₁, rfl, st₂, r₂, _, hl₂, rfl, rfl, -⟩ := hpulse
  have hbits : blobBits Config.pulseReg = 8 * regWidth (blobAddr Config.pulseReg) := rfl
  refine ⟨_, bw ++ ev₁, st₁, r₁, st₂, r₂, Config.pulseReg, x, y, a, b, exec_of_ok (i := .init) hr, ?_, hl₁, hl₂, hab,
    by omega, by omega, by omega, by omega, hxa, hxb, hy⟩
  simpa using ht

/-- A replay that failed (R111): the entries written, the entry whose bank work or write was cut short, the rest. -/
theorem replay_failed {blob : List InitEntry} {last : Option Byte} {e : Err} {s s' : State}
    (h : (replay blob last).run s = .error e s') :
    ∃ written x rest ev, blob = written ++ x :: rest ∧ Issued ev s s' ∧
      ((written = [] ∧ FailedAt s.currentBank .b1 (entryCommand x) (entryBytes x) (entryBytes x).length .h2d ev
          s'.currentBank) ∨
        (written ≠ [] ∧ s'.currentBank = .known .b1 ∧ ∃ bw ev₁ final ev₂, BankWork s.currentBank .b1 bw ∧
          ReplayEvents written last ev₁ final ∧
          CutEvents (entryCommand x) (entryBytes x) (entryBytes x).length .h2d ev₂ ∧ ev = bw ++ ev₁ ++ ev₂)) := by
  induction blob generalizing last s with
  | nil => cases h
  | cons x xs ih =>
    obtain ⟨hdef, hbank, -⟩ := entryAddr_facts x
    unfold replay at h
    obtain h | ⟨r, s₁, h₁, h⟩ := Op.bind_error.1 h
    · rw [wreg_entry] at h
      obtain ⟨ev, hi, hfail⟩ := issue_register_failed (.inr rfl) ((definedAddr_iff _).1 hdef) h
      rw [hbank, entryCommand_eq] at hfail
      exact ⟨[], x, xs, ev, rfl, hi, .inl ⟨rfl, hfail⟩⟩
    · rw [wreg_entry] at h₁
      obtain ⟨outs, ins, bw, hd, rfl, -⟩ := issue_ok h₁
      have hw := hd.work
      have hb : s₁.currentBank = .known .b1 := by rw [hd.belief, encoder_write, hbank]; rfl
      have hi₁ := hd.issued
      rw [encoder_write, hbank] at hw
      rw [entryCommand_eq] at hi₁
      obtain ⟨written, y, rest, ev, rfl, hi, ⟨rfl, hfail⟩ | ⟨-, hb', bw', ev₁, final, ev₂, hw', hev, hcut, rfl⟩⟩ := ih h
      · rw [hb] at hfail
        obtain ⟨hcut, hb'⟩ := hfail.from_known
        exact ⟨[x], y, rest, _, rfl, hi₁.trans hi, .inr ⟨by simp, hb', bw, _, _, ev, hw,
          ⟨r.1, ins, [], hd.len, rfl, rfl, rfl⟩, hcut, by simp⟩⟩
      · rw [hb] at hw'
        obtain rfl := bankWork_same hw'
        exact ⟨x :: written, y, rest, _, rfl, hi₁.trans hi, .inr ⟨by simp, hb', bw, _, final, ev₂, hw,
          ⟨r.1, ins, ev₁, hd.len, rfl, hev⟩, hcut, by simp⟩⟩

/-- Settles O43: a failed INIT is the failed replay of the blob. -/
theorem failedInitIsAPrefix : Obligations.FailedInitIsAPrefix := by
  intro s t h hr
  obtain ⟨-, s', hb, -, rfl⟩ := exec_transportFailure h hr
  obtain ⟨written, x, rest, ev, hblob, hi, hcase⟩ := replay_failed (s := s.accept .init) hb
  exact ⟨written, x, rest, ev, hblob, hi.trace, hcase⟩

end Sys2Proof.Machine
end

section
/-! Failed transitions and power levels (spec/43_mode_controller.md R103, spec/40_bank_tracker.md R72). -/

namespace Sys2Proof.Machine

/-- What a failed composite request has issued after the events `pre`: its first register access of command byte `cmd`
failed, or that access returned a byte `d` and `later d` was issued after it. -/
def StoppedAfter (pre : List Event) (cmd : Byte) (later : Byte → List Event → Prop) (s t : State) : Prop :=
  ∃ ev, t.trace = s.trace ++ pre ++ ev ∧
    (FailedAt s.currentBank .b0 cmd [] 1 .d2h ev t.currentBank ∨
      (t.currentBank = .known .b0 ∧ ∃ bw st f d ev', BankWork s.currentBank .b0 bw ∧
        ev = bw ++ frameEvents cmd st [f] [d] ++ ev' ∧ later d ev'))

/-- A failed read-modify-write of a bank-0 register, its command bytes `rd` and `wr` and its function written out. -/
theorem StoppedAfter.of_modify {la rd wr : Byte} {f g : Byte → Byte} {e : Err} {s s₀ s' : State} {pre : List Event}
    (h : (modifyRegister la f).run s₀ = .error e s') (hc : registerCheck la 1 = none) (hbank : bankOf la = .b0)
    (hrd : (commandEncoder .readRegister la).byte = rd) (hwr : (commandEncoder .writeRegister la).byte = wr)
    (hfg : ∀ d, f d = g d) (htr : s₀.trace = s.trace ++ pre) (hbel : s₀.currentBank = s.currentBank) :
    StoppedAfter pre rd (fun d => CutEvents wr [g d] 1 .h2d) s s' := by
  obtain ⟨ev, hi, hcase⟩ := modifyRegister_failed hc h
  rw [hbank, hbel, hrd, hwr] at hcase
  simp only [hfg] at hcase
  exact ⟨ev, by rw [hi.trace, htr], hcase⟩

/-- A body that drives chip-enable low and modifies CONFIG fails in that modification. -/
theorem configBody_failed {f : Byte → Byte} {k : Byte → Op Answer} {e : Err} {s s' : State}
    (hk : ∀ st s e s', (k st).run s ≠ .error e s')
    (h : (driveCe .low >>= fun _ => modifyRegister configAddr f >>= k).run s = .error e s') :
    (modifyRegister configAddr f).run ((s.setCe .low).note (.ce .low)) = .error e s' := by
  rw [Op.bind_of_ok (driveCe_run .low s)] at h
  obtain h | ⟨st, s₁, -, h⟩ := Op.bind_error.1 h
  · exact h
  · exact absurd h (hk st s₁ e s')

/-- What a transition does after its last write to CONFIG cannot fail: recording the mode. -/
theorem enterMode_not_error (m : Mode) (st : Byte) (s : State) (e : Err) (s' : State) :
    (enterMode m >>= fun _ => (pure (some st, []) : Op Answer)).run s ≠ .error e s' := nofun

/-- The same with a drive of chip-enable before it. -/
theorem driveEnterMode_not_error (m : Mode) (st : Byte) (s : State) (e : Err) (s' : State) :
    (driveCe .high >>= fun _ => enterMode m >>= fun _ => (pure (some st, []) : Op Answer)).run s ≠ .error e s' := nofun

/-- A read-modify-write of CONFIG that failed after chip-enable went low. -/
theorem StoppedAfter.of_config {f g : Byte → Byte} {e : Err} {s s' : State}
    (h : (modifyRegister configAddr f).run ((s.setCe .low).note (.ce .low)) = .error e s') (hfg : ∀ d, f d = g d) :
    StoppedAfter [.ce .low] 0x00 (fun d => CutEvents 0x20 [g d] 1 .h2d) s s' :=
  .of_modify h config_check (by decide) (by decide) (by decide) hfg rfl rfl

theorem powerDown_failed {e : Err} {s s' : State} (h : powerDownBody.run s = .error e s') :
    StoppedAfter [.ce .low] 0x00 (fun d => CutEvents 0x20 [d &&& 0xFD] 1 .h2d) s s' :=
  .of_config (configBody_failed (enterMode_not_error .powerDown) h) and_not_pwrUp

theorem standby_failed {e : Err} {s s' : State} (h : standbyBody.run s = .error e s') :
    StoppedAfter [.ce .low] 0x00 (fun d => CutEvents 0x20 [d ||| 0x02] 1 .h2d) s s' :=
  .of_config (configBody_failed (enterMode_not_error .standbyI) h) fun _ => rfl

theorem tx_failed {e : Err} {s s' : State} (h : txBody.run s = .error e s') :
    StoppedAfter [.ce .low] 0x00 (fun d => CutEvents 0x20 [d &&& 0x02] 1 .h2d) s s' :=
  .of_config (configBody_failed (driveEnterMode_not_error .tx) h) and_pwrUp_and_not_primRx

/-- The STATUS write-back was cut short, or it completed, and then the read-modify-write of CONFIG was. -/
theorem rx_failed {e : Err} {s s' : State} (h : rxBody.run s = .error e s') :
    StoppedAfter [] 0x07 RxFailedAfterRead s s' := by
  have hread : (commandEncoder .readRegister statusAddr).byte = 0x07 := by decide
  have hwrite : (commandEncoder .writeRegister statusAddr).byte = 0x27 := by decide
  unfold rxBody at h
  obtain h | ⟨st₁, s₁, h₁, h⟩ := Op.bind_error.1 h
  · obtain ⟨ev, htr, hfail | ⟨hb, bw, st, f, d, ev', hw, hev, hcut⟩⟩ :=
      StoppedAfter.of_modify (s := s) (pre := []) h status_check (by decide) hread hwrite (fun _ => rfl) (by simp) rfl
    · exact ⟨ev, htr, .inl hfail⟩
    · exact ⟨ev, htr, .inr ⟨hb, bw, st, f, d, ev', hw, hev, .inl hcut⟩⟩
  · obtain ⟨ev₁, hm⟩ := modifyRegister_ok status_check h₁
    obtain ⟨bw, st, f, d, r, hw, htr₁⟩ := hm.trace
    rw [hread, hwrite] at htr₁
    obtain ⟨ev, htr, hcase⟩ := StoppedAfter.of_config (configBody_failed (driveEnterMode_not_error .rx) h) or_pwrUp_or_primRx
    have hknown : s₁.currentBank = .known .b0 := hm.belief
    rw [hknown] at hcase
    have htrace : s'.trace = s.trace ++ [] ++ (bw ++ frameEvents 0x07 st [f] [d] ++
        (frameEvents 0x27 st₁ [d] [r] ++ [.ce .low] ++ ev)) := by
      rw [htr, htr₁]
      simp only [List.append_assoc, List.append_nil]
    obtain hfail | ⟨hb, bw', st', f', c, ev₂, hw', rfl, hcut⟩ := hcase
    · obtain ⟨hcut, hb⟩ := hfail.from_known
      exact ⟨_, htrace, .inr ⟨hb, bw, st, f, d, _, hw, rfl, .inr ⟨st₁, r, ev, rfl, .inl hcut⟩⟩⟩
    · obtain rfl := bankWork_same hw'
      exact ⟨_, htrace, .inr ⟨hb, bw, st, f, d, _, hw, rfl,
        .inr ⟨st₁, r, _, rfl, .inr ⟨st', f', c, ev₂, rfl, hcut⟩⟩⟩⟩

theorem power_failed {levels level : Nat} {fold : Byte → Nat → Byte} {e : Err} {s s' : State}
    (h : (powerBody levels fold level).run s = .error e s') :
    StoppedAfter [] 0x06 (fun d => CutEvents 0x26 [fold d level] 1 .h2d) s s' := by
  have hl := (power_error (q := True) h).1
  unfold powerBody at h
  rw [if_neg (by omega)] at h
  obtain h | ⟨st, s₁, -, h⟩ := Op.bind_error.1 h
  · exact .of_modify h rfSetup_check (by decide) (by decide) (by decide) (fun _ => rfl) (by simp) rfl
  · cases h

/-- The last chip-enable drive of a failure is before its faulted exchange. -/
theorem Failed.last_drive {q : Prop} {e : Err} {s s' : State} (h : Failed q e s s') :
    ∃ pre out, faultCount pre = 0 ∧ s'.trace = s.trace ++ (pre ++ [.xf out, .csd, .dly 20]) ∧
      s'.ce = lastLevel s.ce pre := by
  obtain ⟨_, ⟨pre, out, hz, rfl⟩, -, hce, -, hi⟩ := h.issued
  refine ⟨pre, out, hz, hi.trace, ?_⟩
  rw [← hce, lastLevel_append]
  rfl

/-- Settles O32: each of the five bodies by where it failed. -/
theorem failedTransitionStops : Obligations.FailedTransitionStops := by
  intro i pre cmd later s t hcase h hr
  obtain ⟨-, s', hb, hfail, rfl⟩ := exec_transportFailure h hr
  refine ⟨hfail.modeTrack, hfail.last_drive, ?_⟩
  show StoppedAfter pre cmd later (s.accept i) s'
  obtain ⟨rfl, rfl, rfl, rfl⟩ | ⟨rfl, rfl, rfl, rfl⟩ | ⟨rfl, rfl, rfl, rfl⟩ | ⟨rfl, rfl, rfl, rfl⟩ |
    ⟨level, rfl, rfl, rfl, rfl⟩ := hcase
  · exact powerDown_failed hb
  · exact standby_failed hb
  · exact tx_failed hb
  · exact rx_failed hb
  · exact power_failed hb

end Sys2Proof.Machine
end

section
/-! The byte record and the command byte table (spec/30_encoding.md R58, R59, R62; notes/assumptions/1.md). -/

namespace Sys2Proof

/-- A byte of R58 is decoded by its row. -/
theorem decode_command {b : Byte} {o : Opcode} (h : opcodeOf b = some o) (bs : List Byte) :
    decode (b :: bs) = decodeOperands o b bs := by
  simp only [decode, h]

theorem decode_readRegister (la : Byte) {n : Nat} (hn : n < 256) (rest : List Byte) :
    decode (encode (.readRegister la n) ++ rest) = .ok (.readRegister la n, rest) := by
  have haddr := takeAddress_addressBytes (.inl rfl) la (countByte n :: rest)
  have hcount := takeCount_countByte hn rest
  show decode ((commandEncoder .readRegister la).byte :: (la &&& 0xE0) :: countByte n :: rest) = _
  rw [decode_command (opcodeOf_readRegister la), decodeOperands, haddr]
  simp only [bind, Except.bind, hcount]
  rfl

theorem decode_writeRegister (la : Byte) {v : List Byte} (hv : v.length < 256) (rest : List Byte) :
    decode (encode (.writeRegister la v) ++ rest) = .ok (.writeRegister la v, rest) := by
  have haddr := takeAddress_addressBytes (.inr rfl) la (payloadBytes v ++ rest)
  have hpayload := takePayload_payloadBytes hv rest
  show decode ((commandEncoder .writeRegister la).byte :: (la &&& 0xE0) :: (payloadBytes v ++ rest)) = _
  rw [decode_command (opcodeOf_writeRegister la), decodeOperands, haddr]
  simp only [bind, Except.bind, hpayload]
  rfl

theorem decode_readRxPayload {n : Nat} (hn : n < 256) (rest : List Byte) :
    decode (encode (.readRxPayload n) ++ rest) = .ok (.readRxPayload n, rest) := by
  have hcount := takeCount_countByte hn rest
  show decode (Opcode.readRxPayload.base :: countByte n :: rest) = _
  rw [decode_command (o := .readRxPayload) (by decide), decodeOperands, hcount]
  rfl

theorem decode_writeTxPayload {v : List Byte} (hv : v.length < 256) (rest : List Byte) :
    decode (encode (.writeTxPayload v) ++ rest) = .ok (.writeTxPayload v, rest) := by
  have hpayload := takePayload_payloadBytes hv rest
  show decode (Opcode.writeTxPayload.base :: (payloadBytes v ++ rest)) = _
  rw [decode_command (o := .writeTxPayload) (by decide), decodeOperands, hpayload]
  rfl

theorem decode_writeTxPayloadNoAck {v : List Byte} (hv : v.length < 256) (rest : List Byte) :
    decode (encode (.writeTxPayloadNoAck v) ++ rest) = .ok (.writeTxPayloadNoAck v, rest) := by
  have hpayload := takePayload_payloadBytes hv rest
  show decode (Opcode.writeTxPayloadNoAck.base :: (payloadBytes v ++ rest)) = _
  rw [decode_command (o := .writeTxPayloadNoAck) (by decide), decodeOperands, hpayload]
  rfl

theorem decode_writeAckPayload {p : Nat} {v : List Byte} (hp : p < 8) (hv : v.length < 256) (rest : List Byte) :
    decode (encode (.writeAckPayload p v) ++ rest) = .ok (.writeAckPayload p v, rest) := by
  have hpayload := takePayload_payloadBytes hv rest
  have hpipe := pipe_of_command hp
  show decode ((commandEncoder .writeAckPayload (BitVec.ofNat 8 p)).byte :: (payloadBytes v ++ rest)) = _
  rw [decode_command (opcodeOf_writeAckPayload _), decodeOperands, hpayload]
  simp only [bind, Except.bind, hpipe]
  rfl

theorem decode_setPwr {level : Nat} (hl : level < 256) (rest : List Byte) :
    decode (encode (.setPwr level) ++ rest) = .ok (.setPwr level, rest) := by
  show Except.ok (Instr.setPwr (BitVec.ofNat 8 level).toNat, rest) = _
  rw [BitVec.toNat_ofNat, Nat.mod_eq_of_lt hl]

/-- Settles O1: operand by operand, the reader of each part of the record takes back what its writer wrote. -/
theorem decodeReadsBackEncode : Obligations.DecodeReadsBackEncode := by
  intro i rest hw
  cases i with
  | readRegister la n => exact decode_readRegister la (by simpa [WellFormed] using hw) rest
  | writeRegister la v => exact decode_writeRegister la (by simpa [WellFormed] using hw) rest
  | readRxPayload n => exact decode_readRxPayload (by simpa [WellFormed] using hw) rest
  | writeTxPayload v => exact decode_writeTxPayload (by simpa [WellFormed] using hw) rest
  | writeTxPayloadNoAck v => exact decode_writeTxPayloadNoAck (by simpa [WellFormed] using hw) rest
  | writeAckPayload p v =>
    obtain ⟨hp, hv⟩ : p < 8 ∧ v.length < 256 := by simpa [WellFormed] using hw
    exact decode_writeAckPayload hp hv rest
  | setPwr level => exact decode_setPwr (by simpa [WellFormed] using hw) rest
  | flushTx => rfl
  | flushRx => rfl
  | reuseTxPayload => rfl
  | activate b => rfl
  | readRxPayloadWidth => rfl
  | nop => rfl
  | modePD => rfl
  | modeSB => rfl
  | modeRX => rfl
  | modeTX => rfl
  | init => rfl
  | reset => rfl

/-- Settles O2: fixed bytes, decoded. -/
theorem specWordsDecode : Obligations.SpecWordsDecode := by
  refine ⟨?_, ?_, ?_, ?_, ?_, ?_, ?_, ?_, ?_, ?_, ?_, ?_, ?_, ?_⟩ <;> rfl

/-- The byte of a pipe operand (R56). -/
theorem encoder_writeAckPayload_byte (x : Byte) :
    commandEncoder .writeAckPayload x = ⟨0xA8 ||| (x &&& 0x07), .h2d, none⟩ := by
  revert x
  decide +kernel

/-- Settles O3: the operand goes into the byte for formats R and P; the nine rows of format N do not look at it. -/
theorem commandEncoderTable : Obligations.CommandEncoderTable := by
  intro x
  exact ⟨Machine.encoder_readRegister x, Machine.encoder_writeRegister x, encoder_writeAckPayload_byte x, rfl, rfl, rfl, rfl,
    rfl, rfl, rfl, rfl, rfl⟩

theorem Opcode.mem_all (o : Opcode) : o ∈ Opcode.all := by
  cases o <;> decide

/-- Settles O4: of the list of all rows, an emitted byte passes the match of exactly one. -/
theorem emittedByteMatchesOneRow : Obligations.EmittedByteMatchesOneRow := by
  have key : ∀ b : Byte, Machine.emittedByte b = true →
      ∃ o ∈ Opcode.all, o.matchesByte b = true ∧ ∀ p ∈ Opcode.all, p.matchesByte b = true → p = o := by decide +kernel
  intro b hb
  obtain ⟨o, -, ho, huniq⟩ := key b hb
  exact ⟨o, ho, fun p hp => huniq p p.mem_all hp⟩

end Sys2Proof
end

section
/-! Session construction and the step (spec/70_reset_and_hazards.md R126, R127; spec/00_scope.md R7, R8). -/

namespace Sys2Proof.Machine

/-- Settles O45: construction, and the result appended. -/
theorem resetExactly : Obligations.ResetExactly := fun _ => rfl

/-- Settles O44: the fields of State.reset, and those of `ResetExactly`. -/
theorem resetValues : Obligations.ResetValues := by
  refine ⟨⟨rfl, rfl, rfl, rfl, rfl, rfl, rfl, rfl, rfl, rfl⟩, fun s => ⟨_, resetExactly s, rfl, rfl, rfl, rfl, rfl, rfl, rfl,
    rfl, fun h => ?_, fun F rest h => ⟨?_, ?_⟩⟩⟩
  · show s.sessionFaults.headD [] = []
    rw [h]
    rfl
  · show s.sessionFaults.headD [] = F
    rw [h]
    rfl
  · show s.sessionFaults.tail = rest
    rw [h]
    rfl

/-! ### The step, by what is at the port -/

theorem step_request {s : State} {i : Instr} {rest : List Input} (hs : s.phase = .idle)
    (hp : s.port = .request i :: rest) : step s = exec i (s.setPort rest) := by
  rw [step, hs, hp]

theorem step_external {s : State} {d : Device} {rest : List Input} (hs : s.phase = .idle)
    (hp : s.port = .external d :: rest) : step s = .next ((s.setPort rest).externalEvent d) := by
  rw [step, hs, hp]

theorem step_waits {s : State} (hs : s.phase = .idle) (hp : s.port = []) : step s = .next s := by
  rw [step, hs, hp]

theorem step_busy {s : State} {i : Instr} {k : Nat} (hs : s.phase = .busy i k) : step s = .fault .sequencerBusy := by
  rw [step, hs]

/-- Presenting a request and taking it from the port leaves the port as it was, and the block Idle. -/
theorem State.present_setPort (s : State) (i : Instr) : (s.present i).setPort s.port = s.setPhase .idle := rfl

/-- Settles O46: the four cases of `step`, and `withFetchWord` presents the decoded request. -/
theorem stepRunsThePresentedRequest : Obligations.StepRunsThePresentedRequest := by
  refine ⟨fun i rest s hs hp => step_request hs hp, fun nbits w i s hdec => ?_, fun s hs hp => step_waits hs hp,
    fun s i k hs => step_busy hs⟩
  have hpresent : s.withFetchWord nbits w = s.present i := by rw [State.withFetchWord, hdec]
  rw [hpresent, step_request (s.present_phase i) (s.present_port i), State.present_setPort]

/-- Settles O47: the event sets the device alone, as R47 stores it. -/
theorem externalEventIsInvisible : Obligations.ExternalEventIsInvisible := by
  intro s d rest hs hp
  exact ⟨_, step_external hs hp, rfl, rfl, rfl, rfl, hs, rfl, rfl, rfl, rfl, rfl, rfl, rfl,
    fun hwf a => Device.settled_cell hwf a⟩

/-! ### The invariant -/

/-- Every request keeps the device's memory as R47 has it and leaves no frame open. -/
theorem exec_keepsDev {i : Instr} {s t : State} (h : exec i s = .next t) : KeepsDev s t := by
  have hk := keepsDev_body i (s.accept i)
  obtain ⟨a, s', hr, rfl⟩ | ⟨e, s', hr, rfl⟩ := exec_cases h
  · have hdev := hk.1 a s' hr
    exact ⟨hdev.frame, hdev.wf⟩
  · have hdev := hk.2 e s' hr
    exact ⟨hdev.frame, hdev.wf⟩

theorem exec_idle {i : Instr} {s t : State} (h : exec i s = .next t) : t.phase = .idle := by
  obtain ⟨a, s', -, rfl⟩ | ⟨e, s', -, rfl⟩ := exec_cases h <;> rfl

/-- Every request keeps the invariant. -/
theorem exec_keepsInv {i : Instr} {s t : State} (hs : Inv s) (h : exec i s = .next t) : Inv t := by
  obtain ⟨hlegal, hcs⟩ := requestsEmitLegalFrames i s t h hs.legal hs.released
  have hdev := exec_keepsDev h
  obtain ⟨hwf, hbit⟩ := hdev.wf ⟨hs.canonical, hs.statusBit⟩
  exact ⟨exec_idle h, hcs, hlegal, hdev.frame hs.noFrame, hwf, hbit⟩

theorem Inv.setPort {s : State} (h : Inv s) (p : List Input) : Inv (s.setPort p) :=
  ⟨h.idle, h.released, h.legal, h.noFrame, h.canonical, h.statusBit⟩

/-- An outside event leaves a settled device and the block as it was. -/
theorem Inv.externalEvent {s : State} (h : Inv s) (d : Device) : Inv (s.externalEvent d) :=
  ⟨h.idle, h.released, h.legal, rfl, d.settled_wf, d.settled_statusBit⟩

/-- Settles O48: an Idle step waits, runs a request, or takes an outside event. -/
theorem stepKeepsInv : Obligations.StepKeepsInv := by
  intro s t hs h
  cases hp : s.port with
  | nil =>
    rw [step_waits hs.idle hp] at h
    cases h
    exact hs
  | cons x rest =>
    cases x with
    | request i =>
      rw [step_request hs.idle hp] at h
      exact exec_keepsInv (hs.setPort rest) h
    | external d =>
      rw [step_external hs.idle hp] at h
      cases h
      exact (hs.setPort rest).externalEvent d

/-- Settles O49: nothing has been written at construction, and STATUS is stored without its bit 7. -/
theorem resetHasInv : Obligations.ResetHasInv :=
  ⟨rfl, rfl, rfl, rfl, List.Pairwise.nil, Device.storedByte_bit _⟩

end Sys2Proof.Machine
end

section
/-! The resolution read and its bytes (spec/40_bank_tracker.md R68, R73). -/

namespace Sys2Proof.Machine

/-- An exchange whose ordinal is not in `F` returns what the device's side gives. -/
theorem exchangeOrAbort_run {s : State} (hk : s.exchanges ∉ s.faultSet) (out : Byte) :
    (exchangeOrAbort out).run s = .ok (inbound s) (s.exchanged out (inbound s)) := by
  unfold exchangeOrAbort
  rw [Op.bind_of_ok (s₁ := s.exchanged out (inbound s)) (a := some (inbound s)) (by rw [exchange_run, if_neg hk])]
  rfl

/-- The outside puts its own byte in place of the device's answer. -/
theorem inbound_byte {s : State} {m : Move} {rest : List Move} {b : Byte} {wire : List Wire} (hw : s.world = m :: rest)
    (hm : m.wire = .byte b :: wire) : inbound s = b := by
  rw [inbound, hw, wireOf, hm]
  rfl

/-- The state after the two exchanges of a resolution read that returned `st` and `d`. -/
def resolved (s : State) (st d : Byte) : State :=
  ((((s.opened.exchanged 0x07 st).countDraw.exchanged (Config.filler s.draws) d).aborted).setBank
    (.known (statusBank d)))

/-- A resolution read of which neither exchange faults, computed. -/
theorem resolve_run {s : State} {st d : Byte} (h₁ : s.exchanges ∉ s.faultSet) (h₂ : s.exchanges + 1 ∉ s.faultSet)
    (hst : inbound s.opened = st) (hd : inbound (s.opened.exchanged 0x07 st).countDraw = d) :
    resolve.run s = .ok () (resolved s st d) := by
  have hcmd := exchangeOrAbort_run (s := s.opened) h₁ 0x07
  have hdata := exchangeOrAbort_run (s := (s.opened.exchanged 0x07 st).countDraw) h₂ (Config.filler s.draws)
  rw [hst] at hcmd
  rw [hd] at hdata
  have hrecv : (receiveBytes 1).run (s.opened.exchanged 0x07 st) =
      .ok [d] ((s.opened.exchanged 0x07 st).countDraw.exchanged (Config.filler s.draws) d) :=
    (Op.bind_of_ok (show drawFiller.run _ = .ok _ _ from rfl)).trans ((Op.bind_of_ok hdata).trans rfl)
  have hexec : (execute 0x07 [] 1 .d2h).run s =
      .ok (st, [d]) ((s.opened.exchanged 0x07 st).countDraw.exchanged (Config.filler s.draws) d).aborted :=
    (Op.bind_of_ok (show csAssert.run s = .ok () s.opened from rfl)).trans
      ((Op.bind_of_ok hcmd).trans ((Op.bind_of_ok (x := payload [] 1 .d2h) hrecv).trans rfl))
  unfold resolve
  rw [show (commandEncoder .readRegister statusAddr).byte = 0x07 from rfl, Op.bind_of_ok hexec]
  rfl

/-- Settles O22: the two bytes the outside returns are the status byte and the byte that names the bank. -/
theorem resolutionTakesTheByte : Obligations.ResolutionTakesTheByte := by
  intro s st d m rest hw hm h₁ h₂
  have hst : inbound s.opened = st := inbound_byte (s := s.opened) hw hm
  have hd : inbound (s.opened.exchanged 0x07 st).countDraw = d := by
    refine inbound_byte (m := { m with wire := m.wire.tail }) (rest := rest) (wire := []) ?_ (by simp [hm])
    rw [State.countDraw_world, State.exchanged_world, State.note_world, State.setCs_world, hw]
    rfl
  refine ⟨resolved s st d, Config.filler s.draws, resolve_run h₁ h₂ hst hd, rfl, ?_, ?_⟩
  · simp [resolved, State.aborted, frameEvents]
  · rintro rfl
    rfl

end Sys2Proof.Machine
end

section
/-! What the frames of commands do to the device (spec/20_memory.md R49 to R51). -/

namespace Sys2Proof.Machine

/-- The base value of every row of R58 matches that row. -/
theorem opcodeOf_base (o : Opcode) : opcodeOf o.base = some o := by
  cases o <;> decide

/-- The command byte of every command matches its own row of R58. -/
theorem opcodeOf_word (o : Opcode) (x : Byte) : opcodeOf (commandEncoder o x).byte = some o := by
  cases o
  case readRegister => exact opcodeOf_readRegister x
  case writeRegister => exact opcodeOf_writeRegister x
  case writeAckPayload => exact opcodeOf_writeAckPayload x
  all_goals exact opcodeOf_base _

/-- A frame that is no toggle leaves the selected bank (R42). -/
theorem perform_bank {d : Device} {cmd : Byte} {data : List Byte}
    (h : opcodeOf cmd = some .activate → data ≠ [toggleCode]) : (d.perform cmd data).bank = d.bank := by
  unfold Device.perform
  cases ho : opcodeOf cmd with
  | none => rfl
  | some o =>
    cases o
    case writeRegister => exact Device.writeRegister_bank d _ data
    case activate =>
      dsimp only
      rw [if_neg (h ho)]
    all_goals rfl

/-- A frame that is no WriteRegister leaves every register byte (R49, R51). -/
theorem perform_cell {d : Device} {cmd : Byte} {data : List Byte} (h : opcodeOf cmd ≠ some .writeRegister) (a : Nat) :
    (d.perform cmd data).cell a = d.cell a := by
  unfold Device.perform
  cases ho : opcodeOf cmd with
  | none => rfl
  | some o =>
    cases o
    case writeRegister => exact absurd ho h
    case activate =>
      dsimp only
      split <;> rfl
    all_goals rfl

/-! ### A command on the bench -/

/-- The bank guard changes of the device at most the selected bank. -/
theorem benchGuard_dev_bank {s : State} (hb : OnBench s) (t : Option Bank) :
    ∃ k, (benchGuard s t).dev = { s.dev with bank := k } := by
  cases t with
  | none => exact ⟨s.dev.bank, rfl⟩
  | some t => exact ⟨_, benchGuard_dev hb t⟩

/-- The bank guard keeps the belief right. -/
theorem Agrees.guard {s : State} (hb : OnBench s) (ha : Agrees s) (t : Option Bank) : Agrees (benchGuard s t) := by
  cases t with
  | none => exact ha
  | some t =>
    intro k hk
    rw [benchGuard_belief] at hk
    cases hk
    rw [benchGuard_dev hb, guardedBank_of_agrees ha]

/-- A transaction of Activate sends its payload, whatever the draws. -/
theorem benchOuts_of_activate {o : Opcode} (ho : o = .activate) (x : Byte) (k : Nat) (buf : List Byte) (n : Nat) :
    benchOuts k buf n (commandEncoder o x).dir = buf := by
  subst ho
  rfl

/-- A command that is no toggle keeps the belief right (spec/10_state.md R20). -/
theorem issue_bench_agrees {s : State} (hb : OnBench s) (ha : Agrees s) {o : Opcode} (x : Byte) {buf : List Byte} (n : Nat)
    (ht : o = .activate → buf ≠ [toggleCode]) : ∃ r s', (issue o x buf n).run s = .ok r s' ∧ OnBench s' ∧ Agrees s' := by
  refine ⟨_, _, issue_bench hb o x buf n, benchState_onBench (hb.guard _) _ _ _ _, fun k hk => ?_⟩
  rw [benchState_dev]
  refine (perform_bank fun ho => ?_).trans (ha.guard hb _ k hk)
  obtain rfl : o = .activate := by simpa [opcodeOf_word] using ho
  rw [benchOuts_of_activate rfl]
  exact ht rfl

/-- A command that is no WriteRegister leaves every register byte. -/
theorem issue_bench_cell {s : State} (hb : OnBench s) {o : Opcode} (x : Byte) (buf : List Byte) (n : Nat)
    (ho : o ≠ .writeRegister) :
    ∃ r s', (issue o x buf n).run s = .ok r s' ∧ ∀ a, s'.dev.cell a = s.dev.cell a := by
  refine ⟨_, _, issue_bench hb o x buf n, fun a => ?_⟩
  obtain ⟨k, hk⟩ := benchGuard_dev_bank hb (commandEncoder o x).bank
  rw [benchState_dev, Device.cell_frame, perform_cell (by rw [opcodeOf_word]; simpa using ho), hk, Device.cell_bank]

/-- A command request with valid operands, on the bench, computed. -/
theorem exec_command_bench {i : Instr} {c : Command} {s : State} (h : commandOf i = some c) (ho : operandError i = none)
    (hb : OnBench s) : exec i s = .next (benchCommand (s.accept i) c.opcode c.operand c.buf c.n) :=
  exec_bench (body_command_valid h ho _) hb

/-- A command request without a target bank, on the bench: what it does to the device, and its result. -/
theorem exec_unguarded_bench {i : Instr} {c : Command} {s : State} (h : commandOf i = some c) (ho : operandError i = none)
    (hbank : c.word.bank = none) (hb : OnBench s) :
    ∃ t, exec i s = .next t ∧ OnBench t ∧ t.currentBank = s.currentBank ∧
      t.dev = { s.dev.perform c.word.byte (benchOuts s.draws c.buf c.n c.word.dir) with frame := [] } ∧
      t.results = s.results ++ [.ok (some s.dev.statusView) (benchData s.dev c.word.byte c.n c.word.dir)] := by
  refine ⟨_, exec_command_bench h ho hb, benchCommand_onBench (hb.accept i) _ _ _ _, ?_,
    benchCommand_dev_unguarded hbank _ _, benchCommand_results_unguarded hbank _ _⟩
  rw [benchCommand_belief, hbank]
  rfl

end Sys2Proof.Machine
end

section
/-! The composite requests as one induction over how their bodies are built, and the belief against the reference
emulation (spec/10_state.md R20). -/

namespace Sys2Proof.Machine

/-- A property of operations that the pieces of the composite requests have, and that composition keeps. -/
structure BodyClosed (P : ∀ {α : Type}, Op α → Prop) : Prop where
  pure : ∀ {α : Type} (a : α), P (pure a : Op α)
  bind : ∀ {α β : Type} {x : Op α} {f : α → Op β}, P x → (∀ a, P (f a)) → P (x >>= f)
  check : ∀ c, P (check c)
  read : ∀ la n, P (issue .readRegister la [] n)
  write : ∀ la v, P (issue .writeRegister la v v.length)
  drive : ∀ l, P (driveCe l)
  enter : ∀ m, P (enterMode m)

section
variable {P : ∀ {α : Type}, Op α → Prop} (h : BodyClosed P)
include h

theorem BodyClosed.rreg (la : Byte) (n : Nat) : P (rreg la n) := h.bind (h.check _) fun _ => h.read la n

theorem BodyClosed.wreg (la : Byte) (v : List Byte) : P (wreg la v) := h.bind (h.check _) fun _ => h.write la v

theorem BodyClosed.modify (la : Byte) (f : Byte → Byte) : P (modifyRegister la f) :=
  h.bind (h.rreg la 1) fun _ => h.bind (h.wreg la _) fun _ => h.pure _

theorem BodyClosed.replay (blob : List InitEntry) (last : Option Byte) : P (replay blob last) := by
  induction blob generalizing last with
  | nil => exact h.pure _
  | cons e es ih => exact h.bind (h.wreg _ _) fun r => ih (some r.1)

theorem BodyClosed.power (levels : Nat) (fold : Byte → Nat → Byte) (level : Nat) : P (powerBody levels fold level) := by
  unfold powerBody
  split
  · exact h.pure _
  · exact h.bind (h.modify _ _) fun _ => h.pure _

/-- A composite request other than a reset is built of these pieces. -/
theorem BodyClosed.composite {i : Instr} (hc : commandOf i = none) (hi : i ≠ .reset) : P (body i) := by
  cases i
  case modePD => exact h.bind (h.drive _) fun _ => h.bind (h.modify _ _) fun _ => h.bind (h.enter _) fun _ => h.pure _
  case modeSB => exact h.bind (h.drive _) fun _ => h.bind (h.modify _ _) fun _ => h.bind (h.enter _) fun _ => h.pure _
  case modeRX =>
    exact h.bind (h.modify _ _) fun _ => h.bind (h.drive _) fun _ => h.bind (h.modify _ _) fun _ =>
      h.bind (h.drive _) fun _ => h.bind (h.enter _) fun _ => h.pure _
  case modeTX =>
    exact h.bind (h.drive _) fun _ => h.bind (h.modify _ _) fun _ => h.bind (h.drive _) fun _ =>
      h.bind (h.enter _) fun _ => h.pure _
  case setPwr level => exact h.power _ _ level
  case init => exact h.replay _ _
  case reset => exact absurd rfl hi
  all_goals cases hc

end

/-- On the bench and with a right belief before, so after. -/
def KeepsBelief (s s' : State) : Prop := OnBench s ∧ Agrees s → OnBench s' ∧ Agrees s'

theorem KeepsBelief.refl (s : State) : KeepsBelief s s := id

theorem KeepsBelief.trans {a b c : State} (h₁ : KeepsBelief a b) (h₂ : KeepsBelief b c) : KeepsBelief a c :=
  fun h => h₂ (h₁ h)

/-- An operation that completes on the bench and keeps the belief right there. -/
theorem keepsBelief_of_run {α : Type} {x : Op α}
    (h : ∀ s, OnBench s → Agrees s → ∃ a s', x.run s = .ok a s' ∧ OnBench s' ∧ Agrees s') : Op.Keeps KeepsBelief x := by
  intro s
  refine ⟨fun a s' hr hs => ?_, fun e s' hr hs => ?_⟩
  · obtain ⟨a', s'', hr', hs'⟩ := h s hs.1 hs.2
    rw [hr] at hr'
    cases hr'
    exact hs'
  · obtain ⟨a', s'', hr', -⟩ := h s hs.1 hs.2
    rw [hr] at hr'
    cases hr'

theorem keepsBelief_check (c : Option Err) : Op.Keeps KeepsBelief (check c) := by
  cases c with
  | none => exact Op.keeps_pure KeepsBelief.refl ()
  | some e => exact Op.keeps_throw KeepsBelief.refl e

theorem keepsBelief_issue {o : Opcode} (x : Byte) {buf : List Byte} (n : Nat) (ht : o = .activate → buf ≠ [toggleCode]) :
    Op.Keeps KeepsBelief (issue o x buf n) :=
  keepsBelief_of_run fun _ hb ha => issue_bench_agrees hb ha x n ht

theorem keepsBelief_closed : BodyClosed (fun x => Op.Keeps KeepsBelief x) where
  pure := Op.keeps_pure KeepsBelief.refl
  bind := Op.keeps_bind (R := KeepsBelief) KeepsBelief.trans
  check := keepsBelief_check
  read la n := keepsBelief_issue la n nofun
  write la v := keepsBelief_issue la v.length nofun
  drive l := keepsBelief_of_run fun s hb ha => ⟨_, _, driveCe_run l s, hb.congr, ha⟩
  enter m := keepsBelief_of_run fun s hb ha => ⟨_, _, enterMode_run m s, hb.congr, ha⟩

/-- The body of a command request, as an operation. -/
theorem body_command_eq {i : Instr} {c : Command} (h : commandOf i = some c) :
    body i = check (operandError i) >>= fun _ => answerOf <$> c.issue := funext (body_command h)

/-- Every request but the raw toggle keeps the belief right. -/
theorem keepsBelief_body {i : Instr} (hi : i ≠ .activate 0x53) : Op.Keeps KeepsBelief (body i) := by
  by_cases hr : i = .reset
  · subst hr
    exact keepsBelief_of_run fun s hb _ => ⟨_, _, rfl, hb.construct, nofun⟩
  cases hc : commandOf i with
  | none => exact keepsBelief_closed.composite hc hr
  | some c =>
    rw [body_command_eq hc]
    refine Op.keeps_bind (R := KeepsBelief) KeepsBelief.trans (keepsBelief_check _) fun _ =>
      Op.keeps_map _ (keepsBelief_issue _ _ fun ho hbuf => ?_)
    cases i <;> cases hc <;> cases ho
    exact hi (congrArg Instr.activate (List.singleton_injective hbuf))

/-- Settles O24: every operation a request is built of keeps the belief right. -/
theorem beliefStaysRight : Obligations.BeliefStaysRight := by
  intro i s t hb ha hi h
  have hk := keepsBelief_body hi (s.accept i)
  obtain ⟨a, s', hr, rfl⟩ | ⟨e, s', hr, rfl⟩ := exec_cases h
  · obtain ⟨hb', ha'⟩ := hk.1 a s' hr ⟨hb.accept i, ha⟩
    exact ⟨hb'.congr, ha'⟩
  · obtain ⟨hb', ha'⟩ := hk.2 e s' hr ⟨hb.accept i, ha⟩
    exact ⟨hb'.congr, ha'⟩

/-- Settles O54: of the commands only WriteRegister stores a register byte, and a reset leaves the device. -/
theorem otherRequestsKeepRegisters : Obligations.OtherRequestsKeepRegisters := by
  intro i s t hb hi h a
  by_cases hr : i = .reset
  · subst hr
    rw [exec_reset] at h
    cases h
    rfl
  obtain ⟨c, hc, ho⟩ : ∃ c, commandOf i = some c ∧ c.opcode ≠ .writeRegister := by
    obtain hu | ⟨la, n, rfl⟩ := hi
    · obtain ⟨c, hc, hbank⟩ := commandOf_unguarded hu hr
      refine ⟨c, hc, fun ho => ?_⟩
      rw [Command.word, ho, encoder_write] at hbank
      cases hbank
    · exact ⟨_, rfl, nofun⟩
  obtain ⟨r, s', hrun, hcell⟩ := issue_bench_cell (hb.accept i) c.operand c.buf c.n ho
  obtain ⟨b, s'', hbody, rfl⟩ | ⟨e, s'', hbody, rfl⟩ := exec_cases h
  · obtain ⟨-, r', hbody, -⟩ := body_command_ok hc hbody
    rw [hrun] at hbody
    cases hbody
    exact hcell a
  · obtain ⟨-, rfl⟩ | ⟨-, hbody⟩ := body_command_error hc hbody
    · rfl
    · rw [hrun] at hbody
      cases hbody

end Sys2Proof.Machine
end

section
/-! The commands without a target bank against the reference emulation (spec/20_memory.md R51). -/

namespace Sys2Proof.Machine

section
variable (d : Device) (v : List Byte)

theorem perform_writeTxPayload : d.perform (commandEncoder .writeTxPayload 0).byte v = { d with tx := d.tx ++ [v] } := by
  rw [Device.perform, opcodeOf_word]

theorem perform_writeTxPayloadNoAck :
    d.perform (commandEncoder .writeTxPayloadNoAck 0).byte v = { d with tx := d.tx ++ [v] } := by
  rw [Device.perform, opcodeOf_word]

/-- A frame of WriteAckPayload sets the ACK payload of its pipe (R51). -/
theorem perform_writeAckPayload {p : Nat} (hp : p < 6) :
    d.perform (commandEncoder .writeAckPayload (BitVec.ofNat 8 p)).byte v = { d with ack := d.ack.set p v hp } := by
  rw [Device.perform, opcodeOf_word]
  simp only [pipe_of_command (show p < 8 by omega)]
  simp [Vector.setIfInBounds, Vector.set, Array.setIfInBounds, hp]

theorem perform_flushTx : d.perform (commandEncoder .flushTx 0).byte v = { d with tx := [] } := by
  rw [Device.perform, opcodeOf_word]

theorem perform_flushRx : d.perform (commandEncoder .flushRx 0).byte v = { d with rx := [] } := by
  rw [Device.perform, opcodeOf_word]

theorem perform_reuseTxPayload : d.perform (commandEncoder .reuseTxPayload 0).byte v = d := by
  rw [Device.perform, opcodeOf_word]

theorem perform_nop : d.perform (commandEncoder .nop 0).byte v = d := by
  rw [Device.perform, opcodeOf_word]

theorem perform_readRxPayload : d.perform (commandEncoder .readRxPayload 0).byte v = { d with rx := d.rx.tail } := by
  rw [Device.perform, opcodeOf_word]

theorem perform_readRxPayloadWidth : d.perform (commandEncoder .readRxPayloadWidth 0).byte v = d := by
  rw [Device.perform, opcodeOf_word]

/-- A frame of Activate flips the bank for the toggle's sub-command and does nothing for any other (R51). -/
theorem perform_activate (b : Byte) :
    d.perform (commandEncoder .activate 0).byte [b] = if b = 0x53 then { d with bank := d.bank.other } else d := by
  rw [Device.perform, opcodeOf_word]
  simp only [List.cons.injEq, and_true, toggleCode]

end

/-- What a command without a target bank leaves on the bench, from what its frame does to the device. -/
theorem exec_frame_bench {i : Instr} {c : Command} {s : State} {d : Device} (h : commandOf i = some c)
    (ho : operandError i = none) (hbank : c.word.bank = none) (hb : OnBench s)
    (hdev : s.dev.perform c.word.byte (benchOuts s.draws c.buf c.n c.word.dir) = d) (hframe : d.frame = s.dev.frame) :
    ∃ t, exec i s = .next t ∧ OnBench t ∧ t.currentBank = s.currentBank ∧ t.dev = d ∧
      t.results = s.results ++ [.ok (some s.dev.statusView) (benchData s.dev c.word.byte c.n c.word.dir)] := by
  obtain ⟨t, ht, hb', hbel, hd, hr⟩ := exec_unguarded_bench h ho hbank hb
  rw [hdev, Device.noFrame_eta (hframe.trans hb.frame)] at hd
  exact ⟨t, ht, hb', hbel, hd, hr⟩

/-- The same for a command that returns no data. -/
theorem exec_sends_bench {i : Instr} {c : Command} {s : State} {d : Device} (h : commandOf i = some c)
    (ho : operandError i = none) (hbank : c.word.bank = none) (hb : OnBench s)
    (hdev : s.dev.perform c.word.byte (benchOuts s.draws c.buf c.n c.word.dir) = d) (hframe : d.frame = s.dev.frame)
    (hdata : benchData s.dev c.word.byte c.n c.word.dir = []) :
    ∃ t, exec i s = .next t ∧ t.dev = d ∧ t.results = s.results ++ [.ok (some s.dev.statusView) []] := by
  obtain ⟨t, ht, -, -, hd, hr⟩ := exec_frame_bench h ho hbank hb hdev hframe
  rw [hdata] at hr
  exact ⟨t, ht, hd, hr⟩

/-- Settles O56: the frame of each command, and no data. -/
theorem payloadWriteEffects : Obligations.PayloadWriteEffects := by
  intro v p s hb h₁ h₂ hp
  have hl := lengthCheck_ok h₁ h₂
  have hack := (operandError_writeAckPayload p v).trans (ackCheck_ok (by omega) h₁ h₂)
  exact ⟨exec_sends_bench (i := .writeTxPayload v) rfl hl rfl hb (perform_writeTxPayload _ _) rfl rfl,
    exec_sends_bench (i := .writeTxPayloadNoAck v) rfl hl rfl hb (perform_writeTxPayloadNoAck _ _) rfl rfl,
    exec_sends_bench (i := .writeAckPayload p v) rfl hack rfl hb (perform_writeAckPayload _ _ hp) rfl rfl,
    exec_sends_bench (i := .flushTx) rfl rfl rfl hb (perform_flushTx _ _) rfl rfl,
    exec_sends_bench (i := .flushRx) rfl rfl rfl hb (perform_flushRx _ _) rfl rfl,
    exec_sends_bench (i := .reuseTxPayload) rfl rfl rfl hb (perform_reuseTxPayload _ _) rfl rfl,
    exec_sends_bench (i := .nop) rfl rfl rfl hb (perform_nop _ _) rfl rfl⟩

/-- The answers of a payload read: the head of the RX FIFO, zeros past its end (R51). -/
theorem answers_readRxPayload (d : Device) (n : Nat) :
    answers d 0x61 0 n = (d.rx.headD []).take n ++ List.replicate (n - (d.rx.headD []).length) 0x00 := by
  have hbyte : ∀ i, d.dataByte 0x61 i = (d.rx.headD []).getD i 0x00 := fun _ => rfl
  apply List.ext_getElem
  · simp
    omega
  · intro i h₁ h₂
    rw [answers_length] at h₁
    simp only [answers, List.getElem_map, List.getElem_range', hbyte, List.getElem_append, List.length_take,
      List.getElem_take, List.getElem_replicate]
    split
    · rw [List.getD_eq_getElem _ _ (by omega)]
      simp
    · rw [List.getD_eq_default _ _ (by omega)]

/-- Settles O57: ReadRxPayload's frame removes the head, ReadRxPayloadWidth's changes nothing. -/
theorem payloadReadEffects : Obligations.PayloadReadEffects := by
  intro n s hb h₁ h₂ hlen
  refine ⟨?_, ?_⟩
  · obtain ⟨t, ht, -, -, hd, hr⟩ :=
      exec_frame_bench (i := .readRxPayload n) rfl (lengthCheck_ok h₁ h₂) rfl hb (perform_readRxPayload _ _) rfl
    refine ⟨t, ht, hd, hr.trans ?_⟩
    exact congrArg (fun d => s.results ++ [Result.ok (some s.dev.statusView) d]) (answers_readRxPayload s.dev n)
  · obtain ⟨t, ht, -, -, hd, hr⟩ :=
      exec_frame_bench (i := .readRxPayloadWidth) rfl rfl rfl hb (perform_readRxPayloadWidth _ _) rfl
    exact ⟨t, BitVec.ofNat 8 (s.dev.rx.headD []).length, ht, hd, hr, by simpa using hlen⟩

@[simp] theorem bank_other_other (b : Bank) : b.other.other = b := by cases b <;> rfl

theorem bank_other_ne (b : Bank) : b.other ≠ b := by cases b <;> nofun

/-- Activate on the bench (R51, R130). -/
theorem exec_activate_bench {s : State} (hb : OnBench s) (b : Byte) :
    ∃ t, exec (.activate b) s = .next t ∧ OnBench t ∧ t.currentBank = s.currentBank ∧
      t.dev = if b = 0x53 then { s.dev with bank := s.dev.bank.other } else s.dev := by
  obtain ⟨t, ht, hb', hbel, hd, -⟩ :=
    exec_frame_bench (i := .activate b) rfl rfl rfl hb (perform_activate s.dev b) (by split <;> rfl)
  exact ⟨t, ht, hb', hbel, hd⟩

/-- Settles O26: the raw toggle flips the device's bank and writes no belief; other sub-commands do nothing. -/
theorem rawToggleDesynchronises : Obligations.RawToggleDesynchronises := by
  intro s hb
  refine ⟨?_, fun b hne => ?_⟩
  · obtain ⟨t, ht, hbt, hbel, hd⟩ := exec_activate_bench hb 0x53
    obtain ⟨u, hu, -, hbel', hd'⟩ := exec_activate_bench hbt 0x53
    rw [if_pos rfl] at hd hd'
    refine ⟨t, u, ht, hu, hbel, hd, fun b hk ha hat => ?_, hbel'.trans hbel, ?_⟩
    · have htrue := ha b hk
      have hfalse := hat b (hbel.trans hk)
      rw [hd] at hfalse
      exact bank_other_ne s.dev.bank (hfalse.trans htrue.symm)
    · simp only [hd', hd, bank_other_other]
  · obtain ⟨t, ht, -, hbel, hd⟩ := exec_activate_bench hb b
    rw [if_neg hne] at hd
    exact ⟨t, ht, hd, hbel⟩

end Sys2Proof.Machine
end

section
/-! The register requests against the reference emulation (spec/20_memory.md R47 to R50, spec/40_bank_tracker.md R70). -/

namespace Sys2Proof.Machine

/-! ### The bank work -/

/-- The toggle of the bank guard, from a known belief: the toggle work of R70. -/
theorem benchToggle_work {s : State} {c : Bank} (hc : s.currentBank = .known c) (t : Bank) :
    ∃ ev, ToggleWork c t ev ∧ (benchToggle s t).trace = s.trace ++ ev := by
  by_cases h : c = t
  · subst h
    exact ⟨[], by simp [ToggleWork], by simp [benchToggle, hc]⟩
  · have hrun : benchToggle s t = (benchState s 0x50 [0x53] 1 .h2d).setBank (.known t) := if_neg (by simp [hc, h])
    refine ⟨frameEvents 0x50 s.dev.statusView [0x53] (answers s.dev 0x50 0 1), ?_, by rw [hrun]; rfl⟩
    rw [ToggleWork, if_neg h]
    exact ⟨_, _, rfl⟩

/-- The command bytes of the bank work before a command of bank `t`, with the device in bank `k` (the table of R70). -/
def workBytes (b : BankBelief) (k t : Bank) : List Byte :=
  match b with
  | .known c => if c = t then [] else [0x50]
  | .unknown => 0x07 :: if k = t then [] else [0x50]

/-- The bank guard on the bench emits the command bytes of R70's table. -/
theorem benchGuard_commandBytes (s : State) (t : Bank) :
    ∃ ev, (benchGuard s (some t)).trace = s.trace ++ ev ∧ Closed ev ∧
      commandBytes ev = workBytes s.currentBank s.dev.bank t := by
  cases hc : s.currentBank with
  | known c =>
    obtain ⟨ev, hw, htr⟩ := benchToggle_work hc t
    refine ⟨ev, ?_, Closed.of_toggleWork hw, commandBytes_toggleWork hw⟩
    simpa only [benchGuard, benchResolve, hc] using htr
  | unknown =>
    obtain ⟨ev, hw, htr⟩ :=
      benchToggle_work (s := (benchState s 0x07 [] 1 .d2h).setBank (.known s.dev.bank)) rfl t
    refine ⟨frameEvents 0x07 s.dev.statusView (benchOuts s.draws [] 1 .d2h) (answers s.dev 0x07 0 1) ++ ev, ?_,
      (Closed.frameEvents _ _ _ _).append (Closed.of_toggleWork hw), ?_⟩
    · simp only [benchGuard, benchResolve, hc]
      rw [htr, ← List.append_assoc]
      rfl
    · rw [commandBytes_frameEvents, commandBytes_toggleWork hw]
      rfl

/-- A command emits its bank work and then its own transaction. -/
theorem benchCommand_trace (s : State) (o : Opcode) (x : Byte) (buf : List Byte) (n : Nat) :
    ∃ st outs ins, (benchCommand s o x buf n).trace = (benchGuard s (commandEncoder o x).bank).trace ++
      frameEvents (commandEncoder o x).byte st outs ins := ⟨_, _, _, rfl⟩

/-- Settles O20: the bytes of the bank guard, then the request's own. -/
theorem bankWorkTable : Obligations.BankWorkTable := by
  intro la n s hb hd h₁ h₂
  have hcmd : (commandEncoder .readRegister la).byte = la &&& 0x1F := by
    rw [encoder_readRegister]
    exact BitVec.zero_or
  obtain ⟨ev, htr, hcl, hbytes⟩ := benchGuard_commandBytes (s.accept (.readRegister la n)) (bankOf la)
  obtain ⟨st, outs, ins, htr'⟩ := benchCommand_trace (s.accept (.readRegister la n)) .readRegister la [] n
  rw [encoder_read, htr, hcmd] at htr'
  refine ⟨_, _, exec_command_bench rfl (operandError_readRegister_none hd h₁ h₂) hb, htr'.trans (List.append_assoc ..),
    benchCommand_belief _ _ _ _ _, ?_⟩
  rw [hcl, commandBytes_frame, hbytes, State.accept_currentBank, State.accept_dev]
  cases hc : s.currentBank <;> simp only [workBytes]

/-- Settles O25: the status byte of the request's own transaction shows the bank the guard has selected. -/
theorem registerRequestReachesItsBank : Obligations.RegisterRequestReachesItsBank := by
  intro i la s t hb ha ho hreg h
  obtain ⟨⟨o, x, buf, n⟩, hc, hop, rfl, -⟩ := commandOf_register hreg
  have hbank : (commandEncoder o x).bank = some (bankOf x) := by
    obtain rfl | rfl := hop
    · exact encoder_read x
    · exact encoder_write x
  have hguard : guardedBank (s.accept i) (bankOf x) = bankOf x := guardedBank_of_agrees (s := s.accept i) ha _
  rw [exec_command_bench hc ho hb] at h
  cases h
  refine ⟨⟨_, _, benchCommand_results (hb.accept i) hbank _ _, ?_⟩, ?_, ?_⟩
  · rw [statusBank_statusView, hguard]
  · rw [benchCommand_belief, hbank]
    rfl
  · rw [benchCommand_dev (hb.accept i) hbank, hguard]
    refine perform_bank fun hact => ?_
    rw [opcodeOf_word] at hact
    obtain rfl | rfl := hop <;> cases hact

/-! ### Reading and writing a register -/

/-- A register read on the bench. -/
theorem exec_readRegister_bench {la : Byte} {n : Nat} {s : State} (hb : OnBench s)
    (hc : registerCheck la n = none) :
    ∃ t, exec (.readRegister la n) s = .next t ∧ OnBench t ∧ t.currentBank = .known (bankOf la) ∧
      t.dev = { s.dev with bank := guardedBank s (bankOf la) } ∧
      t.results = s.results ++ [.ok (some ({ s.dev with bank := guardedBank s (bankOf la) } : Device).statusView)
        ((List.range n).map fun i =>
          ({ s.dev with bank := guardedBank s (bankOf la) } : Device).registerByte (regNumber la) i)] := by
  obtain ⟨s', hr, hb', hbel, -, -, hd⟩ := rreg_bench (hb.accept (.readRegister la n)) hc
  obtain ⟨ev, hi⟩ := (issues_rreg la n _).1 _ _ hr
  refine ⟨_, exec_of_ok (i := .readRegister la n) (Op.map_ok.2 ⟨_, hr, rfl⟩), hb'.congr, hbel, hd, ?_⟩
  rw [State.setPhase_results, State.putResult_results, hi.results]
  rfl

/-- A register write on the bench. -/
theorem exec_writeRegister_bench {la : Byte} {v : List Byte} {s : State} (hb : OnBench s)
    (hc : registerCheck la v.length = none) :
    ∃ t, exec (.writeRegister la v) s = .next t ∧ OnBench t ∧ t.currentBank = .known (bankOf la) ∧
      t.dev = ({ s.dev with bank := guardedBank s (bankOf la) } : Device).writeRegister (regNumber la) v := by
  obtain ⟨st, s', hr, hb', hbel, -, -, hd⟩ := wreg_bench (hb.accept (.writeRegister la v)) hc
  exact ⟨_, exec_of_ok (i := .writeRegister la v) (Op.map_ok.2 ⟨_, hr, rfl⟩), hb'.congr, hbel, hd⟩

/-- A register write on the bench from a right belief, to a register that is not STATUS: its bytes are stored (R49). -/
theorem exec_writeRegister_stores {la : Byte} {v : List Byte} {s : State} (hb : OnBench s) (ha : Agrees s)
    (hd : RegisterAddr la) (h7 : la ≠ 0x07) (h₁ : 1 ≤ v.length) (h₂ : v.length ≤ regWidth la) :
    ∃ t, exec (.writeRegister la v) s = .next t ∧ OnBench t ∧ Agrees t ∧
      t.dev = { s.dev with bank := bankOf la, regs := Memory.writeBytes s.dev.regs (cellAddr la 0) v } := by
  obtain ⟨t, ht, hb', hbel, hdev⟩ := exec_writeRegister_bench hb (registerCheck_ok hd h₁ h₂)
  rw [guardedBank_of_agrees ha, Device.writeRegister_register hd rfl h7 h₂] at hdev
  refine ⟨t, ht, hb', fun b hk => ?_, hdev⟩
  rw [hbel] at hk
  cases hk
  rw [hdev]

/-- The bytes of a device after a register was written. -/
theorem cell_stored (d : Device) (k : Bank) (la : Byte) (v : List Byte) :
    (∀ (i : Nat) (h : i < v.length),
      ({ d with bank := k, regs := Memory.writeBytes d.regs (cellAddr la 0) v } : Device).cell (cellAddr la i) = v[i]) ∧
    ∀ a, a < cellAddr la 0 ∨ cellAddr la v.length ≤ a →
      ({ d with bank := k, regs := Memory.writeBytes d.regs (cellAddr la 0) v } : Device).cell a = d.cell a := by
  have hcell := Device.cell_writeBytes { d with bank := k } (cellAddr la 0) v
  refine ⟨fun i h => ?_, fun a ha => ?_⟩
  · rw [hcell, dif_pos (by unfold cellAddr; omega)]
    congr 1
    unfold cellAddr
    omega
  · rw [hcell, dif_neg (by unfold cellAddr at ha ⊢; omega), Device.cell_bank]

/-- Settles O51: the write stores its bytes, and nothing else changes but the bank. -/
theorem writeRegisterStores : Obligations.WriteRegisterStores := by
  intro la v s hb ha hd h7 h₁ h₂
  obtain ⟨t, ht, -, -, hdev⟩ := exec_writeRegister_stores hb ha hd h7 h₁ h₂
  obtain ⟨hin, hout⟩ := cell_stored s.dev (bankOf la) la v
  rw [← hdev] at hin hout
  exact ⟨t, ht, hin, hout, by rw [hdev], by rw [hdev], by rw [hdev]⟩

/-- The bytes a read answers from a register of the selected bank whose number is not 7. -/
theorem registerBytes_eq {d : Device} {la : Byte} {v : List Byte} (hd : RegisterAddr la) (hbank : d.bank = bankOf la)
    (h7 : la &&& 0x1F ≠ 7) (hw : v.length ≤ regWidth la)
    (hcell : ∀ (i : Nat) (h : i < v.length), d.cell (cellAddr la i) = v[i]) :
    ((List.range v.length).map fun i => d.registerByte (regNumber la) i) = v := by
  apply List.ext_getElem
  · simp
  · intro i hi hi'
    rw [List.getElem_map, List.getElem_range, Device.registerByte_register hd hbank (by omega), if_neg (fun h => h7 h.1)]
    exact hcell i hi'

/-- Settles O50: the bytes stored by the write are those the read answers. -/
theorem writeThenReadRoundTrip : Obligations.WriteThenReadRoundTrip := by
  intro la v s hb ha hd h7 h₁ h₂
  obtain ⟨t, ht, hbt, hat, hdev⟩ := exec_writeRegister_stores hb ha hd (by rintro rfl; exact h7 rfl) h₁ h₂
  obtain ⟨u, hu, -, -, -, hres⟩ := exec_readRegister_bench hbt (registerCheck_ok hd h₁ h₂)
  have hcell := (cell_stored s.dev (bankOf la) la v).1
  rw [← hdev] at hcell
  rw [guardedBank_of_agrees hat, registerBytes_eq (d := { t.dev with bank := bankOf la }) hd rfl h7 h₂ hcell] at hres
  exact ⟨t, u, _, ht, hu, hres⟩

/-- Settles O53: every byte answered is the register's, but for the status view of number 7. -/
theorem readRegisterReturnsRegister : Obligations.ReadRegisterReturnsRegister := by
  intro la n s hb ha hd h₁ h₂
  obtain ⟨t, ht, -, -, hdev, hres⟩ := exec_readRegister_bench hb (registerCheck_ok hd h₁ h₂)
  rw [guardedBank_of_agrees ha] at hdev hres
  refine ⟨t, ht, hres.trans ?_, hdev⟩
  have hbytes : ∀ i ∈ List.range n, ({ s.dev with bank := bankOf la } : Device).registerByte (regNumber la) i =
      if la &&& 0x1F = 7 ∧ i = 0 then statusSeen (s.dev.cell (cellAddr 0x07 0)) (bankOf la)
      else s.dev.cell (cellAddr la i) := by
    intro i hi
    rw [Device.registerByte_register hd rfl (lt_of_lt_of_le (List.mem_range.1 hi) h₂)]
    rfl
  rw [List.map_congr_left hbytes]
  rfl

/-- Bit by bit, a write of STATUS clears the latched flags written as 1 (R50). -/
theorem clearLatched_getLsbD (stored b : Byte) {k : Nat} (hk : k < 8) :
    (clearLatched stored b).getLsbD k = (stored.getLsbD k && !(b.getLsbD k && (k == 4 || k == 5 || k == 6))) := by
  have hflags : ∀ k : Fin 8, latchedFlags.getLsbD k.val = (k.val == 4 || k.val == 5 || k.val == 6) := by decide
  rw [clearLatched, BitVec.getLsbD_and, BitVec.getLsbD_not, BitVec.getLsbD_and, hflags ⟨k, hk⟩]
  simp [hk]

/-- A write of STATUS on the bank-0 device (R50). -/
theorem writeRegister_status (d : Device) (b : Byte) :
    ({ d with bank := bankOf 0x07 } : Device).writeRegister (regNumber 0x07) [b] =
      { d with
        bank := .b0
        regs := Memory.write d.regs (cellAddr 0x07 0) (clearLatched (d.cell (cellAddr 0x07 0)) b) } := rfl

/-- Settles O52: the write stores the byte with its flags cleared. -/
theorem writeStatusClearsFlags : Obligations.WriteStatusClearsFlags := by
  intro b s hb ha
  obtain ⟨t, ht, -, -, hdev⟩ := exec_writeRegister_bench (v := [b]) hb status_check
  rw [guardedBank_of_agrees ha, statusAddr, writeRegister_status] at hdev
  have hcell : ∀ a, t.dev.cell a = if a = cellAddr 0x07 0 then clearLatched (s.dev.cell (cellAddr 0x07 0)) b
      else s.dev.cell a := by
    intro a
    rw [hdev]
    exact Device.cell_write { s.dev with bank := .b0 } _ _ a
  refine ⟨t, ht, fun k hk => ?_, fun a hne => ?_, by rw [hdev], by rw [hdev], by rw [hdev]⟩
  · rw [hcell, if_pos rfl, clearLatched_getLsbD _ _ hk]
  · rw [hcell, if_neg hne]

/-- Settles O27: from a wrong belief the guard toggles nothing, and register number 0 is bank 1's. -/
theorem desynchronisedWriteMissesConfig : Obligations.DesynchronisedWriteMissesConfig := by
  intro s c hb hbel hbank
  have hwidth : [c].length ≤ regWidth 0x80 := by
    rw [List.length_singleton]
    decide
  obtain ⟨t, ht, -, -, hdev⟩ := exec_writeRegister_bench (la := 0x00) (v := [c]) hb config_check
  have hguard : guardedBank s (bankOf 0x00) = .b1 := by
    rw [show bankOf 0x00 = .b0 from rfl, guardedBank, hbel]
    exact hbank
  rw [hguard, show regNumber 0x00 = regNumber 0x80 from rfl,
    Device.writeRegister_register (la := 0x80) (.inr (by decide)) rfl (by decide) hwidth] at hdev
  obtain ⟨hin, hout⟩ := cell_stored s.dev .b1 0x80 [c]
  rw [← hdev] at hin hout
  exact ⟨t, ht, hin 0 Nat.one_pos, fun a hne => hout a (by rw [List.length_singleton]; unfold cellAddr at *; omega)⟩

end Sys2Proof.Machine
end

section
/-! The mode transitions against the reference emulation (spec/43_mode_controller.md R97 to R102). -/

namespace Sys2Proof.Machine

/-- The device after a read-modify-write of a one-byte register that is not STATUS: in the register's bank, `f` of the
byte found stored. -/
def modifiedDevice (d : Device) (la : Byte) (f : Byte → Byte) : Device :=
  { d with bank := bankOf la, regs := Memory.write d.regs (cellAddr la 0) (f (d.cell (cellAddr la 0))) }

section
variable (d : Device) (la : Byte) (f : Byte → Byte)

theorem modifiedDevice_cell (a : Nat) :
    (modifiedDevice d la f).cell a = if a = cellAddr la 0 then f (d.cell (cellAddr la 0)) else d.cell a :=
  Device.cell_write { d with bank := bankOf la } _ _ a

@[simp] theorem modifiedDevice_cell_self : (modifiedDevice d la f).cell (cellAddr la 0) = f (d.cell (cellAddr la 0)) := by
  rw [modifiedDevice_cell, if_pos rfl]

theorem modifiedDevice_cell_ne {a : Nat} (h : a ≠ cellAddr la 0) : (modifiedDevice d la f).cell a = d.cell a := by
  rw [modifiedDevice_cell, if_neg h]

end

/-- What RX's write-back of STATUS makes of the byte stored: its latched flags cleared (R44, R100). -/
theorem status_written_back (c : Byte) : clearLatched c (statusSeen c .b0) = c &&& 0x8F := by
  revert c
  decide +kernel

/-- RX's write-back of STATUS leaves the device as a read-modify-write of it by clearing the flags would. -/
theorem modify_status_device (d : Device) :
    ({ d with bank := bankOf statusAddr } : Device).writeRegister (regNumber statusAddr)
        [({ d with bank := bankOf statusAddr } : Device).registerByte (regNumber statusAddr) 0] =
      modifiedDevice d statusAddr fun c => c &&& 0x8F := by
  rw [modify_status, status_written_back]
  rfl

/-- A state on the bench, with a right belief. -/
structure Benched (s : State) : Prop where
  onBench : OnBench s
  agrees : Agrees s

theorem Benched.congr {s t : State} (h : Benched s) (hw : t.world = s.world := by rfl)
    (hF : t.faultSet = s.faultSet := by rfl) (hS : t.sessionFaults = s.sessionFaults := by rfl)
    (hd : t.dev = s.dev := by rfl) (hb : t.currentBank = s.currentBank := by rfl) : Benched t := by
  refine ⟨h.onBench.congr hw hF hS (by rw [hd]), fun b hk => ?_⟩
  rw [hd]
  exact h.agrees b (hb ▸ hk)

theorem Benched.accept {s : State} (h : Benched s) (i : Instr) : Benched (s.accept i) := ⟨h.onBench.accept i, h.agrees⟩

/-- A read-modify-write on the bench from a right belief. -/
structure ModifiedOnBench (d : Device) (s s' : State) : Prop where
  benched : Benched s'
  ce : s'.ce = s.ce
  modeTrack : s'.modeTrack = s.modeTrack
  dev : s'.dev = d

theorem modify_bench {s : State} (hs : Benched s) {la : Byte} (hc : registerCheck la 1 = none) (h7 : la &&& 0x1F ≠ 7)
    (f : Byte → Byte) :
    ∃ st s', (modifyRegister la f).run s = .ok st s' ∧ ModifiedOnBench (modifiedDevice s.dev la f) s s' := by
  obtain ⟨st, s', hr, hb, ha, hce, hm, hd⟩ := modifyRegister_bench hs.onBench hs.agrees hc f
  rw [modify_device hc h7 f] at hd
  exact ⟨st, s', hr, ⟨hb, ha⟩, hce, hm, hd⟩

theorem modifyStatus_bench {s : State} (hs : Benched s) :
    ∃ st s', (modifyRegister statusAddr fun c => c).run s = .ok st s' ∧
      ModifiedOnBench (modifiedDevice s.dev statusAddr fun c => c &&& 0x8F) s s' := by
  obtain ⟨st, s', hr, hb, ha, hce, hm, hd⟩ := modifyRegister_bench hs.onBench hs.agrees status_check fun c => c
  rw [modify_status_device] at hd
  exact ⟨st, s', hr, ⟨hb, ha⟩, hce, hm, hd⟩

/-- What a completed transition leaves on the bench. -/
structure ModeEntered (m : Mode) (l : Level) (d : Device) (t : State) : Prop where
  benched : Benched t
  ce : t.ce = l
  modeTrack : t.modeTrack = some m
  dev : t.dev = d

theorem config_number : configAddr &&& 0x1F ≠ 7 := by decide

theorem powerDown_bench {s : State} (hs : Benched s) : ∃ t, exec .modePD s = .next t ∧
    ModeEntered .powerDown .low (modifiedDevice s.dev configAddr fun c => c &&& ~~~pwrUp) t := by
  obtain ⟨st, s₁, hr, h⟩ := modify_bench (s := ((s.accept .modePD).setCe .low).note (.ce .low)) hs.congr config_check
    config_number fun c => c &&& ~~~pwrUp
  exact ⟨_, exec_of_ok (i := .modePD) ((Op.bind_of_ok (driveCe_run _ _)).trans (Op.bind_of_ok hr)),
    h.benched.congr, h.ce, rfl, h.dev⟩

theorem standby_bench {s : State} (hs : Benched s) : ∃ t, exec .modeSB s = .next t ∧
    ModeEntered .standbyI .low (modifiedDevice s.dev configAddr fun c => c ||| pwrUp) t := by
  obtain ⟨st, s₁, hr, h⟩ := modify_bench (s := ((s.accept .modeSB).setCe .low).note (.ce .low)) hs.congr config_check
    config_number fun c => c ||| pwrUp
  exact ⟨_, exec_of_ok (i := .modeSB) ((Op.bind_of_ok (driveCe_run _ _)).trans (Op.bind_of_ok hr)),
    h.benched.congr, h.ce, rfl, h.dev⟩

theorem tx_bench {s : State} (hs : Benched s) : ∃ t, exec .modeTX s = .next t ∧
    ModeEntered .tx .high (modifiedDevice s.dev configAddr fun c => (c &&& pwrUp) &&& ~~~primRx) t := by
  obtain ⟨st, s₁, hr, h⟩ := modify_bench (s := ((s.accept .modeTX).setCe .low).note (.ce .low)) hs.congr config_check
    config_number fun c => (c &&& pwrUp) &&& ~~~primRx
  exact ⟨_, exec_of_ok (i := .modeTX) ((Op.bind_of_ok (driveCe_run _ _)).trans (Op.bind_of_ok hr)),
    h.benched.congr, rfl, rfl, h.dev⟩

theorem rx_bench {s : State} (hs : Benched s) : ∃ t, exec .modeRX s = .next t ∧
    ModeEntered .rx .high (modifiedDevice (modifiedDevice s.dev statusAddr fun c => c &&& 0x8F) configAddr
      fun c => c ||| pwrUp ||| primRx) t := by
  obtain ⟨st₁, s₁, hr₁, h₁⟩ := modifyStatus_bench (hs.accept .modeRX)
  obtain ⟨st, s₂, hr, h⟩ := modify_bench (s := (s₁.setCe .low).note (.ce .low)) h₁.benched.congr config_check
    config_number fun c => c ||| pwrUp ||| primRx
  have hd := h.dev
  rw [State.note_dev, State.setCe_dev, h₁.dev] at hd
  exact ⟨_, exec_of_ok (i := .modeRX)
    ((Op.bind_of_ok hr₁).trans ((Op.bind_of_ok (driveCe_run _ _)).trans (Op.bind_of_ok hr))),
    h.benched.congr, rfl, rfl, hd⟩

/-! ### The bits of CONFIG (R97) -/

theorem config_powerDown (c : Byte) : configPwrUp (c &&& ~~~pwrUp) = false ∧
    configPrimRx (c &&& ~~~pwrUp) = configPrimRx c ∧ c &&& ~~~pwrUp &&& 0xFC = c &&& 0xFC := by
  revert c
  decide +kernel

theorem config_standby (c : Byte) : configPwrUp (c ||| pwrUp) = true ∧
    configPrimRx (c ||| pwrUp) = configPrimRx c ∧ (c ||| pwrUp) &&& 0xFC = c &&& 0xFC := by
  revert c
  decide +kernel

theorem config_rx (c : Byte) : configPwrUp (c ||| pwrUp ||| primRx) = true ∧
    configPrimRx (c ||| pwrUp ||| primRx) = true ∧ (c ||| pwrUp ||| primRx) &&& 0xFC = c &&& 0xFC := by
  revert c
  decide +kernel

theorem config_tx (c : Byte) : configPwrUp (c &&& pwrUp &&& ~~~primRx) = configPwrUp c ∧
    configPrimRx (c &&& pwrUp &&& ~~~primRx) = false ∧ c &&& pwrUp &&& ~~~primRx &&& 0xFC = 0 := by
  revert c
  decide +kernel

/-- CONFIG and STATUS are different bytes of the device. -/
theorem config_cell_ne_status : cellAddr configAddr 0 ≠ cellAddr statusAddr 0 := by decide

/-- RX's write-back of STATUS leaves CONFIG. -/
theorem rx_config_cell (d : Device) : (modifiedDevice (modifiedDevice d statusAddr fun c => c &&& 0x8F) configAddr
    fun c => c ||| pwrUp ||| primRx).cell (cellAddr configAddr 0) = d.cell (cellAddr configAddr 0) ||| pwrUp ||| primRx := by
  rw [modifiedDevice_cell_self, modifiedDevice_cell_ne _ _ _ config_cell_ne_status]

/-- Settles O34: what each transition stores in CONFIG, and R97's bits of it. -/
theorem modeTable : Obligations.ModeTable := by
  intro s hb ha old
  have hs : Benched s := ⟨hb, ha⟩
  obtain ⟨pd, hpd, hpd'⟩ := powerDown_bench hs
  obtain ⟨sb, hsb, hsb'⟩ := standby_bench hs
  obtain ⟨rx, hrx, hrx'⟩ := rx_bench hs
  obtain ⟨tx, htx, htx'⟩ := tx_bench hs
  refine ⟨⟨pd, hpd, hpd'.ce, ?_⟩, ⟨sb, hsb, hsb'.ce, ?_⟩, ⟨rx, hrx, hrx'.ce, ?_⟩, ⟨tx, htx, htx'.ce, ?_⟩⟩
  · rw [hpd'.dev, ← configAddr, modifiedDevice_cell_self]
    exact config_powerDown old
  · rw [hsb'.dev, ← configAddr, modifiedDevice_cell_self]
    exact config_standby old
  · rw [hrx'.dev, ← configAddr, rx_config_cell]
    exact config_rx old
  · rw [htx'.dev, ← configAddr, modifiedDevice_cell_self]
    exact config_tx old

/-- Settles O35: each transition leaves the bench for the next, and RX sets both bits whatever CONFIG was. -/
theorem powerUpSequence : Obligations.PowerUpSequence := by
  intro s hb ha
  obtain ⟨t, ht, ht'⟩ := powerDown_bench ⟨hb, ha⟩
  obtain ⟨u, hu, hu'⟩ := standby_bench ht'.benched
  obtain ⟨v, hv, hv'⟩ := rx_bench hu'.benched
  obtain ⟨hpwr, hprim, -⟩ := config_rx (u.dev.cell (cellAddr configAddr 0))
  rw [← rx_config_cell, ← hv'.dev] at hpwr hprim
  exact ⟨t, u, v, ht, hu, hv, hv'.ce, hv'.modeTrack, hpwr, hprim⟩

/-- A read-modify-write of CONFIG leaves STATUS, every other register byte, the FIFOs and the ACK payloads. -/
theorem config_frame {d d' : Device} {f : Byte → Byte} (hd : d' = modifiedDevice d configAddr f) :
    d'.cell (cellAddr 0x07 0) = d.cell (cellAddr 0x07 0) ∧
    (∀ a, a ≠ cellAddr 0x00 0 → a ≠ cellAddr 0x07 0 → d'.cell a = d.cell a) ∧
    d'.tx = d.tx ∧ d'.rx = d.rx ∧ d'.ack = d.ack := by
  subst hd
  exact ⟨modifiedDevice_cell_ne _ _ _ config_cell_ne_status.symm, fun a h _ => modifiedDevice_cell_ne _ _ _ h, rfl, rfl, rfl⟩

/-- Settles O36: only RX writes STATUS, before CONFIG; nothing else is written. -/
theorem onlyRxClearsLatches : Obligations.OnlyRxClearsLatches := by
  intro i s t hb ha hi h
  have same : ∀ {t' : State}, exec i s = .next t' → t = t' := fun h' => Host.Outcome.next.inj (h.symm.trans h')
  cases i
  case modePD =>
    obtain ⟨t', h', he⟩ := powerDown_bench ⟨hb, ha⟩
    obtain rfl := same h'
    exact config_frame he.dev
  case modeSB =>
    obtain ⟨t', h', he⟩ := standby_bench ⟨hb, ha⟩
    obtain rfl := same h'
    exact config_frame he.dev
  case modeTX =>
    obtain ⟨t', h', he⟩ := tx_bench ⟨hb, ha⟩
    obtain rfl := same h'
    exact config_frame he.dev
  case modeRX =>
    obtain ⟨t', h', he⟩ := rx_bench ⟨hb, ha⟩
    obtain rfl := same h'
    obtain ⟨hstatus, hother, htx, hrx, hack⟩ := config_frame he.dev
    refine ⟨?_, fun a h₀ h₇ => (hother a h₀ h₇).trans (modifiedDevice_cell_ne _ _ _ h₇), htx, hrx, hack⟩
    rw [if_pos rfl, hstatus]
    exact modifiedDevice_cell_self s.dev statusAddr _
  all_goals cases hi

end Sys2Proof.Machine
end

section
/-! What SETPWR and INIT store (spec/44_power_level.md R104, spec/45_init_sequencer.md R108). -/

namespace Sys2Proof.Machine

/-- SETPWR on the bench: below the threshold the folded byte is stored, at or above it the device stays. -/
theorem setPwr_bench {s : State} (hs : Benched s) (level : Nat) : ∃ t, exec (.setPwr level) s = .next t ∧
    t.dev = if level < Config.powerLevels then modifiedDevice s.dev rfSetupAddr fun r => Config.powerFold r level
      else s.dev := by
  by_cases hl : level < Config.powerLevels
  · obtain ⟨st, s₁, hr, h⟩ := modify_bench (hs.accept (.setPwr level)) rfSetup_check (by decide)
      fun r => Config.powerFold r level
    have hbody : (powerBody Config.powerLevels Config.powerFold level).run (s.accept (.setPwr level)) =
        .ok (some st, []) s₁ := by
      rw [powerBody, if_neg (by omega), Op.bind_of_ok hr, Op.pure_run]
    refine ⟨_, exec_of_ok (i := .setPwr level) hbody, ?_⟩
    rw [if_pos hl]
    exact h.dev
  · refine ⟨_, exec_of_ok (i := .setPwr level) (powerBody_run_of_le (by omega) Config.powerFold _), ?_⟩
    rw [if_neg hl]
    rfl

/-- The device's memory after the entries of a blob have been written in order. -/
def storeEntries : Memory → List InitEntry → Memory
  | m, [] => m
  | m, e :: es => storeEntries (Memory.writeBytes m (cellAddr (entryAddr e) 0) (entryBytes e)) es

theorem storeEntries_append (m : Memory) (xs ys : List InitEntry) :
    storeEntries m (xs ++ ys) = storeEntries (storeEntries m xs) ys := by
  induction xs generalizing m with
  | nil => rfl
  | cons x xs ih => exact ih _

/-- A byte outside the registers of the blob is as it was. -/
theorem cell_storeEntries_outside (d : Device) (es : List InitEntry) (a : Nat)
    (h : ∀ e ∈ es, a < cellAddr (entryAddr e) 0 ∨ cellAddr (entryAddr e) (entryBytes e).length ≤ a) :
    ({ d with regs := storeEntries d.regs es } : Device).cell a = d.cell a := by
  induction es generalizing d with
  | nil => rfl
  | cons e es ih =>
    have hrest := ih { d with regs := Memory.writeBytes d.regs (cellAddr (entryAddr e) 0) (entryBytes e) }
      fun f hf => h f (List.mem_cons_of_mem _ hf)
    exact hrest.trans ((cell_stored d d.bank (entryAddr e) (entryBytes e)).2 a (h e List.mem_cons_self))

/-- The registers of a blob do not overlap. -/
theorem entries_disjoint {e f : InitEntry} (h : f.reg ≠ e.reg) {i : Nat} (hi : i < (entryBytes e).length) :
    cellAddr (entryAddr e) i < cellAddr (entryAddr f) 0 ∨
      cellAddr (entryAddr f) (entryBytes f).length ≤ cellAddr (entryAddr e) i := by
  have hinj : ∀ r r' : Fin 15, (blobAddr r).toNat = (blobAddr r').toNat → r = r' := by decide
  have hne : (entryAddr f).toNat ≠ (entryAddr e).toNat := fun heq => h (hinj _ _ heq)
  have hwe := regWidth_lt (entryAddr e)
  have hwf := regWidth_lt (entryAddr f)
  rw [entryBytes_length] at hi ⊢
  unfold cellAddr
  omega

/-- A register of the blob holds the bytes of its last entry. -/
theorem cell_storeEntries_last (d : Device) (pre post : List InitEntry) (e : InitEntry)
    (hpost : ∀ f ∈ post, f.reg ≠ e.reg) (i : Nat) (hi : i < (entryBytes e).length) :
    ({ d with regs := storeEntries d.regs (pre ++ e :: post) } : Device).cell (cellAddr (entryAddr e) i) =
      (entryBytes e)[i] := by
  rw [storeEntries_append]
  have hlater := cell_storeEntries_outside
    { d with regs := Memory.writeBytes (storeEntries d.regs pre) (cellAddr (entryAddr e) 0) (entryBytes e) } post _
    fun f hf => entries_disjoint (hpost f hf) hi
  exact hlater.trans ((cell_stored { d with regs := storeEntries d.regs pre } d.bank (entryAddr e) (entryBytes e)).1 i hi)

/-- The replay of a blob on the bench (R108): its entries are stored in order, and the device ends in bank 1. -/
theorem replay_bench {blob : List InitEntry} {last : Option Byte} {s : State} (hs : Benched s) :
    ∃ a s', (replay blob last).run s = .ok a s' ∧
      s'.dev = { s.dev with bank := if blob = [] then s.dev.bank else .b1, regs := storeEntries s.dev.regs blob } := by
  induction blob generalizing last s with
  | nil => exact ⟨_, s, rfl, rfl⟩
  | cons e es ih =>
    obtain ⟨hdef, hbank, -⟩ := entryAddr_facts e
    have hne : entryAddr e ≠ 0x07 := by
      intro h
      rw [h] at hbank
      cases hbank
    obtain ⟨st, s₁, hr, hb₁, hbel, -, -, hd₁⟩ := wreg_bench hs.onBench (entry_check e)
    rw [guardedBank_of_agrees hs.agrees, Device.writeRegister_register ((definedAddr_iff _).1 hdef) rfl hne
      (entryBytes_length e).le, hbank] at hd₁
    have hs₁ : Benched s₁ := by
      refine ⟨hb₁, fun b hk => ?_⟩
      rw [hbel, hbank] at hk
      cases hk
      rw [hd₁]
    obtain ⟨a, s', hr', hd'⟩ := ih (last := some st) hs₁
    refine ⟨a, s', (Op.bind_of_ok hr).trans hr', ?_⟩
    rw [hd', hd₁]
    simp [storeEntries]

/-- Settles O55: SETPWR stores the folded byte, INIT the entries of the blob. -/
theorem sequencesStore : Obligations.SequencesStore := by
  intro s hb ha
  refine ⟨fun level => ?_, ?_⟩
  · obtain ⟨t, ht, hd⟩ := setPwr_bench ⟨hb, ha⟩ level
    refine ⟨t, ht, ?_⟩
    rw [← rfSetupAddr, hd]
    by_cases hl : level < Config.powerLevels
    · simp only [if_pos hl]
      exact ⟨modifiedDevice_cell_self _ _ _, fun a hne => modifiedDevice_cell_ne _ _ _ hne, rfl, rfl, rfl⟩
    · simp only [if_neg hl, implies_true, and_self]
  · obtain ⟨a, s', hr, hd⟩ := replay_bench (blob := initBlob) (last := none) (Benched.accept ⟨hb, ha⟩ .init)
    rw [if_neg initBlob_ne_nil] at hd
    refine ⟨_, exec_of_ok (i := .init) hr, ?_⟩
    rw [State.setPhase_dev, State.putResult_dev, hd]
    refine ⟨rfl, fun pre e post hblob hpost i hi => ?_, fun a hout => ?_, rfl, rfl, rfl⟩
    · rw [hblob]
      exact cell_storeEntries_last { s.dev with bank := .b1 } pre post e hpost i hi
    · exact cell_storeEntries_outside { s.dev with bank := .b1 } initBlob a hout

end Sys2Proof.Machine
end

section
/-! The filler draws (spec/20_memory.md R52, spec/41_transaction_executor.md R77): on the bench nothing but the trace
depends on them. -/

namespace Sys2Proof.Machine

/-- The second state is the first but for the trace and the filler draws. -/
def Alike (s u : State) : Prop := u = { s with trace := u.trace, draws := u.draws }

theorem Alike.field {α : Type} {s u : State} (h : Alike s u) (f : State → α)
    (hf : ∀ tr k, f { s with trace := tr, draws := k } = f s := by intros; rfl) : f u = f s := by
  rw [h]
  exact hf _ _

theorem Alike.onBench {s u : State} (h : Alike s u) (hb : OnBench s) : OnBench u :=
  hb.congr (h.field State.world) (h.field State.faultSet) (h.field State.sessionFaults) (h.field fun s => s.dev.frame)

/-- A change that neither the trace nor the draws enter keeps states alike. -/
theorem Alike.map {s u : State} (h : Alike s u) (g : State → State)
    (hg : ∀ tr k, Alike (g s) (g { s with trace := tr, draws := k }) := by intros; rfl) : Alike (g s) (g u) := by
  rw [h]
  exact hg _ _

/-- From alike states on the bench an operation answers the same and ends in alike states. -/
def Op.Blind {α : Type} (x : Op α) : Prop :=
  ∀ s u, OnBench s → Alike s u →
    (∀ a s', x.run s = .ok a s' → OnBench s' ∧ ∃ u', x.run u = .ok a u' ∧ Alike s' u') ∧
    ∀ e s', x.run s = .error e s' → ∃ u', x.run u = .error e u' ∧ Alike s' u'

/-- An operation that completes on the bench. -/
theorem blind_of_run {α : Type} {x : Op α} (h : ∀ s u, OnBench s → Alike s u →
    ∃ a s' u', x.run s = .ok a s' ∧ x.run u = .ok a u' ∧ OnBench s' ∧ Alike s' u') : Op.Blind x := by
  intro s u hb hu
  obtain ⟨a, s', u', hs, hu', hb', ha⟩ := h s u hb hu
  rw [hs]
  refine ⟨fun a₁ s₁ h₁ => ?_, fun e s₁ h₁ => by cases h₁⟩
  cases h₁
  exact ⟨hb', u', hu', ha⟩

theorem blind_pure {α : Type} (a : α) : Op.Blind (pure a : Op α) :=
  blind_of_run fun s u hb hu => ⟨a, s, u, rfl, rfl, hb, hu⟩

theorem blind_bind {α β : Type} {x : Op α} {f : α → Op β} (hx : Op.Blind x) (hf : ∀ a, Op.Blind (f a)) :
    Op.Blind (x >>= f) := by
  intro s u hb hu
  obtain ⟨hok, herr⟩ := hx s u hb hu
  refine ⟨fun b s' h => ?_, fun e s' h => ?_⟩
  · obtain ⟨a, s₁, h₁, h₂⟩ := Op.bind_ok.1 h
    obtain ⟨hb₁, u₁, hu₁, ha₁⟩ := hok a s₁ h₁
    obtain ⟨hb', u', hu', ha'⟩ := (hf a s₁ u₁ hb₁ ha₁).1 b s' h₂
    exact ⟨hb', u', Op.bind_ok.2 ⟨a, u₁, hu₁, hu'⟩, ha'⟩
  · obtain h₁ | ⟨a, s₁, h₁, h₂⟩ := Op.bind_error.1 h
    · obtain ⟨u', hu', ha'⟩ := herr e s' h₁
      exact ⟨u', Op.bind_error.2 (.inl hu'), ha'⟩
    · obtain ⟨hb₁, u₁, hu₁, ha₁⟩ := hok a s₁ h₁
      obtain ⟨u', hu', ha'⟩ := (hf a s₁ u₁ hb₁ ha₁).2 e s' h₂
      exact ⟨u', Op.bind_error.2 (.inr ⟨a, u₁, hu₁, hu'⟩), ha'⟩

theorem blind_check (c : Option Err) : Op.Blind (check c) := by
  cases c with
  | none => exact blind_pure ()
  | some e =>
    intro s u hb hu
    refine ⟨fun a s' h => (by cases h), fun e' s' h => ?_⟩
    cases h
    exact ⟨u, rfl, hu⟩

/-- What a transaction sends has the same length from every point of the draws. -/
theorem benchOuts_length (k k' : Nat) (buf : List Byte) (n : Nat) (dir : Direction) :
    (benchOuts k buf n dir).length = (benchOuts k' buf n dir).length := by
  cases dir <;> simp [benchOuts]

/-- The frame of a read does the same whatever bytes it sends (R52). -/
theorem perform_ignores_fillers {o : Opcode} {x : Byte} (h : (commandEncoder o x).dir = .d2h) (d : Device)
    (v w : List Byte) : d.perform (commandEncoder o x).byte v = d.perform (commandEncoder o x).byte w := by
  rw [Device.perform, Device.perform, opcodeOf_word]
  cases o
  case writeRegister => cases h
  case writeTxPayload => cases h
  case writeTxPayloadNoAck => cases h
  case writeAckPayload => cases h
  case activate => cases h
  all_goals rfl

/-- The device after a transaction of a command does not depend on the draws. -/
theorem perform_benchOuts (o : Opcode) (x : Byte) (d : Device) (k k' : Nat) (buf : List Byte) (n : Nat) :
    d.perform (commandEncoder o x).byte (benchOuts k buf n (commandEncoder o x).dir) =
      d.perform (commandEncoder o x).byte (benchOuts k' buf n (commandEncoder o x).dir) := by
  cases hdir : (commandEncoder o x).dir with
  | h2d => rfl
  | none => rfl
  | d2h => exact perform_ignores_fillers hdir d _ _

/-- A transaction of a command of byte `cmd` and direction `dir` keeps states alike. -/
theorem Alike.transaction {s u : State} (h : Alike s u) {o : Opcode} {x cmd : Byte} {dir : Direction}
    (hcmd : (commandEncoder o x).byte = cmd) (hdir : (commandEncoder o x).dir = dir) (buf : List Byte) (n : Nat) :
    Alike (benchState s cmd buf n dir) (benchState u cmd buf n dir) := by
  subst hcmd hdir
  refine h.map (benchState · (commandEncoder o x).byte buf n (commandEncoder o x).dir) fun tr k => ?_
  have hlen := benchOuts_length k s.draws buf n (commandEncoder o x).dir
  apply State.ext
  case phase => exact congrArg (fun m => s.phase.advanceBy (m + 4)) hlen
  case exchanges => exact congrArg (fun m => s.exchanges + (1 + m)) hlen
  case dev => exact congrArg (fun d : Device => { d with frame := [] }) (perform_benchOuts o x s.dev k s.draws buf n)
  all_goals rfl

/-- The bank guard keeps states alike. -/
theorem Alike.guard {s u : State} (h : Alike s u) (t : Option Bank) : Alike (benchGuard s t) (benchGuard u t) := by
  have toggle : ∀ {s u : State}, Alike s u → ∀ t, Alike (benchToggle s t) (benchToggle u t) := by
    intro s u h t
    unfold benchToggle
    rw [h.field State.currentBank]
    split
    · exact h
    · exact (h.transaction (o := .activate) (x := 0) (by decide) (by decide) [0x53] 1).map (·.setBank (.known t))
  have resolve : Alike (benchResolve s) (benchResolve u) := by
    unfold benchResolve
    rw [h.field State.currentBank, h.field State.dev]
    split
    · exact (h.transaction (o := .readRegister) (x := 0x07) (by decide) (by decide) [] 1).map (·.setBank (.known s.dev.bank))
    · exact h
  cases t with
  | none => exact h
  | some t => exact toggle resolve t

theorem blind_issue (o : Opcode) (x : Byte) (buf : List Byte) (n : Nat) : Op.Blind (issue o x buf n) := by
  refine blind_of_run fun s u hb hu => ?_
  have hg := hu.guard (commandEncoder o x).bank
  refine ⟨_, _, _, issue_bench hb o x buf n, ?_, benchState_onBench (hb.guard _) _ _ _ _, hg.transaction rfl rfl buf n⟩
  rw [issue_bench (hu.onBench hb), hg.field State.dev]

theorem blind_closed : BodyClosed (fun x => Op.Blind x) where
  pure := blind_pure
  bind := blind_bind
  check := blind_check
  read la n := blind_issue _ la [] n
  write la v := blind_issue _ la v v.length
  drive l := blind_of_run fun s u hb hu =>
    ⟨(), _, _, driveCe_run l s, driveCe_run l u, hb.congr, hu.map fun s => (s.setCe l).note (.ce l)⟩
  enter m := blind_of_run fun s u hb hu =>
    ⟨(), _, _, enterMode_run m s, enterMode_run m u, hb.congr, hu.map fun s => s.setMode m⟩

/-- No request's answer or end depends on the filler draws. -/
theorem blind_body (i : Instr) : Op.Blind (body i) := by
  by_cases hr : i = .reset
  · subst hr
    exact blind_of_run fun s u hb hu =>
      ⟨(none, []), s.construct, u.construct, rfl, rfl, hb.construct, hu.map State.construct⟩
  cases hc : commandOf i with
  | none => exact blind_closed.composite hc hr
  | some c =>
    rw [body_command_eq hc]
    refine blind_bind (blind_check _) fun _ => ?_
    rw [map_eq_pure_bind]
    exact blind_bind (blind_issue _ _ _ _) fun _ => blind_pure _

/-- Settles O58: the two runs answer the same and end in alike states. -/
theorem fillerChangesNothing : Obligations.FillerChangesNothing := by
  intro i k s t hb h
  obtain ⟨hok, herr⟩ := blind_body i (s.accept i) (({ s with draws := k } : State).accept i) (hb.accept i) rfl
  have fields : ∀ {t u : State}, Alike t u → u.results = t.results ∧ u.dev = t.dev ∧ u.currentBank = t.currentBank ∧
      u.ce = t.ce ∧ u.modeTrack = t.modeTrack ∧ u.cs = t.cs := fun h =>
    ⟨h.field State.results, h.field State.dev, h.field State.currentBank, h.field State.ce, h.field State.modeTrack,
      h.field State.cs⟩
  obtain ⟨a, s', hr, rfl⟩ | ⟨e, s', hr, rfl⟩ := exec_cases h
  · obtain ⟨-, u', hu', ha⟩ := hok a s' hr
    exact ⟨_, exec_of_ok hu', fields (ha.map fun s => (s.putResult (.ok a.1 a.2)).setPhase .idle)⟩
  · obtain ⟨u', hu', ha⟩ := herr e s' hr
    exact ⟨_, exec_of_error hu', fields (ha.map fun s => (s.putResult (.err e)).setPhase .idle)⟩

end Sys2Proof.Machine
end

section
/-! The device after a transaction cut short (spec/20_memory.md R53, spec/70_reset_and_hazards.md R133). -/

namespace Sys2Proof.Machine

/-- In the middle of a frame: the device is as it was but for the frame, and the outside has the same device, or none,
for the end of the transaction. -/
structure MidFrame (s s' : State) : Prop where
  store : withFrame s'.dev [] = withFrame s.dev []
  after : afterFrame s'.world = afterFrame s.world

theorem MidFrame.refl (s : State) : MidFrame s s := ⟨rfl, rfl⟩

theorem MidFrame.trans {a b c : State} (h₁ : MidFrame a b) (h₂ : MidFrame b c) : MidFrame a c :=
  ⟨h₂.store.trans h₁.store, h₂.after.trans h₁.after⟩

/-- The device a transaction cut short leaves: the outside's where it has one, else the one found, at no frame. -/
def cutDevice (s : State) : Device :=
  match afterFrame s.world with
  | some d => d.settled
  | none => withFrame s.dev []

theorem MidFrame.cutDevice {s s' : State} (h : MidFrame s s') : cutDevice s' = cutDevice s := by
  unfold Machine.cutDevice
  rw [h.after, h.store]

/-- An operation inside a frame: where it completes the frame goes on, where it fails the transaction is cut short. -/
def Op.InFrame {α : Type} (x : Op α) : Prop :=
  ∀ s, (∀ a s', x.run s = .ok a s' → MidFrame s s') ∧ ∀ e s', x.run s = .error e s' → s'.dev = cutDevice s

theorem afterFrame_afterExchange (w : List Move) : afterFrame (afterExchange w) = afterFrame w := by
  cases w <;> rfl

theorem inFrame_exchangeOrAbort (out : Byte) : Op.InFrame (exchangeOrAbort out) := by
  intro s
  refine ⟨fun r s' h => ?_, fun e s' h => ?_⟩
  · obtain ⟨rfl, -, -⟩ := exchangeOrAbort_ok h
    exact ⟨rfl, afterFrame_afterExchange s.world⟩
  · obtain ⟨-, -, rfl⟩ := exchangeOrAbort_error h
    show frameEnd (afterExchange s.world) s.dev.dropFrame = _
    rw [frameEnd, afterFrame_afterExchange, cutDevice]
    cases afterFrame s.world <;> rfl

/-- An operation that completes and leaves the device and the outside. -/
theorem inFrame_of_run {α : Type} {x : Op α} (h : ∀ s, ∃ a s', x.run s = .ok a s' ∧ MidFrame s s') : Op.InFrame x := by
  intro s
  obtain ⟨a, s', hr, hm⟩ := h s
  rw [hr]
  refine ⟨fun a₁ s₁ h₁ => ?_, fun e s₁ h₁ => by cases h₁⟩
  cases h₁
  exact hm

theorem inFrame_pure {α : Type} (a : α) : Op.InFrame (pure a : Op α) := inFrame_of_run fun s => ⟨a, s, rfl, MidFrame.refl s⟩

theorem inFrame_bind {α β : Type} {x : Op α} {f : α → Op β} (hx : Op.InFrame x) (hf : ∀ a, Op.InFrame (f a)) :
    Op.InFrame (x >>= f) := by
  intro s
  refine ⟨fun b s' h => ?_, fun e s' h => ?_⟩
  · obtain ⟨a, s₁, h₁, h₂⟩ := Op.bind_ok.1 h
    exact ((hx s).1 a s₁ h₁).trans ((hf a s₁).1 b s' h₂)
  · obtain h₁ | ⟨a, s₁, h₁, h₂⟩ := Op.bind_error.1 h
    · exact (hx s).2 e s' h₁
    · exact ((hf a s₁).2 e s' h₂).trans ((hx s).1 a s₁ h₁).cutDevice

theorem inFrame_sendBytes (bs : List Byte) : Op.InFrame (sendBytes bs) := by
  induction bs with
  | nil => exact inFrame_pure ()
  | cons b bs ih => exact inFrame_bind (inFrame_exchangeOrAbort b) fun _ => ih

theorem inFrame_receiveBytes (n : Nat) : Op.InFrame (receiveBytes n) := by
  induction n with
  | zero => exact inFrame_pure []
  | succ n ih =>
    exact inFrame_bind (inFrame_of_run fun s => ⟨_, s.countDraw, rfl, rfl, rfl⟩) fun f =>
      inFrame_bind (inFrame_exchangeOrAbort f) fun _ => inFrame_bind ih fun _ => inFrame_pure _

theorem inFrame_payload (buf : List Byte) (n : Nat) (dir : Direction) : Op.InFrame (payload buf n dir) := by
  cases dir with
  | h2d => exact inFrame_bind (inFrame_sendBytes buf) fun _ => inFrame_pure []
  | d2h => exact inFrame_receiveBytes n
  | none => exact inFrame_pure []

/-- The part of a transaction that can fail: all before chip-select is deasserted. -/
theorem execute_error_device {cmd : Byte} {buf : List Byte} {n : Nat} {dir : Direction} {e : Err} {s s' : State}
    (h : (execute cmd buf n dir).run s = .error e s') : s'.dev = cutDevice s := by
  have hframe : Op.InFrame (csAssert >>= fun _ => exchangeOrAbort cmd >>= fun st => payload buf n dir >>= fun d =>
      (pure (st, d) : Op (Byte × List Byte))) :=
    inFrame_bind (inFrame_of_run fun s => ⟨(), s.opened, rfl, rfl, rfl⟩) fun _ =>
      inFrame_bind (inFrame_exchangeOrAbort cmd) fun _ => inFrame_bind (inFrame_payload buf n dir) fun _ => inFrame_pure _
  refine (hframe s).2 e s' ?_
  unfold execute at h
  obtain h | ⟨u, s₁, h₁, h⟩ := Op.bind_error.1 h
  · exact Op.bind_error.2 (.inl h)
  obtain h | ⟨st, s₂, h₂, h⟩ := Op.bind_error.1 h
  · exact Op.bind_error.2 (.inr ⟨u, s₁, h₁, Op.bind_error.2 (.inl h)⟩)
  obtain h | ⟨d, s₃, h₃, h⟩ := Op.bind_error.1 h
  · exact Op.bind_error.2 (.inr ⟨u, s₁, h₁, Op.bind_error.2 (.inr ⟨st, s₂, h₂, Op.bind_error.2 (.inl h)⟩)⟩)
  · cases h

/-- Settles O59: the events of a transaction cut short, and the device it leaves. -/
theorem failedTransactionDevice : Obligations.FailedTransactionDevice := by
  intro cmd buf n dir s t e h
  obtain ⟨ev, hcut, hi⟩ := (execute_error h).2.issued
  have hdev := execute_error_device h
  refine ⟨⟨ev, hi.trace, hcut⟩, fun hf hnone => ?_, fun _ d hsome => ?_⟩
  · rw [hdev, cutDevice, hnone]
    exact Device.noFrame_eta hf
  · rw [hdev, cutDevice, hsome]
    exact ⟨rfl, rfl, rfl, rfl, fun hwf a => Device.settled_cell hwf a⟩

end Sys2Proof.Machine
end
